-- ==== Sys2Proof/Word.lean ====
section
/-! DEFINITION. The word types of the handshake engine (spec/00_scope.md R10, spec/10_state.md R26, R34, R45, R49,
spec/30_encoding.md R80). -/

namespace Sys2Proof

/-- A bus byte, a command code, an identity, a page index (R10, R82). -/
abbrev Byte := BitVec 8

/-- A host register (R10, R26) and the format-C command word (R81). -/
abbrev Word := BitVec 32

/-- A 16-bit page payload word (R10, R65); also the width of LEN (R34). -/
abbrev Half := BitVec 16

/-- A count of the bytes of a unit: the width of UNIT_LEN and IDX (R45, R49). -/
abbrev Count := BitVec 17

/-- A host register number (R26). -/
abbrev RegNum := BitVec 12

/-- A format-H host transaction: W, REG, DATA (R80). -/
abbrev HostWord := BitVec 45

end Sys2Proof
end

