-- ==== Sys2Proof/Config.lean ====
section
/-! DEFINITION. What an implementation fixes (spec/00_scope.md R9, as the plain record `Params`, which State carries so that
every statement about all states holds for every value of every parameter) and the free values (the spec's "draws"), each an
opaque constant without a body. -/

namespace Sys2Proof

/-- The implementation parameters of R9, plus RESERVE_ALWAYS_ALLOCATES of R141. CRC16 is a function and stands below as an
opaque constant; PAGE_PAYLOAD, PAGE_COUNT and SENTINEL are fixed by the wire format. -/
structure Params where
  /-- WAIT_BUDGET: samples a bounded wait takes before it times out. -/
  waitBudget : Nat
  /-- SAMPLE_INTERVAL_US: timing only, no rule reads it (R260). -/
  sampleIntervalUs : Nat
  /-- BOOT_REQ: the pre-session byte that selects a flash session (R90). -/
  bootReq : Byte
  /-- OP_REBOOT (R91). -/
  opReboot : Byte
  /-- OP_GETLOG (R91). -/
  opGetlog : Byte
  /-- OP_GETCONFIG (R91). -/
  opGetconfig : Byte
  /-- OP_SETCONFIG (R91). -/
  opSetconfig : Byte
  /-- OP_STORAGE_INFO (R91). -/
  opStorageInfo : Byte
  /-- OP_STORAGE_READ (R91). -/
  opStorageRead : Byte
  /-- OP_STORAGE_WRITE (R91). -/
  opStorageWrite : Byte
  /-- OP_PACKET: the optional packet opcode (R91, R196). -/
  opPacket : Option Byte
  /-- BUF_SIZE: bytes of the unit buffer. -/
  bufSize : Nat
  /-- SELECT_STABLE: consecutive samples SELECT must be seen high (R173). -/
  selectStable : Nat
  /-- READY_PULSE: Engine steps the READY pulse stays high (R165). -/
  readyPulse : Nat
  /-- PROTECTED_PAGES: page indices the commit refuses (R63, R170). -/
  protectedPages : List Byte
  /-- RESERVE_ALWAYS_ALLOCATES: the draw of R140 fixed to true (R141). -/
  reserveAlwaysAllocates : Bool
deriving DecidableEq, Repr

/-- PAGE_PAYLOAD (R9): payload bytes of a page. -/
def pagePayload : Nat := 128

/-- PAGE_COUNT (R9): pages the header addresses. -/
def pageCount : Nat := 256

/-- The bytes of PROGMEM (R63): `PAGE_COUNT * 128`. -/
def progMemSize : Nat := pageCount * pagePayload

/-- SENTINEL (R9): the abort sentinel, fixed. -/
def sentinel : Byte := 0xFF#8

/-- The configured opcode values in the order of their handler indices (R91). -/
def Params.opcodes (p : Params) : List Byte :=
  [p.opReboot, p.opGetlog, p.opGetconfig, p.opSetconfig, p.opStorageInfo, p.opStorageRead, p.opStorageWrite]
    ++ p.opPacket.toList

/-- What R9, R90, R91 and R195 require of the parameters: a budget of at least one sample, BOOT_REQ not the sentinel, opcodes
pairwise distinct and none the sentinel, a buffer of at least one page unit. That SELECT_STABLE and READY_PULSE are at least 1 is
DEDUCED (log entry 9). -/
def Params.wf (p : Params) : Bool :=
  decide (1 ≤ p.waitBudget) && p.bootReq != sentinel && decide p.opcodes.Nodup && !p.opcodes.contains sentinel
    && decide (129 ≤ p.bufSize) && decide (1 ≤ p.selectStable) && decide (1 ≤ p.readyPulse)

/-- The reference values of R9 where the source gives one; for the OPEN parameters (opcodes, BUF_SIZE) the assignment of
spec/95_test_vectors.md section 0. DESIGN CHOICE (log entry 1): only `State.reset` uses it; no rule and no statement rests on it. -/
def Params.reference : Params where
  waitBudget := 20000
  sampleIntervalUs := 100
  bootReq := 0x88#8
  opReboot := 0x01#8
  opGetlog := 0x02#8
  opGetconfig := 0x03#8
  opSetconfig := 0x04#8
  opStorageInfo := 0x05#8
  opStorageRead := 0x06#8
  opStorageWrite := 0x07#8
  opPacket := none
  bufSize := 256
  selectStable := 1
  readyPulse := 1
  protectedPages := []
  reserveAlwaysAllocates := false

/-! The draws of the spec. The argument is `State.draws`, the count of draws taken so far, so that each draw is fresh and nothing
in Lean can evaluate one (log entry 2). -/

/-- `alloc_ok` of R140 (I6). -/
opaque Config.allocOk : Nat → Bool

/-- `flash_ok` of R170, R172 (I3). -/
opaque Config.flashOk : Nat → Bool

/-- The value of one read of RX_RATE or TX_RATE (R43, I5). -/
opaque Config.rate : Nat → Word

/-- TICK after a reset (R52, U1). -/
opaque Config.tickAtReset : Nat → Word

/-- Byte `k` (second argument) of a page after an erase or after a failed commit (R168, R172, I3, I14). -/
opaque Config.erasedByte : Nat → Nat → Byte

/-- The content of a byte of BUF whose written bit is 0 (R52). No rule reads it in a reachable state. -/
opaque Config.bufUnwritten : Nat → Byte

/-- Byte `a` of program memory at launch: the launch parameter of R63 (log entry 7). -/
opaque Config.launchByte : Nat → Byte

/-- CRC16 of R9, R73: the byte update of the configuration block's checksum (I13). -/
opaque Config.crc16 : Half → Byte → Half

/-- CRC16_INIT of R73. -/
opaque Config.crc16Init : Half

/-- The byte order of the multi-byte fields of the configuration block: true if the lower byte comes first (N9, D39, I13). -/
opaque Config.configLowByteFirst : Bool

/-- Byte `k` of the configuration block's compiled-in defaults, whose values the source does not give (N6, log entry 18). -/
opaque Config.configDefault : Nat → Byte

end Sys2Proof
end

