-- ==== Sys2Proof/Syntax.lean ====
section
/-! DEFINITION. The instructions: one constructor of `Instr` per row of spec/opcode_table.json (spec/30_encoding.md). Four encoded
things share the type: the host transaction (format H), the command word (format C), the pre-session byte and the frame opcode
(both format B); `Format` says which of the four an instruction is. -/

namespace Sys2Proof

/-- Where an instruction's bits come from (R80, R81, R82, R90, R91). -/
inductive Format where
  /-- Format H, 45 bits, a host transaction (R80). -/
  | host
  /-- Format C, the 32-bit DATA of a write to CMD (R81). -/
  | command
  /-- Format B, the byte PRESESSION samples (R90). -/
  | preSession
  /-- Format B, the first byte of a frame (R91). -/
  | frame
deriving DecidableEq, Repr

/-- The instructions, in the order of spec/opcode_table.json. -/
inductive Instr where
  /-- RD, a host read of register `reg` (R80, R94). -/
  | rd (reg : RegNum)
  /-- WR, a host write of `data` to register `reg` (R80, R94). -/
  | wr (reg : RegNum) (data : Word)
  /-- NOP, CODE 0x00 (R114). -/
  | nop
  /-- RESERVE, CODE 0x01 (R140). -/
  | reserve
  /-- RELEASE, CODE 0x02 (R142). -/
  | release
  /-- REARM, CODE 0x03 (R115). -/
  | rearm
  /-- RX_HEADER, CODE 0x04 (R116). -/
  | rxHeader
  /-- RX_PAYLOAD, CODE 0x05 (R117). -/
  | rxPayload
  /-- RX_CLOSE, CODE 0x06 (R121). -/
  | rxClose
  /-- TX_HEADER, CODE 0x07 (R118). -/
  | txHeader
  /-- TX_PAYLOAD, CODE 0x08 (R119). -/
  | txPayload
  /-- TX_CLOSE, CODE 0x09 (R120). -/
  | txClose
  /-- RX_UNIT, CODE 0x0A (R161). -/
  | rxUnit
  /-- TX_UNIT, CODE 0x0B (R164). -/
  | txUnit
  /-- PRESESSION, CODE 0x0C (R174). -/
  | presession
  /-- FLASH_PAGE, CODE 0x0D (R169). -/
  | flashPage
  /-- DISPATCH, CODE 0x0E (R190). -/
  | dispatch
  /-- RESET, CODE 0x0F (R198). -/
  | reset
  /-- ILLEGAL, a reserved CODE 0x10..0xFF (R85). -/
  | illegal (code : Byte)
  /-- PRE_SENTINEL, the pre-session byte 0xFF (R90). -/
  | preSentinel
  /-- PRE_BOOT_REQ, the pre-session byte BOOT_REQ (R90). -/
  | preBootReq
  /-- PRE_OTHER, any other pre-session byte (R90). -/
  | preOther (b : Byte)
  /-- REBOOT, the frame opcode OP_REBOOT (R192). -/
  | reboot
  /-- GETLOG, the frame opcode OP_GETLOG (R193). -/
  | getlog
  /-- GETCONFIG, the frame opcode OP_GETCONFIG (R193). -/
  | getconfig
  /-- SETCONFIG, the frame opcode OP_SETCONFIG (R193). -/
  | setconfig
  /-- STORAGE_INFO, the frame opcode OP_STORAGE_INFO (R193). -/
  | storageInfo
  /-- STORAGE_READ, the frame opcode OP_STORAGE_READ (R193). -/
  | storageRead
  /-- STORAGE_WRITE, the frame opcode OP_STORAGE_WRITE (R193). -/
  | storageWrite
  /-- PACKET, the frame opcode OP_PACKET where it is configured (R196). -/
  | packet
  /-- OP_SENTINEL, the frame opcode byte 0xFF (R195). -/
  | opSentinel
  /-- OP_UNKNOWN, a frame opcode byte that matches no other row (R194). -/
  | opUnknown (b : Byte)
deriving DecidableEq, Repr

/-- The format of an instruction's encoding. -/
def Instr.format : Instr → Format
  | .rd _ | .wr _ _ => .host
  | .nop | .reserve | .release | .rearm | .rxHeader | .rxPayload | .rxClose | .txHeader | .txPayload | .txClose
  | .rxUnit | .txUnit | .presession | .flashPage | .dispatch | .reset | .illegal _ => .command
  | .preSentinel | .preBootReq | .preOther _ => .preSession
  | .reboot | .getlog | .getconfig | .setconfig | .storageInfo | .storageRead | .storageWrite | .packet
  | .opSentinel | .opUnknown _ => .frame

/-- The rows of the pre-session table (R90). -/
inductive PreByte where
  | sentinel
  | bootReq
  | other
deriving DecidableEq, Repr

/-- The rows of the frame opcode table (R91). -/
inductive FrameOp where
  | reboot
  | getlog
  | getconfig
  | setconfig
  | storageInfo
  | storageRead
  | storageWrite
  | packet
  | sentinel
  | unknown
deriving DecidableEq, Repr

end Sys2Proof
end

