-- ==== Sys2Proof/WellFormed.lean ====
section
/-! DEFINITION. The instructions that have an encoding, for given parameters (spec/30_encoding.md R85, R90, R91). -/

namespace Sys2Proof

/-- `i` has an encoding: an illegal command carries a reserved code (R85), a catch-all byte row carries a byte no other row takes
(R90, R91), and PACKET exists only where OP_PACKET is configured (R91, R196). Every other constructor is well-formed with every
operand. -/
def Instr.wf (p : Params) : Instr → Bool
  | .illegal code => decide (0x10 ≤ code.toNat)
  | .preOther b => b != sentinel && b != p.bootReq
  | .opUnknown b => b != sentinel && !p.opcodes.contains b
  | .packet => p.opPacket.isSome
  | .rd _ | .wr _ _ | .nop | .reserve | .release | .rearm | .rxHeader | .rxPayload | .rxClose | .txHeader | .txPayload
  | .txClose | .rxUnit | .txUnit | .presession | .flashPage | .dispatch | .reset | .preSentinel | .preBootReq
  | .reboot | .getlog | .getconfig | .setconfig | .storageInfo | .storageRead | .storageWrite | .opSentinel => true

end Sys2Proof
end

