-- ==== Sys2Proof/Decode.lean ====
section
/-! DEFINITION. The decoder and the encoder (spec/30_encoding.md R80 to R92). Each encoded thing has a decoder on its own width;
`decode` reads the bytes of any of them, least significant byte first. The order of the bytes of a host transaction and of a command
word is DESIGN CHOICE (log entry 8): neither crosses a byte-wide bus in the spec. -/

namespace Sys2Proof

/-- The low byte of a number first, `n` bytes. -/
def bytesOfNat : Nat → Nat → List Byte
  | 0, _ => []
  | n + 1, v => BitVec.ofNat 8 v :: bytesOfNat n (v / 256)

/-- The number whose bytes are given, low byte first. -/
def natOfBytes : List Byte → Nat
  | [] => 0
  | b :: bs => b.toNat + 256 * natOfBytes bs

/-- The bytes an encoding of a format takes: 45 bits in six bytes, a 32-bit command word, one bus byte. -/
def Format.bytes : Format → Nat
  | .host => 6
  | .command => 4
  | .preSession => 1
  | .frame => 1

/-- Format H (R80): W is bit 44, REG bits 43:32, DATA bits 31:0; the DATA of a read is ignored. -/
def decodeHost (w : HostWord) : Instr :=
  if w.getLsbD 44 then .wr (w.extractLsb' 32 12) (w.extractLsb' 0 32) else .rd (w.extractLsb' 32 12)

/-- The command codes (R84, R85). -/
def decodeCode (code : Byte) : Instr :=
  match code.toNat with
  | 0x00 => .nop
  | 0x01 => .reserve
  | 0x02 => .release
  | 0x03 => .rearm
  | 0x04 => .rxHeader
  | 0x05 => .rxPayload
  | 0x06 => .rxClose
  | 0x07 => .txHeader
  | 0x08 => .txPayload
  | 0x09 => .txClose
  | 0x0A => .rxUnit
  | 0x0B => .txUnit
  | 0x0C => .presession
  | 0x0D => .flashPage
  | 0x0E => .dispatch
  | 0x0F => .reset
  | _ => .illegal code

/-- CODE of a command word (R81): bits 7:0; bits 31:8 are ignored. -/
def commandCode (w : Word) : Byte := w.setWidth 8

/-- Format C (R81, R86). -/
def decodeCommand (w : Word) : Instr := decodeCode (commandCode w)

/-- The pre-session table, tested in the order of R90. -/
def classifyPre (p : Params) (b : Byte) : PreByte :=
  if b = sentinel then .sentinel else if b = p.bootReq then .bootReq else .other

/-- The instruction of a row of the pre-session table. -/
def PreByte.toInstr (b : Byte) : PreByte → Instr
  | .sentinel => .preSentinel
  | .bootReq => .preBootReq
  | .other => .preOther b

/-- The instruction a pre-session byte stands for (R90). -/
def decodePre (p : Params) (b : Byte) : Instr := (classifyPre p b).toInstr b

/-- The frame opcode table (R91), in the order of R190. -/
def classifyOpcode (p : Params) (b : Byte) : FrameOp :=
  if b = p.opReboot then .reboot
  else if b = p.opGetlog then .getlog
  else if b = p.opGetconfig then .getconfig
  else if b = p.opSetconfig then .setconfig
  else if b = p.opStorageInfo then .storageInfo
  else if b = p.opStorageRead then .storageRead
  else if b = p.opStorageWrite then .storageWrite
  else if p.opPacket = some b then .packet
  else if b = sentinel then .sentinel
  else .unknown

/-- The instruction of a row of the frame opcode table. -/
def FrameOp.toInstr (b : Byte) : FrameOp → Instr
  | .reboot => .reboot
  | .getlog => .getlog
  | .getconfig => .getconfig
  | .setconfig => .setconfig
  | .storageInfo => .storageInfo
  | .storageRead => .storageRead
  | .storageWrite => .storageWrite
  | .packet => .packet
  | .sentinel => .opSentinel
  | .unknown => .opUnknown b

/-- The instruction a frame's first byte stands for (R91). -/
def decodeOpcode (p : Params) (b : Byte) : Instr := (classifyOpcode p b).toInstr b

/-- Why bytes are no instruction of a format. -/
inductive DecodeError where
  /-- Fewer bytes than the format takes. -/
  | truncated (fmt : Format)
  /-- A bit above bit 44 of a host transaction is set (R80: 45 bits). -/
  | hostWordTooWide
deriving DecidableEq, Repr

/-- The instruction of format `fmt` whose encoding is the number `w`. -/
def decodeNumber (p : Params) (fmt : Format) (w : Nat) : Except DecodeError Instr :=
  match fmt with
  | .host => if w < 2 ^ 45 then .ok (decodeHost (BitVec.ofNat 45 w)) else .error .hostWordTooWide
  | .command => .ok (decodeCommand (BitVec.ofNat 32 w))
  | .preSession => .ok (decodePre p (BitVec.ofNat 8 w))
  | .frame => .ok (decodeOpcode p (BitVec.ofNat 8 w))

/-- Decoding the bytes of an instruction of format `fmt`: the instruction and the bytes after it, or why there is none. -/
def decode (p : Params) (fmt : Format) (bs : List Byte) : Except DecodeError (Instr × List Byte) :=
  if bs.length < fmt.bytes then .error (.truncated fmt)
  else
    match decodeNumber p fmt (natOfBytes (bs.take fmt.bytes)) with
    | .ok i => .ok (i, bs.drop fmt.bytes)
    | .error e => .error e

/-- The number an instruction is encoded as (R80, R84, R90, R91). The reserved bits of a command word and the DATA of a read are
encoded as 0 (R80, R81). -/
def encodeNumber (p : Params) : Instr → Nat
  | .rd reg => reg.toNat * 2 ^ 32
  | .wr reg data => 2 ^ 44 + reg.toNat * 2 ^ 32 + data.toNat
  | .nop => 0x00
  | .reserve => 0x01
  | .release => 0x02
  | .rearm => 0x03
  | .rxHeader => 0x04
  | .rxPayload => 0x05
  | .rxClose => 0x06
  | .txHeader => 0x07
  | .txPayload => 0x08
  | .txClose => 0x09
  | .rxUnit => 0x0A
  | .txUnit => 0x0B
  | .presession => 0x0C
  | .flashPage => 0x0D
  | .dispatch => 0x0E
  | .reset => 0x0F
  | .illegal code => code.toNat
  | .preSentinel => sentinel.toNat
  | .preBootReq => p.bootReq.toNat
  | .preOther b => b.toNat
  | .reboot => p.opReboot.toNat
  | .getlog => p.opGetlog.toNat
  | .getconfig => p.opGetconfig.toNat
  | .setconfig => p.opSetconfig.toNat
  | .storageInfo => p.opStorageInfo.toNat
  | .storageRead => p.opStorageRead.toNat
  | .storageWrite => p.opStorageWrite.toNat
  | .packet => (p.opPacket.getD sentinel).toNat
  | .opSentinel => sentinel.toNat
  | .opUnknown b => b.toNat

/-- The bytes of an instruction, in its own format. -/
def encode (p : Params) (i : Instr) : List Byte := bytesOfNat i.format.bytes (encodeNumber p i)

/-- The format a bare table word is read in: more than 32 bits is a host transaction; the byte 0xFF is the pre-session sentinel;
everything else is a command word. The table gives three rows the same eight bits 0xFF (ILLEGAL, PRE_SENTINEL, OP_SENTINEL), which
only their place on the bus tells apart: DESIGN CHOICE, log entry 8. -/
def tableFormat (nbits w : Nat) : Format :=
  if 32 < nbits then .host else if nbits ≤ 8 ∧ w = 0xFF then .preSession else .command

/-- What the decoder reads from a word of the opcode table, with the reference parameters. -/
def decodeTableWord (nbits w : Nat) : Option Instr :=
  match decode Params.reference (tableFormat nbits w) (bytesOfNat (tableFormat nbits w).bytes w) with
  | .ok (i, _) => some i
  | .error _ => none

end Sys2Proof
end

