-- ==== Sys2Proof/Machine/State.lean ====
section
/-! DEFINITION. The state of the block, its Peer's levels and its inputs (spec/10_state.md), as plain data; the faults and refusals;
the state after reset (R52). -/

namespace Sys2Proof.Machine

open Sys2Proof

/-- CTRL.ROLE (R30, R31). -/
inductive Role where
  | responder
  | initiator
deriving DecidableEq, Repr

/-- CTRL.MODE (R30). -/
inductive Mode where
  | bridge
  | flash
deriving DecidableEq, Repr

/-- STATE, the Engine's sequencer state (R48); the reserved values 11 to 14 are never reached and have no constructor. -/
inductive SeqState where
  | idle
  | hdrWait
  | hdrAck
  | payWait
  | payAck
  | closeWait
  | aborted
  | preWait
  | commit
  | pulse
  | dispatch
  | fatal
deriving DecidableEq, Repr

/-- How far the active command is, where STATE alone does not say it (the step splits of R118, R119, R164, and the first step of
R88): the MODEL's own name for what the spec's step numbering implies (log entry 4). -/
inductive Phase where
  /-- The command's first step has not been taken. -/
  | start
  /-- The next step drives VALID and enters the acknowledgment wait. -/
  | drive
  /-- The command is in the wait, commit or pulse that STATE names. -/
  | run
deriving DecidableEq, Repr

/-- The result codes (R210); the reserved codes are never written and have no constructor. -/
inductive ResultCode where
  | ok
  | noSession
  | sentinelAbort
  | unsupported
  | pageReadFail
  | handshakeTimeout
  | flashFail
  | reserveConflict
  | reserveNoRes
  | notOwner
  | badId
  | illegalCmd
  | roleMismatch
  | modeMismatch
  | lenRange
  | noUnit
  | notArmed
  | pageProtected
  | notImplemented
deriving DecidableEq, Repr

/-- DISP_OUT.OUTCOME (R41). -/
inductive DispOutcome where
  | noOutcome
  | notImplemented
  | packet
deriving DecidableEq, Repr

/-- DISP_OUT (R41). -/
structure DispOut where
  outcome : DispOutcome
  handler : BitVec 4
  opcode : Byte
  count : Byte
deriving DecidableEq, Repr

/-- CTRL (R30), without its reserved bits. -/
structure Ctrl where
  role : Role
  mode : Mode
  useLatch : Bool
  ie : Bool
  selectOut : Bool
deriving DecidableEq, Repr

/-- The levels of the bus lines (R22): of the block's outputs, of the Peer's outputs, or on the wire. -/
structure Levels where
  data : Byte
  valid : Bool
  ack : Bool
  select : Bool
  ready : Bool
  busy : Bool
deriving DecidableEq, Repr

/-- The one-bit lines (R22). -/
inductive Line where
  | valid
  | ack
  | select
  | ready
  | busy
deriving DecidableEq, Repr

/-- The events of the ordered history (R51, R124). -/
inductive Event where
  /-- RESTART, of the REBOOT handler (R192). -/
  | restart
  /-- PACKET, of the frame router (R196). -/
  | packet (bytes : List Byte)
  /-- BLINK, of a failure on the flash path (R221). -/
  | blink (code : ResultCode)
  /-- A change of the IRQ output (R51, R217). -/
  | irq (level : Bool)
  /-- A change of the byte on DATA. -/
  | data (value : Byte)
  /-- A change of a one-bit line (R124). -/
  | line (l : Line) (level : Bool)
deriving DecidableEq, Repr

/-- A step of the Peer (R21): the output levels it sets; `none` leaves one as it is. -/
structure PeerMove where
  data : Option Byte := none
  valid : Option Bool := none
  ack : Option Bool := none
  select : Option Bool := none
  ready : Option Bool := none
  busy : Option Bool := none
deriving DecidableEq, Repr

/-- Which agent takes the next step, with what the outside world puts in (R20, R21, R94, R219, R241). -/
inductive Turn where
  /-- The Engine. -/
  | engine
  /-- The EdgeCapture agent (R143). -/
  | edgeCapture
  /-- The Tick agent (R219). -/
  | tick
  /-- The Peer (R21). -/
  | peer (move : PeerMove)
  /-- The Host, with one format-H transaction (R80). -/
  | host (word : HostWord)
  /-- Power-up, a source of block reset (R241). -/
  | powerUp
deriving DecidableEq, Repr

/-- The machine. -/
structure State where
  /-- The implementation parameters (R9); no step changes them. -/
  params : Params
  /-- OUT_DATA, OUT_VALID, OUT_ACK, OUT_SELECT, OUT_READY, OUT_BUSY (R23). -/
  out : Levels
  /-- PEER_DATA, PEER_VALID, ... (R23). -/
  peer : Levels
  /-- DIR (R24): true drives DATA. -/
  dir : Bool
  /-- STATE (R48). -/
  seq : SeqState
  /-- CUR, the code of the active command (R49). -/
  cur : Byte
  /-- The step split of the active command (MODEL's own, log entry 4). -/
  phase : Phase
  /-- IDX (R49). -/
  idx : Count
  /-- The local variable n of the running unit command (R161, R164; log entry 4). -/
  unitN : Count
  /-- POL (R49). -/
  pol : Bool
  /-- WAITCNT (R49). -/
  waitCnt : Nat
  /-- STABLECNT (R49). -/
  stableCnt : Nat
  /-- PULSECNT (R49). -/
  pulseCnt : Nat
  /-- STATUS.ACTIVE (R28). -/
  active : Bool
  /-- STATUS.DONE (R28). -/
  done : Bool
  /-- STATUS.OVERRUN (R28). -/
  overrun : Bool
  /-- STATUS.UNIT_VALID (R28). -/
  unitValid : Bool
  /-- RESULT (R29). -/
  result : ResultCode
  /-- CTRL (R30). -/
  ctrl : Ctrl
  /-- TXDATA (R32). -/
  txdata : Byte
  /-- RXDATA (R33). -/
  rxdata : Byte
  /-- LEN (R34). -/
  len : Half
  /-- LATCH (R36, R50). -/
  latch : Bool
  /-- EDGE_PEND (R50). -/
  edgePend : Bool
  /-- MON (R50). -/
  mon : Bool
  /-- OWNER (R37). -/
  owner : Byte
  /-- OWNER_REQ (R38). -/
  ownerReq : Byte
  /-- CONFLICT (R39). -/
  conflict : Byte
  /-- PAGE_IDX (R40). -/
  pageIdx : Byte
  /-- DISP_OUT (R41). -/
  dispOut : DispOut
  /-- RX_BYTES (R42). -/
  rxBytes : Word
  /-- TX_BYTES (R42). -/
  txBytes : Word
  /-- RX_ERR (R42). -/
  rxErr : Word
  /-- TX_ERR (R42). -/
  txErr : Word
  /-- TICK (R44). -/
  tick : Word
  /-- UNIT_LEN (R45). -/
  unitLen : Count
  /-- BUF and BUFDEF (R47): the bytes whose written bit is 1, by index. -/
  buf : List Host.Cell
  /-- The IRQ output (R217). -/
  irq : Bool
  /-- PROGMEM (R63): the bytes that differ from the launch image, by address. -/
  progMem : List Host.Cell
  /-- The ordered event history (R51), oldest first. -/
  history : List Event
  /-- What the last host read returned (R80; MODEL's own, log entry 5). -/
  rdata : Word
  /-- How many draws have been taken (MODEL's own, log entry 2). -/
  draws : Nat
  /-- The steps the schedule and the outside world have in store, next first (MODEL's own, log entry 6). -/
  turns : List Turn
deriving DecidableEq, Repr

/-- Model faults (R214). -/
inductive Fault where
  /-- A host read or write of BUF while a command is active (R47, R214). Raised by RD and WR. Safe: no run goes on from it. -/
  | bufOwned
  /-- A read of a BUF byte whose BUFDEF is 0, by the host (R47) or by TX_UNIT (R88 check 5). Raised by RD and TX_UNIT. Safe: no run
  goes on from it. -/
  | undefRead
deriving DecidableEq, Repr

/-- Why an instruction has no meaning here. -/
inductive Refusal where
  /-- The instruction is not modelled; raised by `exec` alone, and by no arm of it now. Safe: no run goes on from it. -/
  | notModelled (mnemonic : String)
deriving DecidableEq, Repr

/-- The outcome of a step of this machine. -/
abbrev Out := Host.Outcome State Fault Refusal

/-- All lines low (the Peer's launch levels of spec/95_test_vectors.md section 0). -/
def Levels.low : Levels where
  data := 0
  valid := false
  ack := false
  select := false
  ready := false
  busy := false

/-- CTRL after reset (R52). -/
def Ctrl.reset : Ctrl where
  role := .responder
  mode := .bridge
  useLatch := false
  ie := false
  selectOut := false

/-- DISP_OUT after reset (R52). -/
def DispOut.reset : DispOut where
  outcome := .noOutcome
  handler := 0
  opcode := 0
  count := 0

/-- The state after reset: the table of R52. TICK is a draw there and is one here. OWNER_REQ has no reset value in the table: 0,
DESIGN CHOICE (log entry 3). The launch parts (parameters, Peer levels, program memory) and the model's own fields are DESIGN CHOICE
(log entries 1, 4, 5, 6, 7); program memory holds the launch image, whatever it is. -/
def State.reset : State where
  params := Params.reference
  out := { Levels.low with ack := true }
  peer := Levels.low
  dir := false
  seq := .idle
  cur := 0
  phase := .start
  idx := 0
  unitN := 0
  pol := true
  waitCnt := 0
  stableCnt := 0
  pulseCnt := 0
  active := false
  done := false
  overrun := false
  unitValid := false
  result := .ok
  ctrl := Ctrl.reset
  txdata := 0
  rxdata := 0
  len := 0
  latch := false
  edgePend := false
  mon := true
  owner := 0
  ownerReq := 0
  conflict := 0
  pageIdx := 0
  dispOut := DispOut.reset
  rxBytes := 0
  txBytes := 0
  rxErr := 0
  txErr := 0
  tick := Config.tickAtReset 0
  unitLen := 0
  buf := []
  irq := false
  progMem := []
  history := []
  rdata := 0
  draws := 1
  turns := []

end Sys2Proof.Machine
end

