-- ==== Sys2Proof/Machine/Ops.lean ====
section
/-! DEFINITION. The operations every meaning is written over: the cell lists that hold BUF and PROGMEM, the wire, the end of a
command (spec/60_exceptions.md R212), the bounded wait (spec/40_transport.md R111, R112), block reset (spec/70_reset_and_hazards.md
R240), and the steps of the agents that execute no instruction (R143, R144, R219, R21). -/

namespace Sys2Proof.Machine

open Sys2Proof

/-! ### Cell lists -/

/-- What an index reads as that the cells of BUF do not list: nothing, BUFDEF is 0 (R47, log entry 14). -/
def Cells.unlisted : Option Byte := none

/-- The byte at an address. -/
def Cells.find (a : Nat) : List Host.Cell → Option Byte
  | [] => Cells.unlisted
  | (k, b) :: m => if a = k then some b else Cells.find a m

/-- Write one byte, in address order. -/
def Cells.put (a : Nat) (v : Byte) : List Host.Cell → List Host.Cell
  | [] => [(a, v)]
  | (k, b) :: m =>
    if a < k then (a, v) :: (k, b) :: m
    else if a = k then (a, v) :: m
    else (k, b) :: Cells.put a v m

/-- Forget the bytes at addresses below `n`. -/
def Cells.dropBelow (n : Nat) : List Host.Cell → List Host.Cell
  | [] => []
  | (k, b) :: m => if k < n then Cells.dropBelow n m else (k, b) :: Cells.dropBelow n m

/-- Take one address out of the list. -/
def Cells.remove (a : Nat) : List Host.Cell → List Host.Cell
  | [] => []
  | (k, b) :: m => if k = a then Cells.remove a m else (k, b) :: Cells.remove a m

/-- The canonical form: addresses strictly rising. -/
def Cells.wf : List Host.Cell → Bool
  | [] => true
  | (k, _) :: m => m.all (fun c => decide (k < c.1)) && Cells.wf m

/-! ### Program memory (R63): an array of bytes, the launch image where the cells list nothing -/

/-- What an address reads as that the cells of PROGMEM do not list: its byte of the launch image (R63, log entry 7). -/
def Prog.unlisted (a : Nat) : Byte := Config.launchByte a

/-- The byte at an address. -/
def Prog.find (a : Nat) (m : List Host.Cell) : Byte := (Cells.find a m).getD (Prog.unlisted a)

/-- Write one byte; the launch byte itself is listed nowhere. -/
def Prog.put (a : Nat) (v : Byte) (m : List Host.Cell) : List Host.Cell :=
  if v = Prog.unlisted a then Cells.remove a m else Cells.put a v m

/-- Write consecutive bytes from address `a` up. (Irreducible, so that no proof unfolds a page byte by byte.) -/
@[irreducible] def Prog.putRun (a : Nat) : List Byte → List Host.Cell → List Host.Cell
  | [], m => m
  | b :: bs, m => Prog.putRun (a + 1) bs (Prog.put a b m)

/-- `MemRead(addr, 1)` (R12, R63): `PROGMEM[addr]`; an address above 0x7FFF is outside the block's reach. -/
def progRead (s : State) (a : Nat) : Option Byte :=
  if a < progMemSize then some (Prog.find a s.progMem) else none

/-- The canonical form of PROGMEM: addresses strictly rising, all below 32768 (R63), and no entry equal to what its address reads as
unlisted. -/
def Prog.wf (m : List Host.Cell) : Bool :=
  Cells.wf m && m.all (fun c => decide (c.1 < progMemSize) && c.2 != Prog.unlisted c.1)

/-- The canonical form of both memories. (An index that BUF does not list reads as nothing, so no entry there can equal it.) -/
def Memory.wf (s : State) : Bool := Cells.wf s.buf && Prog.wf s.progMem

/-! ### The wire (R22, R23) -/

/-- LINE(X) for every line: the output of its current driver. -/
def wire (s : State) : Levels where
  data := if s.dir then s.out.data else s.peer.data
  valid := match s.ctrl.role with | .initiator => s.out.valid | .responder => s.peer.valid
  ack := match s.ctrl.role with | .initiator => s.peer.ack | .responder => s.out.ack
  select := match s.ctrl.role with | .initiator => s.out.select | .responder => s.peer.select
  ready := match s.ctrl.role with | .initiator => s.peer.ready | .responder => s.out.ready
  busy := match s.ctrl.role with | .initiator => s.peer.busy | .responder => s.out.busy

/-- The event of a one-bit line, if its level changed. -/
def lineEvent (l : Line) (before after : Bool) : List Event :=
  if before = after then [] else [.line l after]

/-- The events of the line changes of one step (R124), DATA first (log entry 5). -/
def lineEvents (before after : Levels) : List Event :=
  (if before.data = after.data then [] else [.data after.data])
    ++ lineEvent .valid before.valid after.valid
    ++ lineEvent .ack before.ack after.ack
    ++ lineEvent .select before.select after.select
    ++ lineEvent .ready before.ready after.ready
    ++ lineEvent .busy before.busy after.busy

/-- Record an event (R12 `emit`, R51). -/
def emit (e : Event) (s : State) : State := { s with history := s.history ++ [e] }

/-! ### Line drives (R12 `drive`) -/

/-- `drive(VALID, v)`. -/
def driveValid (v : Bool) (s : State) : State := { s with out := { s.out with valid := v } }

/-- `drive(ACK, v)`. -/
def driveAck (v : Bool) (s : State) : State := { s with out := { s.out with ack := v } }

/-- `drive(DATA, b)`. -/
def driveData (b : Byte) (s : State) : State := { s with out := { s.out with data := b } }

/-- `drive(READY, v)`. -/
def driveReady (v : Bool) (s : State) : State := { s with out := { s.out with ready := v } }

/-- `drive(BUSY, v)`. -/
def driveBusy (v : Bool) (s : State) : State := { s with out := { s.out with busy := v } }

/-! ### The end of a command (R212) -/

/-- STATE after a command that ends with a code (R212, R213). -/
def ResultCode.endState : ResultCode → SeqState
  | .ok | .notImplemented => .idle
  | .flashFail => .fatal
  | .noSession | .sentinelAbort | .unsupported | .pageReadFail | .handshakeTimeout | .reserveConflict | .reserveNoRes
  | .notOwner | .badId | .illegalCmd | .roleMismatch | .modeMismatch | .lenRange | .noUnit | .notArmed | .pageProtected => .aborted

/-- `raise code()`: the command-end bookkeeping of R212, the block's one exception primitive. -/
def raise (code : ResultCode) (s : State) : State :=
  { s with
    result := code
    active := false
    done := true
    cur := 0
    waitCnt := 0
    seq := code.endState
    phase := .start
    irq := s.irq || s.ctrl.ie }

/-- A failure on the flash path: BLINK and then the end of the command, in one step (R221). -/
def raiseBlink (code : ResultCode) (s : State) : State := raise code (emit (.blink code) s)

/-! ### The first step of a command (R88) -/

/-- Checks 2 and 3 of R88, in that order, and then the command's own first step. `none` is the table's "any" (R84). -/
def firstStep (role : Option Role) (mode : Option Mode) (body : State → State) (s : State) : State :=
  if role = none ∨ role = some s.ctrl.role then
    if mode = none ∨ mode = some s.ctrl.mode then body s else raise .modeMismatch s
  else raise .roleMismatch s

/-! ### The bounded wait (R111, R112) -/

/-- The entering step of `await C in S`. -/
def enterWait (st : SeqState) (s : State) : State := { s with seq := st, waitCnt := 0, phase := .run }

/-- One sample: leave the wait where the condition holds, else count the sample, and time out on the WAIT_BUDGET-th. -/
def sample (cond : Bool) (leave timeout : State → State) (s : State) : State :=
  if cond then leave s
  else if s.waitCnt + 1 = s.params.waitBudget then timeout { s with waitCnt := s.waitCnt + 1 }
  else { s with waitCnt := s.waitCnt + 1 }

/-- The acknowledgment condition of an Initiator: `LINE(ACK) != OUT_VALID` (R118, R119, R164). -/
def ackSeen (s : State) : Bool := (wire s).ack != s.out.valid

/-- Whether R112 makes an acknowledgment wait a latch-mode wait. -/
def latchMode (s : State) : Bool := s.ctrl.useLatch && s.owner != 0

/-- One sample of an Initiator's acknowledgment wait: polling (R111) or latch mode (R112). -/
def ackSample (leave timeout : State → State) (s : State) : State :=
  if latchMode s then
    if s.latch then sample (ackSeen s) leave timeout { s with latch := false }
    else sample false leave timeout s
  else sample (ackSeen s) leave timeout s

/-! ### Block reset (R240) -/

/-- Every element of R52 at its reset value; program memory, the Peer's levels, the parameters, the history, the host's last read
data and the inputs in store stay. TICK is drawn. -/
def blockReset (s : State) : State :=
  { State.reset with
    params := s.params
    peer := s.peer
    progMem := s.progMem
    history := s.history
    rdata := s.rdata
    turns := s.turns
    tick := Config.tickAtReset s.draws
    draws := s.draws + 1 }

/-! ### The agents that execute no instruction -/

/-- The EdgeCapture step (R143); without EDGE_PEND the agent has no step. -/
def edgeCaptureStep (s : State) : State :=
  if s.edgePend then { s with latch := true, edgePend := false } else s

/-- The Tick step (R219). -/
def tickStep (s : State) : State := { s with tick := s.tick + 1 }

/-- A step of the Peer (R21): it sets its output levels, which are seen on the wire for the lines it drives (R23). -/
def peerStep (m : PeerMove) (s : State) : State :=
  { s with
    peer :=
      { data := m.data.getD s.peer.data
        valid := m.valid.getD s.peer.valid
        ack := m.ack.getD s.peer.ack
        select := m.select.getD s.peer.select
        ready := m.ready.getD s.peer.ready
        busy := m.busy.getD s.peer.busy } }

/-! ### The end of every step -/

/-- Edge detection, at the end of every step of every agent (R144). -/
def detectEdge (s : State) : State :=
  if (wire s).ack = s.mon then s
  else
    { s with
      mon := (wire s).ack
      edgePend := s.edgePend || (s.owner != 0 && decide (s.ctrl.role = .initiator)) }

/-- Record the line changes and the IRQ change between two states (R51, R124). -/
def recordChanges (before after : State) : State :=
  { after with
    history :=
      after.history ++ lineEvents (wire before) (wire after)
        ++ (if before.irq = after.irq then [] else [.irq after.irq]) }

/-- What ends every step: edge detection and the record of the changes. -/
def endStep (before after : State) : State := recordChanges before (detectEdge after)

/-! ### Whose turn it is -/

/-- The agent of the next step: the first turn in store; with none in store, EdgeCapture when it has a step (its weak fairness,
R143) and otherwise the Engine (log entry 6). -/
def nextTurn (s : State) : Turn :=
  match s.turns with
  | t :: _ => t
  | [] => if s.edgePend then .edgeCapture else .engine

/-- The state once the turn is taken out of store. -/
def takeTurn (s : State) : State := { s with turns := s.turns.tail }

end Sys2Proof.Machine
end

