-- ==== Sys2Proof/Machine/Operands.lean ====
section
/-! DEFINITION. The operand forms (spec/30_encoding.md R83, spec/10_state.md R26, R47, spec/20_memory.md R63, R65): the host register
numbers, the bytes of the unit buffer, the payload count, the page address and the page words. -/

namespace Sys2Proof.Machine

open Sys2Proof

/-- The host registers (R27 to R47). -/
inductive HostReg where
  | cmd
  | status
  | result
  | ctrl
  | txdata
  | rxdata
  | len
  | lines
  | latch
  | owner
  | ownerReq
  | conflict
  | pageIdx
  | dispOut
  | rxBytes
  | txBytes
  | rxErr
  | txErr
  | rxRate
  | txRate
  | tick
  | unitLen
  | buf (i : Nat)
  | reserved
deriving DecidableEq, Repr

/-- The registers below the BUF window (R26 to R46). -/
def plainReg (n : Nat) : HostReg :=
  match n with
  | 0x000 => .cmd
  | 0x001 => .status
  | 0x002 => .result
  | 0x003 => .ctrl
  | 0x004 => .txdata
  | 0x005 => .rxdata
  | 0x006 => .len
  | 0x007 => .lines
  | 0x008 => .latch
  | 0x009 => .owner
  | 0x00A => .ownerReq
  | 0x00B => .conflict
  | 0x00C => .pageIdx
  | 0x00D => .dispOut
  | 0x00E => .rxBytes
  | 0x00F => .txBytes
  | 0x010 => .rxErr
  | 0x011 => .txErr
  | 0x012 => .rxRate
  | 0x013 => .txRate
  | 0x014 => .tick
  | 0x015 => .unitLen
  | _ => .reserved

/-- The register a number names (R26, R46, R47). -/
def hostReg (p : Params) (r : RegNum) : HostReg :=
  if r.toNat < 0x100 then plainReg r.toNat
  else if r.toNat < 0x100 + p.bufSize then .buf (r.toNat - 0x100) else .reserved

/-- BUFDEF[i] (R47). -/
def bufDef (s : State) (i : Nat) : Bool := (Cells.find i s.buf).isSome

/-- BUF[i]; a byte whose written bit is 0 is unspecified (R52). -/
def bufByte (s : State) (i : Nat) : Byte := (Cells.find i s.buf).getD (Config.bufUnwritten i)

/-- The payload count n of a unit command: 128 in Flash mode, `zext_17(LEN)` in Bridge mode (R83, R160). -/
def unitCount (s : State) : Count :=
  match s.ctrl.mode with
  | .flash => 128
  | .bridge => s.len.setWidth 17

/-- Check 4 of R88 fails: a Bridge unit longer than the buffer. -/
def lenTooLong (s : State) : Bool :=
  match s.ctrl.mode with
  | .flash => false
  | .bridge => decide (s.params.bufSize < s.len.toNat + 1)

/-- Check 5 of R88 fails: some byte of the unit to send was never written. -/
def unitUndefined (s : State) : Bool := (List.range ((unitCount s).toNat + 1)).any (fun i => !bufDef s i)

/-- The byte address of a page, `index * 128` (R63, R83). -/
def pageAddr (page : Byte) : Nat := page.toNat * pagePayload

/-- The page's payload, `payload[k] = BUF[1+k]` for k = 0..127 (R170). -/
def pagePayloadBytes (s : State) : List Byte := (List.range pagePayload).map (fun k => bufByte s (1 + k))

/-- Bytes as little-endian 16-bit words: `w_j = payload[2j] | payload[2j+1] << 8` (R65). -/
def wordsOfBytes : List Byte → List Half
  | lo :: hi :: rest => (lo.setWidth 16 ||| hi.setWidth 16 <<< 8) :: wordsOfBytes rest
  | _ => []

/-- The bytes of words in program memory: the low byte at the lower address (R65, R168). -/
def bytesOfWords : List Half → List Byte
  | [] => []
  | w :: ws => w.setWidth 8 :: (w >>> 8).setWidth 8 :: bytesOfWords ws

end Sys2Proof.Machine
end

