-- ==== Sys2Proof/Machine/Dispatcher.lean ====
section
/-! DEFINITION. DISPATCH, its handlers and RESET (spec/43_dispatcher.md R190 to R199). -/

namespace Sys2Proof.Machine

open Sys2Proof

/-- REBOOT (R192): RESTART, then block reset; no byte of the frame after the opcode is read. -/
def execReboot (s : State) : Out := .next (blockReset (emit .restart s))

/-- DISP_OUT records an invocation (R193, R196): COUNT modulo 256. -/
def recordHandler (outcome : DispOutcome) (handler : BitVec 4) (opcode : Byte) (s : State) : State :=
  { s with
    dispOut := { outcome := outcome, handler := handler, opcode := opcode, count := s.dispOut.count + 1 } }

/-- `not_implemented(op)` (R193). -/
def placeholder (handler : BitVec 4) (opcode : Byte) (s : State) : State :=
  raise .notImplemented (recordHandler .notImplemented handler opcode s)

/-- GETLOG (R193), handler 1. -/
def execGetlog (s : State) : Out := .next (placeholder 1 s.params.opGetlog s)

/-- GETCONFIG (R193), handler 2. -/
def execGetconfig (s : State) : Out := .next (placeholder 2 s.params.opGetconfig s)

/-- SETCONFIG (R193), handler 3. -/
def execSetconfig (s : State) : Out := .next (placeholder 3 s.params.opSetconfig s)

/-- STORAGE_INFO (R193), handler 4. -/
def execStorageInfo (s : State) : Out := .next (placeholder 4 s.params.opStorageInfo s)

/-- STORAGE_READ (R193), handler 5. -/
def execStorageRead (s : State) : Out := .next (placeholder 5 s.params.opStorageRead s)

/-- STORAGE_WRITE (R193), handler 6. -/
def execStorageWrite (s : State) : Out := .next (placeholder 6 s.params.opStorageWrite s)

/-- The frame's payload, `BUF[1 .. UNIT_LEN-1]` (R196). -/
def framePayload (s : State) : List Byte := (List.range (s.unitLen.toNat - 1)).map (fun k => bufByte s (1 + k))

/-- PACKET (R196), handler 7. Without OP_PACKET configured there is no packet branch (R196) and no byte decodes to this row: the
instruction is then a silent no-op, as any unknown opcode (R194). -/
def execPacket (s : State) : Out :=
  .next (match s.params.opPacket with
    | some op => raise .ok (recordHandler .packet 7 op (emit (.packet (framePayload s)) s))
    | none => raise .ok s)

/-- OP_SENTINEL (R195): treated as an unknown opcode. -/
def execOpSentinel (s : State) : Out := .next (raise .ok s)

/-- OP_UNKNOWN (R194): no handler, only the end of the command; the byte has no other effect. -/
def execOpUnknown (_b : Byte) (s : State) : Out := .next (raise .ok s)

/-- The handler of the frame in BUF (R190, R191): the frame's first byte is decoded by R91. -/
def dispatchFrame (s : State) : Out :=
  match classifyOpcode s.params (bufByte s 0) with
  | .reboot => execReboot s
  | .getlog => execGetlog s
  | .getconfig => execGetconfig s
  | .setconfig => execSetconfig s
  | .storageInfo => execStorageInfo s
  | .storageRead => execStorageRead s
  | .storageWrite => execStorageWrite s
  | .packet => execPacket s
  | .sentinel => execOpSentinel s
  | .unknown => execOpUnknown (bufByte s 0) s

/-- DISPATCH (R190): checks 3 and 6 of R88, then one handler in the same step. -/
def execDispatch (s : State) : Out :=
  if s.ctrl.mode = .bridge then
    if s.unitValid then dispatchFrame { s with seq := .dispatch } else .next (raise .noUnit s)
  else .next (raise .modeMismatch s)

/-- RESET (R198): block reset, in every role, mode and state. -/
def execReset (s : State) : Out := .next (blockReset s)

end Sys2Proof.Machine
end

