-- ==== Sys2Proof/Machine/EdgeCapture.lean ====
section
/-! DEFINITION. RESERVE and RELEASE of the edge-capture source (spec/41_edge_capture.md R140 to R142). -/

namespace Sys2Proof.Machine

open Sys2Proof

/-- The source is reserved: the latch is cleared and the monitored level taken (R140). -/
def takeOwnership (s : State) : State :=
  raise .ok { s with owner := s.ownerReq, latch := false, edgePend := false, mon := (wire s).ack }

/-- RESERVE once its allocation has been drawn (R140). -/
def reserveWith (allocOk : Bool) (s : State) : State :=
  if allocOk then takeOwnership s else raise .reserveNoRes s

/-- RESERVE (R140); RESERVE_ALWAYS_ALLOCATES fixes the draw to true (R141). -/
def execReserve (s : State) : Out :=
  .next (if s.ownerReq = 0 then raise .badId s
    else if s.owner ≠ 0 then raise .reserveConflict { s with conflict := s.owner }
    else if s.params.reserveAlwaysAllocates then reserveWith true s
    else reserveWith (Config.allocOk s.draws) { s with draws := s.draws + 1 })

/-- RELEASE (R142). -/
def execRelease (s : State) : Out :=
  .next (if s.owner = 0 ∨ s.owner ≠ s.ownerReq then raise .notOwner s
    else raise .ok { s with owner := 0, latch := false, edgePend := false })

end Sys2Proof.Machine
end

