-- ==== Sys2Proof/Machine/Flags.lean ====
section
/-! DEFINITION. The register words that are assembled from fields (spec/10_state.md R28 to R48): STATUS, CTRL, LINES, DISP_OUT, and the
codes of STATE and RESULT. Reserved bits read 0 (R26). -/

namespace Sys2Proof.Machine

open Sys2Proof

/-- A flag at bit `i` of a register word. -/
def bitAt (i : Nat) (b : Bool) : Word := if b then (1 : Word) <<< i else 0

/-- A field whose lowest bit is bit `lo` of a register word. -/
def fieldAt (lo : Nat) {n : Nat} (v : BitVec n) : Word := (v.setWidth 32) <<< lo

/-- The encoding of STATE (R48). -/
def SeqState.code : SeqState → BitVec 4
  | .idle => 0
  | .hdrWait => 1
  | .hdrAck => 2
  | .payWait => 3
  | .payAck => 4
  | .closeWait => 5
  | .aborted => 6
  | .preWait => 7
  | .commit => 8
  | .pulse => 9
  | .dispatch => 10
  | .fatal => 15

/-- The result codes (R210). -/
def ResultCode.code : ResultCode → Byte
  | .ok => 0x00
  | .noSession => 0x01
  | .sentinelAbort => 0x02
  | .unsupported => 0x03
  | .pageReadFail => 0x04
  | .handshakeTimeout => 0x05
  | .flashFail => 0x06
  | .reserveConflict => 0x07
  | .reserveNoRes => 0x08
  | .notOwner => 0x09
  | .badId => 0x0A
  | .illegalCmd => 0x0B
  | .roleMismatch => 0x0C
  | .modeMismatch => 0x0D
  | .lenRange => 0x0E
  | .noUnit => 0x0F
  | .notArmed => 0x10
  | .pageProtected => 0x11
  | .notImplemented => 0x12

/-- DISP_OUT.OUTCOME (R41). -/
def DispOutcome.code : DispOutcome → BitVec 4
  | .noOutcome => 0
  | .notImplemented => 2
  | .packet => 3

/-- STATUS.FATAL (R28, R213): 1 in state FATAL. -/
def statusFatal (s : State) : Bool := decide (s.seq = .fatal)

/-- STATUS.OWNED (R28): 1 while OWNER is not 0. -/
def statusOwned (s : State) : Bool := s.owner != 0

/-- STATUS (R28). -/
def statusWord (s : State) : Word :=
  fieldAt 0 s.seq.code ||| bitAt 4 s.active ||| bitAt 5 s.done ||| bitAt 6 s.overrun ||| bitAt 7 (statusFatal s)
    ||| bitAt 8 s.unitValid ||| bitAt 9 (statusOwned s)

/-- CTRL as a host read returns it (R30). -/
def ctrlWord (c : Ctrl) : Word :=
  bitAt 0 (decide (c.role = .initiator)) ||| bitAt 1 (decide (c.mode = .flash)) ||| bitAt 2 c.useLatch ||| bitAt 3 c.ie
    ||| bitAt 4 c.selectOut

/-- CTRL as a host write gives it (R30); reserved bits are ignored. -/
def ctrlOfWord (d : Word) : Ctrl where
  role := if d.getLsbD 0 then .initiator else .responder
  mode := if d.getLsbD 1 then .flash else .bridge
  useLatch := d.getLsbD 2
  ie := d.getLsbD 3
  selectOut := d.getLsbD 4

/-- LINES (R35): the wire at the step of the read. -/
def linesWord (s : State) : Word :=
  bitAt 0 (wire s).valid ||| bitAt 1 (wire s).ack ||| bitAt 2 (wire s).select ||| bitAt 3 (wire s).ready
    ||| bitAt 4 (wire s).busy ||| bitAt 5 s.dir ||| fieldAt 8 (wire s).data

/-- DISP_OUT (R41). -/
def dispOutWord (d : DispOut) : Word :=
  fieldAt 0 d.outcome.code ||| fieldAt 4 d.handler ||| fieldAt 8 d.opcode ||| fieldAt 16 d.count

end Sys2Proof.Machine
end

