-- ==== Sys2Proof/Machine/HostAccess.lean ====
section
/-! DEFINITION. The host transactions RD and WR (spec/30_encoding.md R80, R87, R94; spec/10_state.md R26 to R47;
spec/20_memory.md R61, R62). -/

namespace Sys2Proof.Machine

open Sys2Proof

/-- The end of a read: the 32-bit value is returned to the host (R80). -/
def readReturns (v : Word) (s : State) : State := { s with rdata := v }

/-- A read of the latch: it is cleared in the same step (R36, R145). -/
def readLatch (s : State) : State := { readReturns (bitAt 0 s.latch) s with latch := false }

/-- A read of a rate register: an unconstrained value, fresh each time (R43). -/
def readRate (s : State) : State := { readReturns (Config.rate s.draws) s with draws := s.draws + 1 }

/-- A host read of `BUF[i]` (R47). -/
def readBuf (i : Nat) (s : State) : Out :=
  if s.active then .fault .bufOwned
  else
    match Cells.find i s.buf with
    | some b => .next (readReturns (b.setWidth 32) s)
    | none => .fault .undefRead

/-- RD (R80, R94): the value of the register file at this step; CMD and the reserved numbers read 0 (R26, R27). -/
def execRd (reg : RegNum) (s : State) : Out :=
  match hostReg s.params reg with
  | .cmd => .next (readReturns 0 s)
  | .status => .next (readReturns (statusWord s) s)
  | .result => .next (readReturns (s.result.code.setWidth 32) s)
  | .ctrl => .next (readReturns (ctrlWord s.ctrl) s)
  | .txdata => .next (readReturns (s.txdata.setWidth 32) s)
  | .rxdata => .next (readReturns (s.rxdata.setWidth 32) s)
  | .len => .next (readReturns (s.len.setWidth 32) s)
  | .lines => .next (readReturns (linesWord s) s)
  | .latch => .next (readLatch s)
  | .owner => .next (readReturns (s.owner.setWidth 32) s)
  | .ownerReq => .next (readReturns (s.ownerReq.setWidth 32) s)
  | .conflict => .next (readReturns (s.conflict.setWidth 32) s)
  | .pageIdx => .next (readReturns (s.pageIdx.setWidth 32) s)
  | .dispOut => .next (readReturns (dispOutWord s.dispOut) s)
  | .rxBytes => .next (readReturns s.rxBytes s)
  | .txBytes => .next (readReturns s.txBytes s)
  | .rxErr => .next (readReturns s.rxErr s)
  | .txErr => .next (readReturns s.txErr s)
  | .rxRate => .next (readRate s)
  | .txRate => .next (readRate s)
  | .tick => .next (readReturns s.tick s)
  | .unitLen => .next (readReturns (s.unitLen.setWidth 32) s)
  | .buf i => readBuf i s
  | .reserved => .next (readReturns 0 s)

/-- A write of CMD (R87): refused with OVERRUN while a command is active, ignored in FATAL unless it is RESET, else accepted. -/
def writeCmd (code : Byte) (s : State) : State :=
  if s.active then { s with overrun := true }
  else if s.seq = .fatal ∧ code ≠ 0x0F#8 then s
  else { s with cur := code, active := true, done := false, irq := false, phase := .start }

/-- A write of STATUS: a 1 in bit 6 clears OVERRUN (R28). -/
def writeStatus (d : Word) (s : State) : State := { s with overrun := s.overrun && !d.getLsbD 6 }

/-- A write of CTRL (R30, R217): ignored while a command is active; a change of SELECT_OUT drives SELECT, a change of ROLE releases
DATA, IE = 0 lowers IRQ. -/
def writeCtrl (d : Word) (s : State) : State :=
  if s.active then s
  else
    { s with
      ctrl := ctrlOfWord d
      dir := if (ctrlOfWord d).role = s.ctrl.role then s.dir else false
      out := { s.out with
        select := if (ctrlOfWord d).selectOut = s.ctrl.selectOut then s.out.select else (ctrlOfWord d).selectOut }
      irq := s.irq && (ctrlOfWord d).ie }

/-- A host write of `BUF[i]` (R47). -/
def writeBuf (i : Nat) (b : Byte) (s : State) : Out :=
  if s.active then .fault .bufOwned else .next { s with buf := Cells.put i b s.buf }

/-- WR (R80, R94). A write of a read-only register, of LATCH or of a reserved number has no effect (R26, R36, R62; log entry 10). -/
def execWr (reg : RegNum) (data : Word) (s : State) : Out :=
  match hostReg s.params reg with
  | .cmd => .next (writeCmd (commandCode data) s)
  | .status => .next (writeStatus data s)
  | .ctrl => .next (writeCtrl data s)
  | .txdata => .next { s with txdata := data.setWidth 8 }
  | .len => .next { s with len := data.setWidth 16 }
  | .ownerReq => .next { s with ownerReq := data.setWidth 8 }
  | .buf i => writeBuf i (data.setWidth 8) s
  | .result | .rxdata | .lines | .latch | .owner | .conflict | .pageIdx | .dispOut | .rxBytes | .txBytes | .rxErr | .txErr
  | .rxRate | .txRate | .tick | .unitLen | .reserved => .next s

end Sys2Proof.Machine
end

