-- ==== Sys2Proof/Machine/Transport.lean ====
section
/-! DEFINITION. The single-byte transport commands (spec/40_transport.md R113 to R121) and the illegal command codes
(spec/30_encoding.md R85). A meaning is ONE Engine step of its command: its first step where `phase` is `start`, and after it the
step that `phase` says is next. -/

namespace Sys2Proof.Machine

open Sys2Proof

/-- The end of a timed-out single-byte command: nothing is driven (R113). -/
def timeoutByte (s : State) : State := raise .handshakeTimeout s

/-- NOP (R114). -/
def execNop (s : State) : Out := .next (raise .ok s)

/-- ILLEGAL (R85): a reserved code ends with ILLEGAL_CMD in its first step and changes nothing else; the code has no other effect. -/
def execIllegal (_code : Byte) (s : State) : Out := .next (raise .illegalCmd s)

/-- Arm the link for a header: `drive(ACK, 1); POL <- 1; IDX <- 0` (R115, R161). -/
def rearmLink (s : State) : State := { driveAck true s with pol := true, idx := 0 }

/-- REARM (R115). -/
def execRearm (s : State) : Out :=
  .next (firstStep (some .responder) none (fun s => raise .ok (rearmLink s)) s)

/-- The header byte is read and acknowledged by the low level (R116). -/
def rxHeaderTake (s : State) : State :=
  raise .ok { driveAck false s with rxdata := (wire s).data, pol := false }

/-- RX_HEADER (R116). -/
def execRxHeader (s : State) : Out :=
  .next (match s.phase with
    | .start => firstStep (some .responder) none
        (fun s => if s.out.ack then enterWait .hdrWait s else raise .notArmed s) s
    | .drive | .run => sample (wire s).valid rxHeaderTake timeoutByte s)

/-- The payload byte is read and acknowledged by a toggle (R117). -/
def rxPayloadTake (s : State) : State :=
  raise .ok { driveAck (!s.out.ack) s with rxdata := (wire s).data, pol := !s.out.ack }

/-- RX_PAYLOAD (R117). -/
def execRxPayload (s : State) : Out :=
  .next (match s.phase with
    | .start => firstStep (some .responder) none (enterWait .payWait) s
    | .drive | .run => sample ((wire s).valid == s.out.ack) rxPayloadTake timeoutByte s)

/-- RX_CLOSE (R121). -/
def execRxClose (s : State) : Out :=
  .next (match s.phase with
    | .start => firstStep (some .responder) none (enterWait .closeWait) s
    | .drive | .run => sample (!(wire s).valid) (raise .ok) timeoutByte s)

/-- Step 1 of a send: the byte on DATA, STATE set, VALID to be driven in the next step (R118, R119, R164). -/
def presentData (b : Byte) (st : SeqState) (s : State) : State := { driveData b s with seq := st, phase := .drive }

/-- TX_HEADER (R118). -/
def execTxHeader (s : State) : Out :=
  .next (match s.phase with
    | .start => firstStep (some .initiator) none
        (fun s => if s.out.valid then raise .notArmed s else presentData s.txdata .hdrWait { s with dir := true }) s
    | .drive => enterWait .hdrWait (driveValid true s)
    | .run => ackSample (fun s => raise .ok { s with pol := false }) timeoutByte s)

/-- TX_PAYLOAD (R119). -/
def execTxPayload (s : State) : Out :=
  .next (match s.phase with
    | .start => firstStep (some .initiator) none
        (fun s => if s.dir then presentData s.txdata .payWait s else raise .notArmed s) s
    | .drive => enterWait .payWait (driveValid (!s.out.valid) s)
    | .run => ackSample (fun s => raise .ok { s with pol := !s.out.valid }) timeoutByte s)

/-- Close a send: `drive(VALID, 0); DIR <- 0; POL <- 1` (R120, R164). -/
def closeSend (s : State) : State := { driveValid false s with dir := false, pol := true }

/-- TX_CLOSE (R120). -/
def execTxClose (s : State) : Out :=
  .next (firstStep (some .initiator) none (fun s => raise .ok (closeSend s)) s)

end Sys2Proof.Machine
end

