-- ==== Sys2Proof/Machine/Units.lean ====
section
/-! DEFINITION. The unit commands RX_UNIT and TX_UNIT, the page-flash client FLASH_PAGE and its commit, and the session start
PRESESSION with the three pre-session bytes (spec/42_units_sessions.md R160 to R176, spec/30_encoding.md R90). A meaning is ONE
Engine step of its command, as in Transport. In a sequencer state the command never has, the Engine takes no step. -/

namespace Sys2Proof.Machine

open Sys2Proof

/-! ### Receiving a unit (R161) -/

/-- The first step of a receive: n is fixed, the buffer holds no unit, the link is armed, the header wait begins. -/
def rxUnitStart (s : State) : State :=
  enterWait .hdrWait (rearmLink { s with unitN := unitCount s, unitValid := false, unitLen := 0 })

/-- The wait after a byte: the next payload byte, or the closing edge. -/
def rxUnitNext (s : State) : State :=
  if s.idx ≤ s.unitN then enterWait .payWait s else enterWait .closeWait s

/-- The header byte is taken (level handshake). -/
def rxUnitHeader (s : State) : State :=
  rxUnitNext { driveAck false s with buf := Cells.put 0 (wire s).data s.buf, pol := false, idx := 1 }

/-- A payload byte is taken (toggle handshake). -/
def rxUnitPayload (s : State) : State :=
  rxUnitNext { driveAck (!s.out.ack) s with
    buf := Cells.put s.idx.toNat (wire s).data s.buf
    pol := !s.out.ack
    idx := s.idx + 1 }

/-- FAILCODE: PAGE_READ_FAIL in Flash mode, HANDSHAKE_TIMEOUT in Bridge mode. -/
def rxFailCode (s : State) : ResultCode :=
  match s.ctrl.mode with
  | .flash => .pageReadFail
  | .bridge => .handshakeTimeout

/-- The bytes of the failed unit are discarded (R162) and the failure is counted (R167). -/
def discardUnit (s : State) : State :=
  { s with
    buf := Cells.dropBelow (s.unitN.toNat + 1) s.buf
    unitValid := false
    unitLen := 0
    rxErr := s.rxErr + 1 }

/-- `fail(code)` of R161: with a BLINK in Flash mode. -/
def rxUnitFail (s : State) : State :=
  match s.ctrl.mode with
  | .flash => raiseBlink (rxFailCode s) (discardUnit s)
  | .bridge => raise (rxFailCode s) (discardUnit s)

/-- The unit is delivered (R161, R166). -/
def deliverUnit (s : State) : State :=
  { s with
    unitValid := true
    unitLen := s.unitN + 1
    rxdata := bufByte s s.unitN.toNat
    pageIdx := match s.ctrl.mode with | .flash => bufByte s 0 | .bridge => s.pageIdx
    rxBytes := s.rxBytes + (s.unitN + 1).setWidth 32 }

/-- The step that begins the READY-FOR-MORE pulse (R165). -/
def startPulse (s : State) : State := { driveReady true s with seq := .pulse, pulseCnt := 0, phase := .run }

/-- A later step of the pulse; the last one lowers READY and ends the command with OK (R165). -/
def pulseStep (s : State) : State :=
  if s.pulseCnt + 1 = s.params.readyPulse then raise .ok (driveReady false { s with pulseCnt := s.pulseCnt + 1 })
  else { s with pulseCnt := s.pulseCnt + 1 }

/-- The waits of RX_UNIT's body, with what follows the close sample. -/
def rxUnitWaits (closed : State → State) (s : State) : State :=
  match s.seq with
  | .hdrWait => sample (wire s).valid rxUnitHeader rxUnitFail s
  | .payWait => sample ((wire s).valid == s.out.ack) rxUnitPayload rxUnitFail s
  | .closeWait => sample (!(wire s).valid) (fun s => closed (deliverUnit s)) rxUnitFail s
  | .pulse => pulseStep s
  | .idle | .hdrAck | .payAck | .aborted | .preWait | .commit | .dispatch | .fatal => s

/-- What follows RX_UNIT's close sample: the pulse in Bridge mode, the end in Flash mode. -/
def rxUnitClosed (s : State) : State :=
  match s.ctrl.mode with
  | .bridge => startPulse s
  | .flash => raise .ok s

/-- RX_UNIT (R161). -/
def execRxUnit (s : State) : Out :=
  .next (match s.phase with
    | .start => firstStep (some .responder) none
        (fun s => if lenTooLong s then raise .lenRange s else rxUnitStart s) s
    | .drive | .run => rxUnitWaits rxUnitClosed s)

/-! ### Sending a unit (R164) -/

/-- Checks 2, 4 and 5 of R88 lead to the model fault: TX_UNIT as Initiator, of a length in range, with a byte never written. -/
def txUnitFaults (s : State) : Bool :=
  decide (s.phase = .start) && decide (s.ctrl.role = .initiator) && !lenTooLong s && unitUndefined s

/-- The first step of a send, past the checks. -/
def txUnitStart (s : State) : State :=
  if s.out.valid then raise .notArmed s
  else presentData (bufByte s 0) .hdrWait { s with unitN := unitCount s, dir := true }

/-- After an acknowledgment, in the same step: the next byte on DATA, or the close (R166). -/
def txUnitNext (s : State) : State :=
  if s.idx ≤ s.unitN then presentData (bufByte s s.idx.toNat) .payWait s
  else raise .ok { closeSend s with txBytes := s.txBytes + (s.unitN + 1).setWidth 32 }

/-- The header is acknowledged. -/
def txUnitHeaderAck (s : State) : State := txUnitNext { s with pol := false, idx := 1 }

/-- A payload byte is acknowledged. -/
def txUnitPayloadAck (s : State) : State := txUnitNext { s with pol := !s.out.valid, idx := s.idx + 1 }

/-- `fail_tx()` of R164: the failure is counted (R167), the lines stay. -/
def txUnitFail (s : State) : State := raise .handshakeTimeout { s with txErr := s.txErr + 1 }

/-- One step of TX_UNIT, where it does not fault. -/
def txUnitStep (s : State) : State :=
  match s.phase with
  | .start => firstStep (some .initiator) none
      (fun s => if lenTooLong s then raise .lenRange s else txUnitStart s) s
  | .drive =>
    match s.seq with
    | .hdrWait => enterWait .hdrWait (driveValid true s)
    | .payWait => enterWait .payWait (driveValid (!s.out.valid) s)
    | .idle | .hdrAck | .payAck | .closeWait | .aborted | .preWait | .commit | .pulse | .dispatch | .fatal => s
  | .run =>
    match s.seq with
    | .hdrWait => ackSample txUnitHeaderAck txUnitFail s
    | .payWait => ackSample txUnitPayloadAck txUnitFail s
    | .idle | .hdrAck | .payAck | .closeWait | .aborted | .preWait | .commit | .pulse | .dispatch | .fatal => s

/-- TX_UNIT (R164). -/
def execTxUnit (s : State) : Out :=
  if txUnitFaults s then .fault .undefRead else .next (txUnitStep s)

/-! ### The program-memory port and the page commit (R168 to R172) -/

/-- The 128 bytes of a page become unspecified: one draw gives them all (R168, R172). -/
def flashErase (page : Byte) (s : State) : State :=
  { s with
    progMem := Prog.putRun (pageAddr page) ((List.range pagePayload).map (Config.erasedByte s.draws)) s.progMem
    draws := s.draws + 1 }

/-- `FlashWrite(p, w)` (R168). -/
def flashWrite (page : Byte) (ws : List Half) (s : State) : State :=
  { s with progMem := Prog.putRun (pageAddr page) (bytesOfWords ws) s.progMem }

/-- The commit once `flash_ok` has been drawn: erase and write and begin the pulse, or leave the page unspecified and enter FATAL
(R170, R172, R169). -/
def commitWith (flashOk : Bool) (s : State) : State :=
  if flashOk then
    startPulse (flashWrite (bufByte s 0) (wordsOfBytes (pagePayloadBytes s)) (flashErase (bufByte s 0) s))
  else raiseBlink .flashFail (flashErase (bufByte s 0) s)

/-- The commit step (R170): one Engine step (R171). -/
def commitStep (s : State) : State :=
  if s.params.protectedPages.contains (bufByte s 0) then raiseBlink .pageProtected s
  else commitWith (Config.flashOk s.draws) { s with draws := s.draws + 1 }

/-- What follows FLASH_PAGE's close sample: STATE = COMMIT until the next Engine step (R169). -/
def flashPageClosed (s : State) : State := { s with seq := .commit }

/-- FLASH_PAGE (R169). -/
def execFlashPage (s : State) : Out :=
  .next (match s.phase with
    | .start => firstStep (some .responder) (some .flash) rxUnitStart s
    | .drive | .run => if s.seq = .commit then commitStep s else rxUnitWaits flashPageClosed s)

/-! ### Session start (R173, R174) -/

/-- The byte of a completed pre-session wait is taken and BUSY lowered (R174). -/
def takePreByte (b : Byte) (s : State) : State := { driveBusy false s with rxdata := b }

/-- PRE_SENTINEL (R90, R174): SENTINEL_ABORT. -/
def execPreSentinel (s : State) : Out := .next (raiseBlink .sentinelAbort (takePreByte sentinel s))

/-- PRE_BOOT_REQ (R90, R174, R175): the session is a flash session. -/
def execPreBootReq (s : State) : Out :=
  .next (raise .ok { takePreByte s.params.bootReq s with ctrl := { s.ctrl with mode := .flash } })

/-- PRE_OTHER (R90, R174): UNSUPPORTED. -/
def execPreOther (b : Byte) (s : State) : Out := .next (raiseBlink .unsupported (takePreByte b s))

/-- The meaning of the byte on DATA at the sample that completes the sustained SELECT (R90, R174). -/
def preByteMeaning (s : State) : Out :=
  match classifyPre s.params (wire s).data with
  | .sentinel => execPreSentinel s
  | .bootReq => execPreBootReq s
  | .other => execPreOther (wire s).data s

/-- SELECT is counted at a sample (R173). -/
def countSelect (s : State) : State :=
  { s with stableCnt := if (wire s).select then s.stableCnt + 1 else 0 }

/-- The first step of PRESESSION, past the checks. -/
def presessionStart (s : State) : State := enterWait .preWait { driveBusy true s with stableCnt := 0 }

/-- The pre-session wait times out (R174). -/
def presessionTimeout (s : State) : State := raiseBlink .noSession (driveBusy false s)

/-- A sample of the pre-session wait, once SELECT has been counted. -/
def presessionSample (s : State) : Out :=
  if s.stableCnt = s.params.selectStable then preByteMeaning s
  else .next (sample false id presessionTimeout s)

/-- PRESESSION (R174). -/
def execPresession (s : State) : Out :=
  match s.phase with
  | .start => .next (firstStep (some .responder) none presessionStart s)
  | .drive | .run => presessionSample (countSelect s)

end Sys2Proof.Machine
end

