-- ==== Sys2Proof/Machine/Dispatch.lean ====
section
/-! DEFINITION. The dispatch of every instruction to its meaning, one arm per constructor of `Instr`. -/

namespace Sys2Proof.Machine

open Sys2Proof

def exec (i : Instr) (s : State) : Host.Outcome State Fault Refusal :=
  match i with
  | .rd reg => Sys2Proof.Machine.execRd reg s
  | .wr reg data => Sys2Proof.Machine.execWr reg data s
  | .nop => Sys2Proof.Machine.execNop s
  | .reserve => Sys2Proof.Machine.execReserve s
  | .release => Sys2Proof.Machine.execRelease s
  | .rearm => Sys2Proof.Machine.execRearm s
  | .rxHeader => Sys2Proof.Machine.execRxHeader s
  | .rxPayload => Sys2Proof.Machine.execRxPayload s
  | .rxClose => Sys2Proof.Machine.execRxClose s
  | .txHeader => Sys2Proof.Machine.execTxHeader s
  | .txPayload => Sys2Proof.Machine.execTxPayload s
  | .txClose => Sys2Proof.Machine.execTxClose s
  | .rxUnit => Sys2Proof.Machine.execRxUnit s
  | .txUnit => Sys2Proof.Machine.execTxUnit s
  | .presession => Sys2Proof.Machine.execPresession s
  | .flashPage => Sys2Proof.Machine.execFlashPage s
  | .dispatch => Sys2Proof.Machine.execDispatch s
  | .reset => Sys2Proof.Machine.execReset s
  | .illegal code => Sys2Proof.Machine.execIllegal code s
  | .preSentinel => Sys2Proof.Machine.execPreSentinel s
  | .preBootReq => Sys2Proof.Machine.execPreBootReq s
  | .preOther b => Sys2Proof.Machine.execPreOther b s
  | .reboot => Sys2Proof.Machine.execReboot s
  | .getlog => Sys2Proof.Machine.execGetlog s
  | .getconfig => Sys2Proof.Machine.execGetconfig s
  | .setconfig => Sys2Proof.Machine.execSetconfig s
  | .storageInfo => Sys2Proof.Machine.execStorageInfo s
  | .storageRead => Sys2Proof.Machine.execStorageRead s
  | .storageWrite => Sys2Proof.Machine.execStorageWrite s
  | .packet => Sys2Proof.Machine.execPacket s
  | .opSentinel => Sys2Proof.Machine.execOpSentinel s
  | .opUnknown b => Sys2Proof.Machine.execOpUnknown b s

end Sys2Proof.Machine
end

