-- ==== Sys2Proof/Machine/Step.lean ====
section
/-! DEFINITION. One step of the machine: the agent whose turn it is takes its step (spec/10_state.md R20, spec/00_scope.md R13), and
the step ends with edge detection and the record of the line changes (R144, R124). -/

namespace Sys2Proof.Machine

open Sys2Proof

/-- The step of an agent, on the state whose turn has been taken out of store. The Host's step is its transaction; the Engine's step is
one step of the active command, decoded from CUR, and with no command active the Engine takes none (R88, R213). -/
def agentStep (t : Turn) (s : State) : Host.Outcome State Fault Refusal :=
  match t with
  | .host w => exec (decodeHost w) s
  | .engine => if s.active then exec (decodeCode s.cur) s else .next s
  | .edgeCapture => .next (edgeCaptureStep s)
  | .tick => .next (tickStep s)
  | .peer m => .next (peerStep m s)
  | .powerUp => .next (blockReset s)

/-- One step of the machine. -/
def step (s : State) : Host.Outcome State Fault Refusal :=
  match agentStep (nextTurn s) (takeTurn s) with
  | .next s' => .next (endStep s s')
  | .fault f => .fault f
  | .refused r => .refused r

/-- `s` with an instruction of the opcode table placed so that the very next step runs it (log entry 6): a host transaction is the next
turn; a command word is the accepted code of an active command whose first Engine step is the next turn; the pre-session sentinel is on
DATA while PRESESSION's wait takes its completing sample. -/
def State.withFetchWord (s : State) (nbits w : Nat) : State :=
  match tableFormat nbits w with
  | .host => { s with turns := .host (BitVec.ofNat 45 w) :: s.turns }
  | .command | .frame =>
    { s with
      turns := .engine :: s.turns
      active := true
      cur := commandCode (BitVec.ofNat 32 w)
      phase := .start }
  | .preSession =>
    { s with
      turns := .engine :: s.turns
      active := true
      cur := 0x0C
      phase := .run
      seq := .preWait
      stableCnt := s.params.selectStable - 1
      dir := false
      ctrl := { s.ctrl with role := .responder }
      out := { s.out with busy := true }
      peer := { s.peer with select := true, data := BitVec.ofNat 8 w } }

end Sys2Proof.Machine
end

