-- ==== Sys2Proof/Machine/ConfigBlock.lean ====
section
/-! DEFINITION. The persisted configuration block as a data format (spec/20_memory.md R72) and its checksum contract (R73). The block
itself neither reads nor writes it (R6): no step refers to this file. -/

namespace Sys2Proof.Machine

open Sys2Proof

/-- The layout of R72, each field as its bytes in the order they are stored. -/
structure ConfigBlock where
  hardwareAddress : List Byte
  flowControl : List Byte
  duplex : List Byte
  testFrameLength : List Byte
  testFrameType : List Byte
  testAddress : List Byte
  testPort : List Byte
  testMode : List Byte
  crc : List Byte
deriving DecidableEq, Repr

/-- The bytes at an offset (R72). -/
def fieldBytes (offset size : Nat) (block : List Byte) : List Byte := (block.drop offset).take size

/-- The fields of a stored block, at the offsets of R72. -/
def configOfBytes (block : List Byte) : ConfigBlock where
  hardwareAddress := fieldBytes 0 6 block
  flowControl := fieldBytes 6 1 block
  duplex := fieldBytes 7 1 block
  testFrameLength := fieldBytes 8 2 block
  testFrameType := fieldBytes 10 2 block
  testAddress := fieldBytes 12 4 block
  testPort := fieldBytes 16 2 block
  testMode := fieldBytes 18 1 block
  crc := fieldBytes 19 2 block

/-- The bytes of a block, in the source's order (R72). -/
def bytesOfConfig (c : ConfigBlock) : List Byte :=
  c.hardwareAddress ++ c.flowControl ++ c.duplex ++ c.testFrameLength ++ c.testFrameType ++ c.testAddress ++ c.testPort
    ++ c.testMode ++ c.crc

/-- The checksum: the running update over bytes 0 to 18, from an initial value (R73). -/
def checksumBy (crc16 : Half → Byte → Half) (crc16Init : Half) (block : List Byte) : Half :=
  (block.take 19).foldl crc16 crc16Init

/-- The checksum with the block's own CRC16 and CRC16_INIT (R73). -/
def configChecksum (block : List Byte) : Half := checksumBy Config.crc16 Config.crc16Init block

/-- A block with bit `j` of byte `i` flipped. -/
def flipBit (i j : Nat) (block : List Byte) : List Byte := block.modify i (fun b => b ^^^ (1#8 <<< j))

/-- What R73 requires of any CRC16 and CRC16_INIT: flipping any single bit of the bytes the checksum covers changes the computed value.
(That identical bytes yield identical output holds of every function.) A claim that needs it takes it as a premise: log entry 18. -/
def CrcDetectsFlips (crc16 : Half → Byte → Half) (crc16Init : Half) : Prop :=
  ∀ block : List Byte, block.length = 21 → ∀ i j, i < 19 → j < 8 →
    checksumBy crc16 crc16Init (flipBit i j block) ≠ checksumBy crc16 crc16Init block

/-- A stored 16-bit field in the block's byte order, which is a parameter (N9, D39). -/
def configHalf (bs : List Byte) : Half :=
  match bs with
  | [a, b] => if Config.configLowByteFirst then b ++ a else a ++ b
  | _ => 0

/-- The integrity contract of R73: the recomputed checksum equals the stored value. -/
def configIntact (block : List Byte) : Bool :=
  configChecksum block == configHalf (configOfBytes block).crc

/-- The compiled-in defaults (R73, R244), whose bytes the source does not give. -/
def configDefaults : List Byte := (List.range 21).map Config.configDefault

/-- `load()` (R73, R244): the working copy of a stored block is the block itself where it is intact; a mismatch forces
reset-to-defaults. -/
def configLoad (block : List Byte) : List Byte := if configIntact block then block else configDefaults

end Sys2Proof.Machine
end

