-- ==== Sys2Proof/Safety.lean ====
section
/-! DEFINITION. The terms claims are made in: the link conditions (spec/40_transport.md R110), the protocol violation of a recorded trace
(R124), the invariants of the machine, and the bound on the Engine steps a command still takes (spec/70_reset_and_hazards.md R261). -/

namespace Sys2Proof.Machine

open Sys2Proof

/-- The link is pending: a byte is presented and not yet acknowledged (R110). -/
def Pending (s : State) : Prop := (wire s).valid = (wire s).ack

/-- The link is acknowledged (R110). -/
def Acknowledged (s : State) : Prop := (wire s).valid ≠ (wire s).ack

/-- The recorded trace of one unit (R124), as a conformance harness cuts it out of the history: the levels of VALID and ACK before it,
the events from there on, and how many of them came before the close (`none`: the unit is not closed). The close stands by its place,
because TX_CLOSE moves no level where VALID is low already (R120; log entry 20). -/
structure UnitTrace where
  valid : Bool
  ack : Bool
  events : List Event
  close : Option Nat
deriving DecidableEq, Repr

/-- The trace of a unit between two states of a run, with the state its close found: the one before the step of TX_CLOSE, before the
last step of TX_UNIT, or before the Peer's step that drops VALID. -/
def unitTrace (before : State) (closing : Option State) (after : State) : UnitTrace where
  valid := (wire before).valid
  ack := (wire before).ack
  events := after.history.drop before.history.length
  close := closing.map (fun c => c.history.length - before.history.length)

/-- The events after the header, from given levels of VALID and ACK: the header is over with the change that leaves VALID = 1 and
ACK = 0 (R110, R116, R118), be it ACK's fall or, where ACK is 0 already, VALID's rise (R253). A header that is never acknowledged has no
event after it. -/
def afterHeader (valid ack : Bool) : List Event → List Event
  | [] => []
  | .line .valid v :: es => if v && !ack then es else afterHeader v ack es
  | .line .ack a :: es => if valid && !a then es else afterHeader valid a es
  | _ :: es => afterHeader valid ack es

/-- The events of a unit before its close. -/
def UnitTrace.beforeClose (t : UnitTrace) : List Event :=
  match t.close with
  | some n => t.events.take n
  | none => t.events

/-- The events of a unit after the header and before the close (R124). -/
def UnitTrace.window (t : UnitTrace) : List Event := afterHeader t.valid t.ack t.beforeClose

/-- Two VALID changes with no ACK change between them; `seen` says that one has been seen since the last ACK change. -/
def doubleToggle (seen : Bool) : List Event → Bool
  | [] => false
  | .line .valid _ :: es => seen || doubleToggle true es
  | .line .ack _ :: es => doubleToggle false es
  | _ :: es => doubleToggle seen es

/-- `Violation(trace)` of R124: two VALID changes with no ACK change between them, after the header and before the close. -/
def Violation (t : UnitTrace) : Bool := doubleToggle false t.window

/-- No step of a run of `k` steps faults or is refused. -/
def RunsSafely (k : Nat) (s : State) : Prop := ∃ t, Host.Core.run Sys2Proof.core k s = .next t

/-- The data invariant. -/
structure State.Inv (s : State) : Prop where
  /-- BUF and PROGMEM are in canonical form and PROGMEM stays in its addresses (R63). -/
  memory : Memory.wf s = true
  /-- MON is the level of the monitored line (R50, R144). -/
  monitored : s.mon = (wire s).ack
  /-- A Responder does not drive DATA (R24). -/
  released : s.ctrl.role = .responder → s.dir = false
  /-- The level driven on SELECT is the one CTRL holds (R30). -/
  selected : s.out.select = s.ctrl.selectOut
  /-- UNIT_LEN is 0 while the buffer holds no unit (R45). -/
  unitLen : s.unitValid = false → s.unitLen = 0

/-- The first `n` bytes of BUF have been written (R47). -/
def BytesHeld (s : State) (n : Nat) : Prop := ∀ i, i < n → bufDef s i = true

/-- Where a command that sends a byte or a unit may be, as an Initiator, after its first step. -/
def SendPlace (s : State) : Prop :=
  (s.cur = 0x07 ∧ s.seq = .hdrWait) ∨ (s.cur = 0x08 ∧ s.seq = .payWait)
    ∨ (s.cur = 0x0B ∧ s.unitN.toNat < 2 ^ 16 ∧ BytesHeld s (s.unitN.toNat + 1)
        ∧ (s.seq = .hdrWait ∨ (s.seq = .payWait ∧ 1 ≤ s.idx.toNat ∧ s.idx.toNat ≤ s.unitN.toNat)))

/-- Where a receive of a unit may be after its first step. -/
def ReceivePlace (s : State) : Prop :=
  s.unitN.toNat < 2 ^ 16 ∧ (s.cur = 0x0D → s.unitN = 128)
    ∧ ((s.seq = .hdrWait ∧ s.unitValid = false)
      ∨ (s.seq = .payWait ∧ s.unitValid = false ∧ 1 ≤ s.idx.toNat ∧ s.idx.toNat ≤ s.unitN.toNat
          ∧ BytesHeld s s.idx.toNat)
      ∨ (s.seq = .closeWait ∧ s.unitValid = false ∧ BytesHeld s (s.unitN.toNat + 1))
      ∨ (s.seq = .commit ∧ s.cur = 0x0D ∧ s.unitValid = true ∧ s.unitLen = 129)
      ∨ (s.seq = .pulse ∧ s.pulseCnt < s.params.readyPulse ∧ s.unitValid = true))

/-- Where a command bound to the Responder role may be after its first step. -/
def ResponderPlace (s : State) : Prop :=
  (s.cur = 0x04 ∧ s.seq = .hdrWait) ∨ (s.cur = 0x05 ∧ s.seq = .payWait) ∨ (s.cur = 0x06 ∧ s.seq = .closeWait)
    ∨ (s.cur = 0x0C ∧ s.seq = .preWait ∧ s.stableCnt < s.params.selectStable)
    ∨ ((s.cur = 0x0A ∨ s.cur = 0x0D) ∧ ReceivePlace s)

/-- The sequencer invariant: STATE, CUR and the step split are ones the rules give together (R48, R49, R87, R88, R212), a wait has
taken fewer samples than its budget (R111), the role of a running command is the one it needs (R84), and every byte of a unit that is
held or being sent has been written (R28, R47, R88). -/
def State.SeqLegal (s : State) : Prop :=
  s.params.wf = true ∧ (s.unitValid = true → BytesHeld s s.unitLen.toNat) ∧
  (if s.active then
    match s.phase with
    | .start => s.seq = .idle ∨ s.seq = .aborted ∨ (s.seq = .fatal ∧ s.cur = 0x0F)
    | .drive => s.ctrl.role = .initiator ∧ SendPlace s
    | .run => s.waitCnt < s.params.waitBudget
        ∧ ((s.ctrl.role = .initiator ∧ SendPlace s) ∨ (s.ctrl.role = .responder ∧ ResponderPlace s))
  else s.phase = .start ∧ s.cur = 0 ∧ s.waitCnt = 0 ∧ (s.seq = .idle ∨ s.seq = .aborted ∨ s.seq = .fatal))

/-- The waits a send of a unit has still to end, the current one included. -/
def sendWaitsLeft (s : State) : Nat :=
  if s.cur = 0x0B then (if s.seq = .payWait then s.unitN.toNat + 1 - s.idx.toNat else s.unitN.toNat + 1) else 1

/-- The waits a receive has still to end, the current one included. -/
def receiveWaitsLeft (s : State) : Nat :=
  if s.cur = 0x0A ∨ s.cur = 0x0D then
    match s.seq with
    | .hdrWait => s.unitN.toNat + 2
    | .payWait => s.unitN.toNat + 2 - s.idx.toNat
    | .idle | .hdrAck | .payAck | .closeWait | .aborted | .preWait | .commit | .pulse | .dispatch | .fatal => 1
  else 1

/-- A bound on the Engine steps that a command past its first step still takes (R261): WAIT_BUDGET samples for every wait it has still
to end, one more step for every VALID drive, one for the commit, READY_PULSE for the pulse. -/
def engineStepsLeft (s : State) : Nat :=
  match s.phase with
  | .start => 0
  | .drive => sendWaitsLeft s * (s.params.waitBudget + 1)
  | .run =>
    match s.seq with
    | .commit => s.params.readyPulse + 1
    | .pulse => s.params.readyPulse - s.pulseCnt
    | .idle | .hdrWait | .hdrAck | .payWait | .payAck | .closeWait | .aborted | .preWait | .dispatch | .fatal =>
      match s.ctrl.role with
      | .initiator => sendWaitsLeft s * (s.params.waitBudget + 1) - 1 - s.waitCnt
      | .responder => receiveWaitsLeft s * s.params.waitBudget - s.waitCnt + s.params.readyPulse + 1

end Sys2Proof.Machine
end

