-- ==== Sys2Proof/Certificates/Slice0/Obligations.lean ====
section
/-! DEFINITION. The statements for the provers. An equation `exec i s = .next { s with ... }` gives the instruction's result and its
frame at once: every field that is not named is unchanged. -/

open Sys2Proof Sys2Proof.Machine

/-! ### Encodings -/

/-- R80, R84, R90, R91: decoding the bytes of a well-formed instruction gives it back, and leaves the bytes after it. -/
def Obligations.DecodeEncodeRoundTrip : Prop :=
  ∀ (p : Params) (i : Instr) (rest : List Byte), p.wf = true → i.wf p = true →
    decode p i.format (encode p i ++ rest) = .ok (i, rest)

/-- R81, R85, R86, R90, R91: every value of an encoded thing is a well-formed instruction, and encoding that instruction gives the
value back, but for the bits that are ignored (the DATA of a read; bits 31:8 of a command word). -/
def Obligations.DecodedBitsReencode : Prop :=
  ∀ p : Params, p.wf = true →
    (∀ w : HostWord, (decodeHost w).wf p = true ∧ (decodeHost w).format = .host
        ∧ encodeNumber p (decodeHost w) = if w.getLsbD 44 then w.toNat else w.toNat / 2 ^ 32 * 2 ^ 32)
      ∧ (∀ w : Word, (decodeCommand w).wf p = true ∧ (decodeCommand w).format = .command
        ∧ encodeNumber p (decodeCommand w) = w.toNat % 256)
      ∧ (∀ b : Byte, (decodePre p b).wf p = true ∧ (decodePre p b).format = .preSession
        ∧ encodeNumber p (decodePre p b) = b.toNat)
      ∧ (∀ b : Byte, (decodeOpcode p b).wf p = true ∧ (decodeOpcode p b).format = .frame
        ∧ encodeNumber p (decodeOpcode p b) = b.toNat)

/-- Words written out from R80 (with the programs of section L3), R84, R90 and R91 decode to what they stand for. The opcode values
0x02 and 0x50 and BOOT_REQ 0x88 are those of `Params.reference`: R91 leaves the opcodes open, their values here are the model's choice
(log entry 1), which spec/95_test_vectors.md section 0 calls "the vectors' own choice". -/
def Obligations.SpecWordsDecode : Prop :=
  decodeHost 0x10000000000C#45 = .wr 0x000#12 0x0C#32 ∧ decodeHost 0x000100000000#45 = .rd 0x001#12
    ∧ decodeHost 0x1101000000AB#45 = .wr 0x101#12 0xAB#32
    ∧ decodeCommand 0x00001204#32 = .rxHeader ∧ decodeCommand 0x0000000D#32 = .flashPage
    ∧ decodeCommand 0x00000010#32 = .illegal 0x10#8
    ∧ (∀ p : Params, decodePre p 0xFF#8 = .preSentinel)
    ∧ decodePre Params.reference 0x88#8 = .preBootReq ∧ decodePre Params.reference 0x41#8 = .preOther 0x41#8
    ∧ decodeOpcode Params.reference 0x02#8 = .getlog ∧ decodeOpcode Params.reference 0xFF#8 = .opSentinel
    ∧ decodeOpcode Params.reference 0x50#8 = .opUnknown 0x50#8

/-! ### Reset -/

/-- The elements of R52 that the table gives a value or calls a draw, at that value. (OWNER_REQ is not in the table: log entry 3.) -/
def AtResetValues (t : State) : Prop :=
  t.seq = .idle ∧ t.cur = 0 ∧ t.idx = 0 ∧ t.waitCnt = 0 ∧ t.stableCnt = 0 ∧ t.pulseCnt = 0 ∧ t.pol = true
    ∧ t.active = false ∧ t.done = false ∧ t.overrun = false ∧ t.unitValid = false ∧ statusFatal t = false
    ∧ t.result = .ok ∧ ctrlWord t.ctrl = 0
    ∧ t.txdata = 0 ∧ t.rxdata = 0 ∧ t.len = 0 ∧ t.pageIdx = 0 ∧ t.unitLen = 0
    ∧ t.out.ack = true ∧ t.out.valid = false ∧ t.out.select = false ∧ t.out.ready = false ∧ t.out.busy = false
    ∧ t.out.data = 0 ∧ t.dir = false ∧ t.latch = false ∧ t.edgePend = false ∧ t.mon = (wire t).ack
    ∧ t.owner = 0 ∧ t.conflict = 0 ∧ dispOutWord t.dispOut = 0
    ∧ t.rxBytes = 0 ∧ t.txBytes = 0 ∧ t.rxErr = 0 ∧ t.txErr = 0
    ∧ (∃ n, t.tick = Config.tickAtReset n) ∧ (∀ i, bufDef t i = false) ∧ t.irq = false

/-- R52 at `State.reset`, with the rate registers, whose every read is a draw, and program memory, whose every byte is a launch byte,
free (R63; log entry 7); and after power-up from any state, with the launch rows of the table (the Peer's levels, program memory), which
reset does not change. -/
def Obligations.ResetLeavesTheTable : Prop :=
  AtResetValues State.reset
    ∧ (∀ r ∈ [0x012#12, 0x013#12], ∃ n v,
      exec (.rd r) State.reset = .next { State.reset with rdata := v, draws := n + 1 } ∧ v = Config.rate n)
    ∧ (∀ a, progRead State.reset a = if a < 0x8000 then some (Config.launchByte a) else none)
    ∧ ∀ s : State, ∃ t, agentStep .powerUp s = .next t ∧ AtResetValues t ∧ t.peer = s.peer ∧ t.progMem = s.progMem

/-- R198, R192, R240: RESET and the REBOOT handler take every element of R52 to its reset value in one step, from every state; program
memory, the Peer's levels and the parameters stay; REBOOT emits RESTART first, once, and RESET emits nothing. -/
def Obligations.ResetAndRebootResetTheBlock : Prop :=
  ∀ s : State,
    (∃ t, exec .reset s = .next t ∧ AtResetValues t ∧ t.progMem = s.progMem ∧ t.peer = s.peer ∧ t.params = s.params
        ∧ t.history = s.history)
      ∧ (∃ t, exec .reboot s = .next t ∧ AtResetValues t ∧ t.progMem = s.progMem ∧ t.peer = s.peer ∧ t.params = s.params
        ∧ t.history = s.history ++ [.restart])

/-! ### Host transactions -/

/-- The values of STATE (R48). -/
def StateCodes : List (SeqState × BitVec 4) :=
  [(.idle, 0), (.hdrWait, 1), (.hdrAck, 2), (.payWait, 3), (.payAck, 4), (.closeWait, 5), (.aborted, 6), (.preWait, 7),
    (.commit, 8), (.pulse, 9), (.dispatch, 10), (.fatal, 15)]

/-- The values of DISP_OUT.OUTCOME (R41). -/
def OutcomeCodes : List (DispOutcome × BitVec 4) := [(.noOutcome, 0), (.notImplemented, 2), (.packet, 3)]

/-- The values of RESULT (R210). -/
def ResultCodes : List (ResultCode × Byte) :=
  [(.ok, 0x00), (.noSession, 0x01), (.sentinelAbort, 0x02), (.unsupported, 0x03), (.pageReadFail, 0x04),
    (.handshakeTimeout, 0x05), (.flashFail, 0x06), (.reserveConflict, 0x07), (.reserveNoRes, 0x08), (.notOwner, 0x09)]
    ++ [(.badId, 0x0A), (.illegalCmd, 0x0B), (.roleMismatch, 0x0C), (.modeMismatch, 0x0D), (.lenRange, 0x0E), (.noUnit, 0x0F),
      (.notArmed, 0x10), (.pageProtected, 0x11), (.notImplemented, 0x12)]

/-- R28, R30, R35, R41, R48: a read of STATUS, CTRL, LINES and DISP_OUT returns their fields, STATE and OUTCOME by their values,
reserved bits 0, and changes nothing. -/
def Obligations.RdReturnsFieldWords : Prop :=
  ∀ s : State,
    (∃ v : Word, exec (.rd 0x001#12) s = .next { s with rdata := v } ∧ (s.seq, v.extractLsb' 0 4) ∈ StateCodes
        ∧ v.getLsbD 4 = s.active ∧ v.getLsbD 5 = s.done ∧ v.getLsbD 6 = s.overrun ∧ v.getLsbD 7 = decide (s.seq = .fatal)
        ∧ v.getLsbD 8 = s.unitValid ∧ v.getLsbD 9 = (s.owner != 0) ∧ v.extractLsb' 10 22 = 0)
      ∧ (∃ v : Word, exec (.rd 0x003#12) s = .next { s with rdata := v } ∧ v.getLsbD 0 = decide (s.ctrl.role = .initiator)
        ∧ v.getLsbD 1 = decide (s.ctrl.mode = .flash) ∧ v.getLsbD 2 = s.ctrl.useLatch ∧ v.getLsbD 3 = s.ctrl.ie
        ∧ v.getLsbD 4 = s.ctrl.selectOut ∧ v.extractLsb' 5 27 = 0)
      ∧ (∃ v : Word, exec (.rd 0x007#12) s = .next { s with rdata := v } ∧ v.getLsbD 0 = (wire s).valid
        ∧ v.getLsbD 1 = (wire s).ack ∧ v.getLsbD 2 = (wire s).select ∧ v.getLsbD 3 = (wire s).ready
        ∧ v.getLsbD 4 = (wire s).busy ∧ v.getLsbD 5 = s.dir ∧ v.extractLsb' 6 2 = 0 ∧ v.extractLsb' 8 8 = (wire s).data
        ∧ v.extractLsb' 16 16 = 0)
      ∧ (∃ v : Word, exec (.rd 0x00D#12) s = .next { s with rdata := v } ∧ (s.dispOut.outcome, v.extractLsb' 0 4) ∈ OutcomeCodes
        ∧ v.extractLsb' 4 4 = s.dispOut.handler ∧ v.extractLsb' 8 8 = s.dispOut.opcode
        ∧ v.extractLsb' 16 8 = s.dispOut.count ∧ v.extractLsb' 24 8 = 0)

/-- R27, R29, R32 to R34, R37 to R40, R42, R44, R45: a read of a register of one field returns it (RESULT by its value in R210), CMD
reads 0, and nothing changes. -/
def Obligations.RdReturnsPlainRegisters : Prop :=
  ∀ s : State,
    exec (.rd 0x000#12) s = .next { s with rdata := 0 }
      ∧ (∃ c : Byte, (s.result, c) ∈ ResultCodes ∧ exec (.rd 0x002#12) s = .next { s with rdata := c.setWidth 32 })
      ∧ exec (.rd 0x004#12) s = .next { s with rdata := s.txdata.setWidth 32 }
      ∧ exec (.rd 0x005#12) s = .next { s with rdata := s.rxdata.setWidth 32 }
      ∧ exec (.rd 0x006#12) s = .next { s with rdata := s.len.setWidth 32 }
      ∧ exec (.rd 0x009#12) s = .next { s with rdata := s.owner.setWidth 32 }
      ∧ exec (.rd 0x00A#12) s = .next { s with rdata := s.ownerReq.setWidth 32 }
      ∧ exec (.rd 0x00B#12) s = .next { s with rdata := s.conflict.setWidth 32 }
      ∧ exec (.rd 0x00C#12) s = .next { s with rdata := s.pageIdx.setWidth 32 }
      ∧ exec (.rd 0x00E#12) s = .next { s with rdata := s.rxBytes }
      ∧ exec (.rd 0x00F#12) s = .next { s with rdata := s.txBytes }
      ∧ exec (.rd 0x010#12) s = .next { s with rdata := s.rxErr }
      ∧ exec (.rd 0x011#12) s = .next { s with rdata := s.txErr }
      ∧ exec (.rd 0x014#12) s = .next { s with rdata := s.tick }
      ∧ exec (.rd 0x015#12) s = .next { s with rdata := s.unitLen.setWidth 32 }

/-- R36, R145: a read of LATCH returns the latch in bit 0 and clears it; a write of LATCH is ignored. -/
def Obligations.LatchReadClears : Prop :=
  ∀ (s : State) (d : Word),
    exec (.rd 0x008#12) s = .next { s with rdata := if s.latch then 1 else 0, latch := false }
      ∧ exec (.wr 0x008#12 d) s = .next s

/-- R43: a read of RX_RATE or TX_RATE returns a fresh draw (whatever value it has) and has no other effect. -/
def Obligations.RateReadsAreDraws : Prop :=
  ∀ s : State,
    exec (.rd 0x012#12) s = .next { s with rdata := Config.rate s.draws, draws := s.draws + 1 }
      ∧ exec (.rd 0x013#12) s = .next { s with rdata := Config.rate s.draws, draws := s.draws + 1 }

/-- R26, R46: a reserved register number reads 0 and ignores writes. -/
def Obligations.ReservedNumbersReadZero : Prop :=
  ∀ (s : State) (r : RegNum) (d : Word),
    (0x016 ≤ r.toNat ∧ r.toNat ≤ 0x0FF) ∨ 0x100 + s.params.bufSize ≤ r.toNat →
      exec (.rd r) s = .next { s with rdata := 0 } ∧ exec (.wr r d) s = .next s

/-- R47: host access to `BUF[i]`: a model fault while a command is active; otherwise a write stores the low byte at index i and at no
other, and a read returns a byte that has been written and faults on one that has not. -/
def Obligations.BufAccess : Prop :=
  ∀ (s : State) (i : Nat) (r : RegNum) (d : Word), i < s.params.bufSize → r.toNat = 0x100 + i →
    (s.active = true → exec (.rd r) s = .fault .bufOwned ∧ exec (.wr r d) s = .fault .bufOwned)
      ∧ (s.active = false →
        (∃ m, exec (.wr r d) s = .next { s with buf := m }
            ∧ ∀ j, Cells.find j m = if j = i then some (d.setWidth 8) else Cells.find j s.buf)
          ∧ (∀ b, Cells.find i s.buf = some b → exec (.rd r) s = .next { s with rdata := b.setWidth 32 })
          ∧ (Cells.find i s.buf = none → exec (.rd r) s = .fault .undefRead))

/-- R28, R32, R34, R38, R62: what a write of a register other than CMD, CTRL and BUF changes. That a read-only register ignores a
write is the model's reading (log entry 10). -/
def Obligations.WrPlainRegisters : Prop :=
  ∀ (s : State) (d : Word),
    exec (.wr 0x004#12 d) s = .next { s with txdata := d.extractLsb' 0 8 }
      ∧ exec (.wr 0x006#12 d) s = .next { s with len := d.extractLsb' 0 16 }
      ∧ exec (.wr 0x00A#12 d) s = .next { s with ownerReq := d.extractLsb' 0 8 }
      ∧ exec (.wr 0x001#12 d) s = .next { s with overrun := if d.getLsbD 6 then false else s.overrun }
      ∧ ∀ r ∈ [0x002#12, 0x005#12, 0x007#12, 0x009#12, 0x00B#12, 0x00C#12, 0x00D#12, 0x00E#12, 0x00F#12, 0x010#12, 0x011#12,
          0x012#12, 0x013#12, 0x014#12, 0x015#12], exec (.wr r d) s = .next s

/-- R30, R217: a write of CTRL is ignored in full while a command is active; otherwise it sets the fields, drives SELECT with
SELECT_OUT where that changes, releases DATA where ROLE changes, and lowers IRQ where IE is 0. -/
def Obligations.WrCtrlSetsFields : Prop :=
  ∀ (s : State) (d : Word),
    (s.active = true → exec (.wr 0x003#12 d) s = .next s)
      ∧ (s.active = false → ∃ t, exec (.wr 0x003#12 d) s = .next t
        ∧ t = { s with ctrl := t.ctrl, dir := t.dir, irq := t.irq, out := { s.out with select := t.out.select } }
        ∧ (t.ctrl.role = .initiator ↔ d.getLsbD 0 = true) ∧ (t.ctrl.mode = .flash ↔ d.getLsbD 1 = true)
        ∧ t.ctrl.useLatch = d.getLsbD 2 ∧ t.ctrl.ie = d.getLsbD 3 ∧ t.ctrl.selectOut = d.getLsbD 4
        ∧ (t.ctrl.selectOut ≠ s.ctrl.selectOut → t.out.select = t.ctrl.selectOut)
        ∧ (t.ctrl.selectOut = s.ctrl.selectOut → t.out.select = s.out.select)
        ∧ (t.ctrl.role ≠ s.ctrl.role → t.dir = false) ∧ (t.ctrl.role = s.ctrl.role → t.dir = s.dir)
        ∧ t.irq = (s.irq && d.getLsbD 3))

/-- R87: acceptance of a CMD write. -/
def Obligations.CmdWriteAcceptance : Prop :=
  ∀ (s : State) (d : Word),
    (s.active = true → exec (.wr 0x000#12 d) s = .next { s with overrun := true })
      ∧ (s.active = false → s.seq = .fatal → d.extractLsb' 0 8 ≠ 0x0F#8 → exec (.wr 0x000#12 d) s = .next s)
      ∧ (s.active = false → ¬(s.seq = .fatal ∧ d.extractLsb' 0 8 ≠ 0x0F#8) →
        exec (.wr 0x000#12 d) s
          = .next { s with cur := d.extractLsb' 0 8, active := true, done := false, irq := false, phase := .start })

/-! ### The end and the first step of a command -/

/-- R212: the command-end bookkeeping. -/
def Obligations.CommandEndBookkeeping : Prop :=
  ∀ (code : ResultCode) (s : State),
    raise code s =
      { s with
        result := code
        active := false
        done := true
        cur := 0
        waitCnt := 0
        seq := if code = .ok ∨ code = .notImplemented then .idle else if code = .flashFail then .fatal else .aborted
        phase := .start
        irq := if s.ctrl.ie then true else s.irq }

/-- R88: the checks of the first step, in their order. -/
def Obligations.FirstStepChecks : Prop :=
  ∀ s : State, s.phase = .start →
    (∀ c : Byte, 0x10 ≤ c.toNat → exec (decodeCode c) s = .next (raise .illegalCmd s))
      ∧ (s.ctrl.role = .initiator →
        ∀ i ∈ [Instr.rearm, .rxHeader, .rxPayload, .rxClose, .rxUnit, .presession, .flashPage],
          exec i s = .next (raise .roleMismatch s))
      ∧ (s.ctrl.role = .responder →
        ∀ i ∈ [Instr.txHeader, .txPayload, .txClose, .txUnit], exec i s = .next (raise .roleMismatch s))
      ∧ (s.ctrl.role = .responder → s.ctrl.mode = .bridge → exec .flashPage s = .next (raise .modeMismatch s))
      ∧ (s.ctrl.mode = .flash → exec .dispatch s = .next (raise .modeMismatch s))
      ∧ (s.ctrl.mode = .bridge → s.params.bufSize < s.len.toNat + 1 →
        (s.ctrl.role = .responder → exec .rxUnit s = .next (raise .lenRange s))
          ∧ (s.ctrl.role = .initiator → exec .txUnit s = .next (raise .lenRange s)))
      ∧ (s.ctrl.role = .initiator → s.ctrl.mode = .bridge → s.len.toNat + 1 ≤ s.params.bufSize →
        (∃ i ≤ s.len.toNat, bufDef s i = false) → exec .txUnit s = .fault .undefRead)
      ∧ (s.ctrl.role = .initiator → s.ctrl.mode = .flash → (∃ i ≤ 128, bufDef s i = false) →
        exec .txUnit s = .fault .undefRead)
      ∧ (s.ctrl.mode = .bridge → s.unitValid = false → exec .dispatch s = .next (raise .noUnit s))

/-- R114, R85: NOP ends with OK and an illegal code with ILLEGAL_CMD, and neither changes anything else. -/
def Obligations.NopAndIllegalEnd : Prop :=
  ∀ s : State,
    exec .nop s = .next (raise .ok s) ∧ decodeCode 0x00#8 = .nop
      ∧ ∀ c : Byte, 0x10 ≤ c.toNat → decodeCode c = .illegal c ∧ exec (.illegal c) s = .next (raise .illegalCmd s)

/-! ### Single-byte transport -/

/-- R115: REARM as Responder. -/
def Obligations.RearmArmsTheLink : Prop :=
  ∀ s : State,
    (s.ctrl.role = .responder → exec .rearm s = .next (raise .ok { s with out := { s.out with ack := true }, pol := true, idx := 0 }))
      ∧ (s.ctrl.role = .initiator → exec .rearm s = .next (raise .roleMismatch s))

/-- R116, R113: RX_HEADER as Responder, step by step. -/
def Obligations.RxHeaderTakesTheByte : Prop :=
  ∀ s : State, (s.phase = .start → s.ctrl.role = .initiator → exec .rxHeader s = .next (raise .roleMismatch s)) ∧
    (s.ctrl.role = .responder →
      (s.phase = .start → s.out.ack = false → exec .rxHeader s = .next (raise .notArmed s))
        ∧ (s.phase = .start → s.out.ack = true →
          exec .rxHeader s = .next { s with seq := .hdrWait, waitCnt := 0, phase := .run })
        ∧ (s.phase = .run → (wire s).valid = true →
          exec .rxHeader s = .next (raise .ok
          { s with rxdata := (wire s).data, out := { s.out with ack := false }, pol := false }))
        ∧ (s.phase = .run → (wire s).valid = false → s.waitCnt + 1 ≠ s.params.waitBudget →
          exec .rxHeader s = .next { s with waitCnt := s.waitCnt + 1 })
        ∧ (s.phase = .run → (wire s).valid = false → s.waitCnt + 1 = s.params.waitBudget →
          exec .rxHeader s = .next (raise .handshakeTimeout s)))

/-- R117, R113: RX_PAYLOAD as Responder, step by step. -/
def Obligations.RxPayloadTogglesAck : Prop :=
  ∀ s : State, (s.phase = .start → s.ctrl.role = .initiator → exec .rxPayload s = .next (raise .roleMismatch s)) ∧
    (s.ctrl.role = .responder →
      (s.phase = .start → exec .rxPayload s = .next { s with seq := .payWait, waitCnt := 0, phase := .run })
        ∧ (s.phase = .run → (wire s).valid = s.out.ack →
          exec .rxPayload s = .next (raise .ok
          { s with rxdata := (wire s).data, out := { s.out with ack := !s.out.ack }, pol := !s.out.ack }))
        ∧ (s.phase = .run → (wire s).valid ≠ s.out.ack → s.waitCnt + 1 ≠ s.params.waitBudget →
          exec .rxPayload s = .next { s with waitCnt := s.waitCnt + 1 })
        ∧ (s.phase = .run → (wire s).valid ≠ s.out.ack → s.waitCnt + 1 = s.params.waitBudget →
          exec .rxPayload s = .next (raise .handshakeTimeout s)))

/-- R121, R113: RX_CLOSE as Responder, step by step. -/
def Obligations.RxCloseWaitsForLow : Prop :=
  ∀ s : State, (s.phase = .start → s.ctrl.role = .initiator → exec .rxClose s = .next (raise .roleMismatch s)) ∧
    (s.ctrl.role = .responder →
      (s.phase = .start → exec .rxClose s = .next { s with seq := .closeWait, waitCnt := 0, phase := .run })
        ∧ (s.phase = .run → (wire s).valid = false → exec .rxClose s = .next (raise .ok s))
        ∧ (s.phase = .run → (wire s).valid = true → s.waitCnt + 1 ≠ s.params.waitBudget →
          exec .rxClose s = .next { s with waitCnt := s.waitCnt + 1 })
        ∧ (s.phase = .run → (wire s).valid = true → s.waitCnt + 1 = s.params.waitBudget →
          exec .rxClose s = .next (raise .handshakeTimeout s)))

/-- R118, R113: TX_HEADER as Initiator, step by step, with a polling wait (the latch-mode wait is a statement of its own). -/
def Obligations.TxHeaderRaisesValid : Prop :=
  ∀ s : State, s.ctrl.role = .initiator →
    (s.phase = .start → s.out.valid = true → exec .txHeader s = .next (raise .notArmed s))
      ∧ (s.phase = .start → s.out.valid = false →
        exec .txHeader s
          = .next { s with dir := true, out := { s.out with data := s.txdata }, seq := .hdrWait, phase := .drive })
      ∧ (s.phase = .drive →
        exec .txHeader s
          = .next { s with out := { s.out with valid := true }, seq := .hdrWait, waitCnt := 0, phase := .run })
      ∧ (s.phase = .run → (s.ctrl.useLatch = false ∨ s.owner = 0) →
        (s.peer.ack ≠ s.out.valid → exec .txHeader s = .next (raise .ok { s with pol := false }))
          ∧ (s.peer.ack = s.out.valid → s.waitCnt + 1 ≠ s.params.waitBudget →
            exec .txHeader s = .next { s with waitCnt := s.waitCnt + 1 })
          ∧ (s.peer.ack = s.out.valid → s.waitCnt + 1 = s.params.waitBudget →
            exec .txHeader s = .next (raise .handshakeTimeout s)))

/-- R119, R113: TX_PAYLOAD as Initiator, step by step, with a polling wait. -/
def Obligations.TxPayloadTogglesValid : Prop :=
  ∀ s : State, s.ctrl.role = .initiator →
    (s.phase = .start → s.dir = false → exec .txPayload s = .next (raise .notArmed s))
      ∧ (s.phase = .start → s.dir = true →
        exec .txPayload s = .next { s with out := { s.out with data := s.txdata }, seq := .payWait, phase := .drive })
      ∧ (s.phase = .drive →
        exec .txPayload s
          = .next { s with out := { s.out with valid := !s.out.valid }, seq := .payWait, waitCnt := 0, phase := .run })
      ∧ (s.phase = .run → (s.ctrl.useLatch = false ∨ s.owner = 0) →
        (s.peer.ack ≠ s.out.valid → exec .txPayload s = .next (raise .ok { s with pol := !s.out.valid }))
          ∧ (s.peer.ack = s.out.valid → s.waitCnt + 1 ≠ s.params.waitBudget →
            exec .txPayload s = .next { s with waitCnt := s.waitCnt + 1 })
          ∧ (s.peer.ack = s.out.valid → s.waitCnt + 1 = s.params.waitBudget →
            exec .txPayload s = .next (raise .handshakeTimeout s)))

/-- R120: TX_CLOSE as Initiator. -/
def Obligations.TxCloseDropsValid : Prop :=
  ∀ s : State,
    (s.ctrl.role = .initiator → exec .txClose s = .next (raise .ok { s with out := { s.out with valid := false }, dir := false, pol := true }))
      ∧ (s.ctrl.role = .responder → exec .txClose s = .next (raise .roleMismatch s))

/-- R112: the latch-mode sample of TX_HEADER, TX_PAYLOAD and TX_UNIT: a set latch is taken, and the wait ends only where the level
confirms it; a clear latch is a failed sample whatever the level is. -/
def Obligations.LatchModeSample : Prop :=
  ∀ s : State, s.ctrl.role = .initiator → s.phase = .run → s.ctrl.useLatch = true → s.owner ≠ 0 →
    (s.latch = true → s.peer.ack ≠ s.out.valid →
        exec .txHeader s = .next (raise .ok { s with latch := false, pol := false })
          ∧ exec .txPayload s = .next (raise .ok { s with latch := false, pol := !s.out.valid })
          ∧ (∀ k pol, (s.seq = .hdrWait ∧ k = 1 ∧ pol = false) ∨ (s.seq = .payWait ∧ k = s.idx + 1 ∧ pol = !s.out.valid) →
            (k.toNat ≤ s.unitN.toNat → ∀ b, Cells.find k.toNat s.buf = some b → exec .txUnit s = .next
                { s with
                  latch := false, pol := pol, idx := k, out := { s.out with data := b }, seq := .payWait, phase := .drive })
              ∧ (s.unitN.toNat < k.toNat → exec .txUnit s = .next (raise .ok
                { s with
                  latch := false, pol := true, idx := k, out := { s.out with valid := false }, dir := false
                  txBytes := s.txBytes + (s.unitN + 1).setWidth 32 }))))
      ∧ (s.latch = false ∨ s.peer.ack = s.out.valid →
        (s.waitCnt + 1 ≠ s.params.waitBudget →
            (∀ i ∈ [Instr.txHeader, .txPayload], exec i s = .next { s with latch := false, waitCnt := s.waitCnt + 1 })
              ∧ (s.seq = .hdrWait ∨ s.seq = .payWait →
                exec .txUnit s = .next { s with latch := false, waitCnt := s.waitCnt + 1 }))
          ∧ (s.waitCnt + 1 = s.params.waitBudget →
            (∀ i ∈ [Instr.txHeader, .txPayload], exec i s = .next (raise .handshakeTimeout { s with latch := false }))
              ∧ (s.seq = .hdrWait ∨ s.seq = .payWait →
                exec .txUnit s = .next (raise .handshakeTimeout { s with latch := false, txErr := s.txErr + 1 }))))

/-- R112, R148: a latch-mode sample that ends a wait by an acknowledgment (it leaves the wait, and the command either goes on or has not
timed out) does so only where a polling sample of the same state would have, with the same end but for the latch. -/
def Obligations.LatchModeEndsWherePollingWould : Prop :=
  ∀ (s t : State), s.phase = .run → s.active = true → s.ctrl.useLatch = true → s.owner ≠ 0 →
    ∀ i ∈ [Instr.txHeader, .txPayload, .txUnit], exec i s = .next t →
      t.phase ≠ .run → (t.active = true ∨ t.result ≠ .handshakeTimeout) →
        exec i { s with ctrl := { s.ctrl with useLatch := false }, latch := false }
          = .next { t with ctrl := { t.ctrl with useLatch := false }, latch := false }

/-- R123: an RX_PAYLOAD that ends with OK leaves POL at the new ACK level, which is the other one, so POL alternates over consecutive
commands. -/
def Obligations.RxPayloadAlternatesPolarity : Prop :=
  ∀ s t : State, s.ctrl.role = .responder → s.active = true → exec .rxPayload s = .next t → t.active = false → t.result = .ok →
    t.pol = t.out.ack ∧ t.out.ack = !s.out.ack

/-! ### Edge capture -/

/-- R140, R141: RESERVE. The allocation is a draw: the statement holds for either outcome. -/
def Obligations.ReserveTakesOwnership : Prop :=
  ∀ s : State,
    (s.ownerReq = 0 → exec .reserve s = .next (raise .badId s))
      ∧ (s.ownerReq ≠ 0 → s.owner ≠ 0 → exec .reserve s = .next (raise .reserveConflict { s with conflict := s.owner }))
      ∧ (s.ownerReq ≠ 0 → s.owner = 0 → s.params.reserveAlwaysAllocates = true →
        exec .reserve s = .next (raise .ok
          { s with owner := s.ownerReq, latch := false, edgePend := false, mon := (wire s).ack }))
      ∧ (s.ownerReq ≠ 0 → s.owner = 0 → s.params.reserveAlwaysAllocates = false →
        exec .reserve s = .next (if Config.allocOk s.draws = true then raise .ok
            { s with owner := s.ownerReq, latch := false, edgePend := false, mon := (wire s).ack, draws := s.draws + 1 }
          else raise .reserveNoRes { s with draws := s.draws + 1 }))

/-- R142: RELEASE. -/
def Obligations.ReleaseFreesTheSource : Prop :=
  ∀ s : State,
    ((s.owner = 0 ∨ s.owner ≠ s.ownerReq) → exec .release s = .next (raise .notOwner s))
      ∧ (s.owner ≠ 0 → s.owner = s.ownerReq →
        exec .release s = .next (raise .ok { s with owner := 0, latch := false, edgePend := false }))

/-- R143: the EdgeCapture step, where EDGE_PEND is set and where it is not. -/
def Obligations.EdgeCaptureSetsTheLatch : Prop :=
  ∀ s : State,
    (s.edgePend = true → agentStep .edgeCapture s = .next { s with latch := true, edgePend := false })
      ∧ (s.edgePend = false → agentStep .edgeCapture s = .next s)

/-- R144: at the end of every step of every agent MON is the level of the monitored line, and EDGE_PEND is set exactly where the level
changed while the source is owned and the block is Initiator, and otherwise stays as the agent left it. -/
def Obligations.EdgeDetectionEndsEveryStep : Prop :=
  ∀ s t : State, step s = .next t →
    ∃ u, agentStep (nextTurn s) { s with turns := s.turns.tail } = .next u ∧ t.mon = (wire t).ack ∧ (wire t).ack = (wire u).ack
      ∧ t.edgePend
        = if (wire u).ack ≠ u.mon ∧ u.owner ≠ 0 ∧ u.ctrl.role = .initiator then true else u.edgePend

/-- R147: LATCH becomes 1 only in an EdgeCapture step with EDGE_PEND set; it becomes 0 only in a host read of LATCH, a latch-mode
sample, a RESERVE, a RELEASE or a reset. -/
def Obligations.LatchWriters : Prop :=
  ∀ s t : State, step s = .next t →
    (s.latch = false → t.latch = true → nextTurn s = .edgeCapture ∧ s.edgePend = true)
      ∧ (s.latch = true → t.latch = false →
        nextTurn s = .powerUp
          ∨ (∃ w, nextTurn s = .host w ∧ decodeHost w = .rd 0x008#12)
          ∨ (nextTurn s = .engine ∧ s.active = true
            ∧ (decodeCode s.cur ∈ [Instr.reserve, .release, .reset, .dispatch]
              ∨ (decodeCode s.cur ∈ [Instr.txHeader, .txPayload, .txUnit] ∧ s.phase = .run ∧ s.ctrl.useLatch = true
                ∧ s.owner ≠ 0))))

/-! ### Units -/

/-- R161: RX_UNIT, step by step: the first step, the header, a payload byte, the close in either mode. -/
def Obligations.RxUnitReceives : Prop :=
  ∀ s : State,
    (s.phase = .start → s.ctrl.role = .responder → (s.ctrl.mode = .flash ∨ s.len.toNat + 1 ≤ s.params.bufSize) →
        exec .rxUnit s = .next
          { s with
            unitN := if s.ctrl.mode = .flash then 128 else s.len.setWidth 17
            unitValid := false, unitLen := 0, out := { s.out with ack := true }, pol := true, idx := 0
            seq := .hdrWait, waitCnt := 0, phase := .run })
      ∧ (s.phase = .run → s.seq = .hdrWait → (wire s).valid = true →
        ∃ m, (∀ j, Cells.find j m = if j = 0 then some (wire s).data else Cells.find j s.buf)
          ∧ exec .rxUnit s = .next
            { s with
              buf := m, out := { s.out with ack := false }, pol := false, idx := 1
              seq := if 1 ≤ s.unitN.toNat then .payWait else .closeWait, waitCnt := 0, phase := .run })
      ∧ (s.phase = .run → s.seq = .payWait → (wire s).valid = s.out.ack →
        ∃ m, (∀ j, Cells.find j m = if j = s.idx.toNat then some (wire s).data else Cells.find j s.buf)
          ∧ exec .rxUnit s = .next
            { s with
              buf := m, out := { s.out with ack := !s.out.ack }, pol := !s.out.ack, idx := s.idx + 1
              seq := if (s.idx + 1).toNat ≤ s.unitN.toNat then .payWait else .closeWait, waitCnt := 0, phase := .run })
      ∧ (s.phase = .run → s.seq = .closeWait → (wire s).valid = false → ∀ b h,
        Cells.find s.unitN.toNat s.buf = some b → Cells.find 0 s.buf = some h →
          (s.ctrl.mode = .bridge → exec .rxUnit s = .next
            { s with
              unitValid := true, unitLen := s.unitN + 1, rxdata := b
              rxBytes := s.rxBytes + (s.unitN + 1).setWidth 32
              out := { s.out with ready := true }, seq := .pulse, pulseCnt := 0 })
            ∧ (s.ctrl.mode = .flash → exec .rxUnit s = .next (raise .ok
              { s with
                unitValid := true, unitLen := s.unitN + 1, rxdata := b, pageIdx := h
                rxBytes := s.rxBytes + (s.unitN + 1).setWidth 32 })))

/-- R111, R162, R167: a failed sample of a unit receive counts, and does nothing else while the budget is not spent; the sample that
spends it fails the unit: no byte of it stays readable and no unit is valid; the failure is counted; in Flash mode it blinks; program
memory and the lines stay. -/
def Obligations.FailedUnitIsDiscarded : Prop :=
  ∀ s : State, s.phase = .run →
    (s.seq = .hdrWait ∧ (wire s).valid = false) ∨ (s.seq = .payWait ∧ (wire s).valid ≠ s.out.ack)
      ∨ (s.seq = .closeWait ∧ (wire s).valid = true) →
    ∀ i ∈ [Instr.rxUnit, .flashPage],
      (s.waitCnt + 1 ≠ s.params.waitBudget → exec i s = .next { s with waitCnt := s.waitCnt + 1 })
        ∧ (s.waitCnt + 1 = s.params.waitBudget →
          ∃ m, (∀ j, Cells.find j m = if j ≤ s.unitN.toNat then none else Cells.find j s.buf)
            ∧ (s.ctrl.mode = .flash → exec i s = .next (raise .pageReadFail
              { s with
                buf := m, unitValid := false, unitLen := 0, rxErr := s.rxErr + 1
                history := s.history ++ [.blink .pageReadFail] }))
            ∧ (s.ctrl.mode = .bridge → exec i s = .next (raise .handshakeTimeout
              { s with buf := m, unitValid := false, unitLen := 0, rxErr := s.rxErr + 1 })))

/-- R165: a later step of the READY pulse, of RX_UNIT and of FLASH_PAGE; the last one lowers READY and ends the command with OK. -/
def Obligations.ReadyPulseEnds : Prop :=
  ∀ s : State, s.phase = .run → s.seq = .pulse → ∀ i ∈ [Instr.rxUnit, .flashPage],
    (s.pulseCnt + 1 ≠ s.params.readyPulse → exec i s = .next { s with pulseCnt := s.pulseCnt + 1 })
      ∧ (s.pulseCnt + 1 = s.params.readyPulse →
        exec i s = .next (raise .ok { s with pulseCnt := s.pulseCnt + 1, out := { s.out with ready := false } }))

/-- R164, R166, R167: TX_UNIT, step by step, with polling waits: the first step, the two VALID drives, the two acknowledgments, the
close, a failed sample, the timeout. -/
def Obligations.TxUnitSends : Prop :=
  ∀ s : State,
    (s.phase = .start → s.ctrl.role = .initiator → (s.ctrl.mode = .flash ∨ s.len.toNat + 1 ≤ s.params.bufSize) →
      BytesHeld s ((if s.ctrl.mode = .flash then 128 else s.len.toNat) + 1) →
        (s.out.valid = true → exec .txUnit s = .next (raise .notArmed s))
          ∧ (s.out.valid = false → ∀ b, Cells.find 0 s.buf = some b → exec .txUnit s = .next
            { s with
              unitN := if s.ctrl.mode = .flash then 128 else s.len.setWidth 17
              dir := true, out := { s.out with data := b }, seq := .hdrWait, phase := .drive }))
      ∧ (s.phase = .drive → s.seq = .hdrWait → exec .txUnit s
        = .next { s with out := { s.out with valid := true }, waitCnt := 0, phase := .run })
      ∧ (s.phase = .drive → s.seq = .payWait → exec .txUnit s
        = .next { s with out := { s.out with valid := !s.out.valid }, waitCnt := 0, phase := .run })
      ∧ (s.phase = .run → s.ctrl.role = .initiator → (s.ctrl.useLatch = false ∨ s.owner = 0) → ∀ k pol,
        (s.seq = .hdrWait ∧ k = 1 ∧ pol = false) ∨ (s.seq = .payWait ∧ k = s.idx + 1 ∧ pol = !s.out.valid) →
          (s.peer.ack ≠ s.out.valid → k.toNat ≤ s.unitN.toNat → ∀ b, Cells.find k.toNat s.buf = some b →
              exec .txUnit s
                = .next { s with pol := pol, idx := k, out := { s.out with data := b }, seq := .payWait, phase := .drive })
            ∧ (s.peer.ack ≠ s.out.valid → s.unitN.toNat < k.toNat → exec .txUnit s = .next (raise .ok
              { s with
                pol := true, idx := k, out := { s.out with valid := false }, dir := false
                txBytes := s.txBytes + (s.unitN + 1).setWidth 32 }))
            ∧ (s.peer.ack = s.out.valid → s.waitCnt + 1 ≠ s.params.waitBudget →
              exec .txUnit s = .next { s with waitCnt := s.waitCnt + 1 })
            ∧ (s.peer.ack = s.out.valid → s.waitCnt + 1 = s.params.waitBudget →
              exec .txUnit s = .next (raise .handshakeTimeout { s with txErr := s.txErr + 1 })))

/-- R42, R166, R167: only a receive of a unit changes RX_BYTES and RX_ERR and only a send of a unit TX_BYTES and TX_ERR, but for the
resets. -/
def Obligations.OnlyUnitCommandsCount : Prop :=
  ∀ (i : Instr) (s t : State), exec i s = .next t → i ∉ [Instr.reset, .reboot, .dispatch] →
    (i ∉ [Instr.rxUnit, .flashPage] → t.rxBytes = s.rxBytes ∧ t.rxErr = s.rxErr)
      ∧ (i ≠ .txUnit → t.txBytes = s.txBytes ∧ t.txErr = s.txErr)

/-! ### Page flash and session start -/

/-- R169: FLASH_PAGE up to the commit: the first step, the header, a payload byte, the close sample, which delivers the unit and goes to
COMMIT. -/
def Obligations.FlashPageReceives : Prop :=
  ∀ s : State, s.ctrl.mode = .flash →
    (s.phase = .start → s.ctrl.role = .responder → exec .flashPage s = .next
        { s with
          unitN := 128, unitValid := false, unitLen := 0, out := { s.out with ack := true }, pol := true, idx := 0
          seq := .hdrWait, waitCnt := 0, phase := .run })
      ∧ (s.phase = .run → s.seq = .hdrWait → (wire s).valid = true → s.unitN = 128 →
        ∃ m, (∀ j, Cells.find j m = if j = 0 then some (wire s).data else Cells.find j s.buf)
          ∧ exec .flashPage s = .next
            { s with buf := m, out := { s.out with ack := false }, pol := false, idx := 1, seq := .payWait, waitCnt := 0 })
      ∧ (s.phase = .run → s.seq = .payWait → (wire s).valid = s.out.ack → s.unitN = 128 →
        ∃ m, (∀ j, Cells.find j m = if j = s.idx.toNat then some (wire s).data else Cells.find j s.buf)
          ∧ exec .flashPage s = .next
            { s with
              buf := m, out := { s.out with ack := !s.out.ack }, pol := !s.out.ack, idx := s.idx + 1
              seq := if (s.idx + 1).toNat ≤ 128 then .payWait else .closeWait, waitCnt := 0 })
      ∧ (s.phase = .run → s.seq = .closeWait → (wire s).valid = false → s.unitN = 128 → ∀ b h,
        Cells.find 128 s.buf = some b → Cells.find 0 s.buf = some h → exec .flashPage s = .next
          { s with
            unitValid := true, unitLen := 129, rxdata := b, pageIdx := h, rxBytes := s.rxBytes + 129, seq := .commit })

/-- R170, R172, R178: the commit. A protected page is refused with no write; otherwise, where the draw `flash_ok` is true, payload byte
k is at byte address `index * 128 + k`, every other address reads as before, and the pulse begins; where it is false, the page's bytes
hold draws, every other address reads as before, and the command ends in FATAL. -/
def Obligations.CommitWritesThePage : Prop :=
  ∀ (s : State) (page : Byte), s.phase = .run → s.seq = .commit → Cells.find 0 s.buf = some page → BytesHeld s 129 →
    (page ∈ s.params.protectedPages → exec .flashPage s
        = .next (raise .pageProtected { s with history := s.history ++ [.blink .pageProtected] }))
      ∧ (page ∉ s.params.protectedPages → ∃ m d,
        (∀ a, (a < page.toNat * 128 ∨ page.toNat * 128 + 128 ≤ a) → Prog.find a m = Prog.find a s.progMem)
          ∧ (if Config.flashOk s.draws = true then
              (∀ k, k < 128 → some (Prog.find (page.toNat * 128 + k) m) = Cells.find (1 + k) s.buf)
                ∧ exec .flashPage s = .next
                  { s with
                    progMem := m, draws := d, out := { s.out with ready := true }, seq := .pulse, pulseCnt := 0 }
            else
              (∃ n, ∀ k, k < 128 → Prog.find (page.toNat * 128 + k) m = Config.erasedByte n k)
                ∧ exec .flashPage s = .next (raise .flashFail
                  { s with progMem := m, draws := d, history := s.history ++ [.blink .flashFail] })))

/-- R65: word j of a page is `payload[2j] | payload[2j+1] << 8`, and a page write puts the bytes of the words back in the order of the
wire. -/
def Obligations.PageWordsAreLittleEndian : Prop :=
  ∀ bs : List Byte, bs.length = 128 →
    (wordsOfBytes bs).length = 64
      ∧ (∀ j, j < 64 → (wordsOfBytes bs)[j]? = (match bs[2 * j]?, bs[2 * j + 1]? with
          | some lo, some hi => some (BitVec.ofNat 16 (lo.toNat + 256 * hi.toNat))
          | _, _ => none))
      ∧ bytesOfWords (wordsOfBytes bs) = bs

/-- R173, R174: PRESESSION: the first step; a sample before SELECT has been sustained; the timeout. -/
def Obligations.PresessionWaitsForSelect : Prop :=
  ∀ s : State,
    (s.phase = .start → s.ctrl.role = .responder → exec .presession s = .next
        { s with out := { s.out with busy := true }, stableCnt := 0, seq := .preWait, waitCnt := 0, phase := .run })
      ∧ (s.phase = .run → ∀ k, k = (if (wire s).select then s.stableCnt + 1 else 0) → k ≠ s.params.selectStable →
        (s.waitCnt + 1 ≠ s.params.waitBudget →
            exec .presession s = .next { s with stableCnt := k, waitCnt := s.waitCnt + 1 })
          ∧ (s.waitCnt + 1 = s.params.waitBudget → exec .presession s = .next (raise .noSession
            { s with
              stableCnt := k, out := { s.out with busy := false }, history := s.history ++ [.blink .noSession] })))

/-- R90, R174: the three pre-session bytes, and the sample that completes the sustained SELECT, which runs the instruction the byte on
DATA decodes to. -/
def Obligations.PresessionByteDecides : Prop :=
  ∀ s : State,
    exec .preSentinel s = .next (raise .sentinelAbort
        { s with rxdata := 0xFF, out := { s.out with busy := false }, history := s.history ++ [.blink .sentinelAbort] })
      ∧ exec .preBootReq s = .next (raise .ok
        { s with
          rxdata := s.params.bootReq, out := { s.out with busy := false }, ctrl := { s.ctrl with mode := .flash } })
      ∧ (∀ b, exec (.preOther b) s = .next (raise .unsupported
        { s with rxdata := b, out := { s.out with busy := false }, history := s.history ++ [.blink .unsupported] }))
      ∧ (s.phase = .run → (if (wire s).select then s.stableCnt + 1 else 0) = s.params.selectStable →
        ∃ t, exec .presession s = .next t
          ∧ exec (if (wire s).data = 0xFF then .preSentinel
              else if (wire s).data = s.params.bootReq then .preBootReq else .preOther (wire s).data)
            { s with stableCnt := s.params.selectStable } = .next t)

/-! ### The dispatcher -/

/-- R190, R191: DISPATCH of a valid Bridge frame runs the instruction its first byte decodes to, with STATE at DISPATCH. -/
def Obligations.DispatchRunsTheHandler : Prop :=
  ∀ (s : State) (op : Byte), s.ctrl.mode = .bridge → s.unitValid = true → Cells.find 0 s.buf = some op →
    ∃ t, exec .dispatch s = .next t ∧ exec (decodeOpcode s.params op) { s with seq := .dispatch } = .next t

/-- R193: the placeholder handlers, each with its index (R91, R92). -/
def Obligations.PlaceholdersReport : Prop :=
  ∀ s : State, ∀ h ∈ [(Instr.getlog, 1#4, s.params.opGetlog), (.getconfig, 2#4, s.params.opGetconfig),
      (.setconfig, 3#4, s.params.opSetconfig), (.storageInfo, 4#4, s.params.opStorageInfo),
      (.storageRead, 5#4, s.params.opStorageRead), (.storageWrite, 6#4, s.params.opStorageWrite)],
    exec h.1 s = .next (raise .notImplemented
      { s with
        dispOut :=
          { outcome := .notImplemented, handler := h.2.1, opcode := h.2.2, count := s.dispOut.count + 1 } })

/-- R196: the packet router, where OP_PACKET is configured and the frame in BUF is held: PACKET carries the payload bytes
`BUF[1 .. UNIT_LEN-1]` in their order. -/
def Obligations.PacketForwardsThePayload : Prop :=
  ∀ (s : State) (op : Byte), s.params.opPacket = some op → BytesHeld s s.unitLen.toNat → ∃ bs : List Byte,
    bs.length = s.unitLen.toNat - 1
      ∧ (∀ k, k < s.unitLen.toNat - 1 → bs[k]? = Cells.find (1 + k) s.buf)
      ∧ exec .packet s = .next (raise .ok
        { s with
          history := s.history ++ [.packet bs]
          dispOut := { outcome := .packet, handler := 7, opcode := op, count := s.dispOut.count + 1 } })

/-- R194, R195: an unknown opcode and the byte 0xFF run no handler: only the end of the command, with OK. -/
def Obligations.UnknownOpcodesAreSilent : Prop :=
  ∀ (s : State) (b : Byte),
    exec (.opUnknown b) s = .next (raise .ok s) ∧ exec .opSentinel s = .next (raise .ok s)
      ∧ (s.params.wf = true → b = 0xFF ∨ b ∉ s.params.opcodes →
        exec (decodeOpcode s.params b) s = .next (raise .ok s))

/-! ### The machine -/

/-- R13, R80, R87, R88: a step runs the decoded instruction: the Host's turn runs its transaction, the Engine's turn one step of the
active command; what the step adds is that the turn is taken out of store and the end of the step. -/
def Obligations.StepRunsTheDecodedInstruction : Prop :=
  ∀ (s : State) (rest : List Turn) (i : Instr),
    ((∃ w, s.turns = .host w :: rest ∧ decodeHost w = i)
        ∨ (s.turns = .engine :: rest ∧ s.active = true ∧ decodeCode s.cur = i)) →
      (∀ t, exec i { s with turns := rest } = .next t → step s = .next (endStep s t))
        ∧ (∀ f, exec i { s with turns := rest } = .fault f → step s = .fault f)
        ∧ (∀ r, exec i { s with turns := rest } = .refused r → step s = .refused r)

/-- R21, R213, R219, R241: the steps that run no instruction: the Tick, the Peer, power-up, and the Engine with no command active. -/
def Obligations.OtherAgentsStep : Prop :=
  ∀ (s : State) (rest : List Turn) (m : PeerMove),
    (s.turns = .tick :: rest → step s = .next (endStep s { s with turns := rest, tick := s.tick + 1 }))
      ∧ (s.turns = .peer m :: rest → step s = .next (endStep s
        { s with
          turns := rest
          peer :=
            { data := m.data.getD s.peer.data, valid := m.valid.getD s.peer.valid, ack := m.ack.getD s.peer.ack
              select := m.select.getD s.peer.select, ready := m.ready.getD s.peer.ready
              busy := m.busy.getD s.peer.busy } }))
      ∧ (s.turns = .engine :: rest → s.active = false → step s = .next (endStep s { s with turns := rest }))
      ∧ (s.turns = .powerUp :: rest → ∃ t, step s = .next (endStep s t) ∧ AtResetValues t ∧ t.progMem = s.progMem
        ∧ t.peer = s.peer ∧ t.params = s.params ∧ t.turns = rest)

/-- R51, R124: the event history only grows, and a step records every change of a line and of IRQ, once, with the new level, and no
change of a line or of IRQ that did not change. -/
def Obligations.HistoryRecordsEveryChange : Prop :=
  ∀ s t : State, step s = .next t →
    ∃ es, t.history = s.history ++ es ∧ es.Nodup
      ∧ ((wire t).valid ≠ (wire s).valid → .line .valid (wire t).valid ∈ es)
      ∧ ((wire t).ack ≠ (wire s).ack → .line .ack (wire t).ack ∈ es)
      ∧ ((wire t).select ≠ (wire s).select → .line .select (wire t).select ∈ es)
      ∧ ((wire t).ready ≠ (wire s).ready → .line .ready (wire t).ready ∈ es)
      ∧ ((wire t).busy ≠ (wire s).busy → .line .busy (wire t).busy ∈ es)
      ∧ ((wire t).data ≠ (wire s).data → .data (wire t).data ∈ es)
      ∧ (t.irq ≠ s.irq → .irq t.irq ∈ es)
      ∧ (∀ v, .line .valid v ∈ es → v = (wire t).valid ∧ v ≠ (wire s).valid)
      ∧ (∀ v, .line .ack v ∈ es → v = (wire t).ack ∧ v ≠ (wire s).ack)
      ∧ (∀ v, .line .select v ∈ es → v = (wire t).select ∧ v ≠ (wire s).select)
      ∧ (∀ v, .line .ready v ∈ es → v = (wire t).ready ∧ v ≠ (wire s).ready)
      ∧ (∀ v, .line .busy v ∈ es → v = (wire t).busy ∧ v ≠ (wire s).busy)
      ∧ (∀ b, .data b ∈ es → b = (wire t).data ∧ b ≠ (wire s).data)
      ∧ (∀ v, .irq v ∈ es → v = t.irq ∧ v ≠ s.irq)

/-- R64: program memory changes only in the commit step of FLASH_PAGE. -/
def Obligations.OnlyTheCommitWritesProgramMemory : Prop :=
  ∀ s t : State, step s = .next t → t.progMem ≠ s.progMem →
    nextTurn s = .engine ∧ s.active = true ∧ s.cur = 0x0D ∧ s.phase ≠ .start ∧ s.seq = .commit

/-- What every instruction leaves of the elements that are not lines, sequencer or counters (those stand in the statements of each
instruction): the parameters, the Peer's levels and the inputs in store never change; program memory only in
FLASH_PAGE; BUF only in WR, RX_UNIT and FLASH_PAGE and the resets; TXDATA, LEN and OWNER_REQ only in WR and the resets; what a host read
returned only in RD; OWNER and CONFLICT only in RESERVE and RELEASE, DISP_OUT only in DISPATCH and its handlers, and the resets. -/
def Obligations.EveryInstructionFrame : Prop :=
  ∀ (i : Instr) (s t : State), exec i s = .next t →
    t.params = s.params ∧ t.peer = s.peer ∧ t.turns = s.turns
      ∧ (i ≠ .flashPage → ∀ a, progRead t a = progRead s a)
      ∧ ((∀ r, i ≠ .rd r) → t.rdata = s.rdata)
      ∧ (i ∉ [Instr.reset, .reboot, .dispatch] →
        (i ∉ [Instr.rxUnit, .flashPage] → (∀ r d, i ≠ .wr r d) → ∀ a, Cells.find a t.buf = Cells.find a s.buf)
          ∧ ((∀ r d, i ≠ .wr r d) → t.txdata = s.txdata ∧ t.len = s.len ∧ t.ownerReq = s.ownerReq)
          ∧ (i ∉ [Instr.reserve, .release] → t.owner = s.owner ∧ t.conflict = s.conflict)
          ∧ (i ∉ [Instr.getlog, .getconfig, .setconfig, .storageInfo, .storageRead, .storageWrite, .packet] →
            t.dispOut = s.dispOut))

/-- R44, R219: TICK is written only by the Tick agent, which adds 1, and by a reset. -/
def Obligations.OnlyTheTickAgentCounts : Prop :=
  ∀ s t : State, step s = .next t →
    (nextTurn s = .tick → t.tick = s.tick + 1)
      ∧ (nextTurn s ≠ .tick → t.tick ≠ s.tick →
        nextTurn s = .powerUp ∨ (nextTurn s = .engine ∧ s.active = true ∧ (s.cur = 0x0E ∨ s.cur = 0x0F)))

/-- R111, R30, R87: no host access ends a wait or touches the running command: the command stays active where it was, with CTRL, the
lines the block drives and the count of samples as they were. -/
def Obligations.HostCannotEndACommand : Prop :=
  ∀ (s t : State) (w : HostWord), nextTurn s = .host w → s.active = true → step s = .next t →
    t.active = true ∧ t.cur = s.cur ∧ t.seq = s.seq ∧ t.phase = s.phase ∧ t.waitCnt = s.waitCnt ∧ t.idx = s.idx
      ∧ t.unitN = s.unitN ∧ t.ctrl = s.ctrl ∧ t.out = s.out ∧ t.dir = s.dir ∧ t.result = s.result ∧ t.buf = s.buf

/-- R29: RESULT is written only when a command ends (or by power-up): a step that changes it is the Engine's, with a command active
before it and none after it. -/
def Obligations.ResultWrittenOnlyAtTheEnd : Prop :=
  ∀ s t : State, step s = .next t → t.result ≠ s.result →
    nextTurn s = .powerUp ∨ (nextTurn s = .engine ∧ s.active = true ∧ t.active = false)

/-- R213: FATAL is left only by RESET or by power-up, and in FATAL no command but RESET is active. The premise is the sequencer
invariant. -/
def Obligations.FatalIsLeftOnlyByReset : Prop :=
  ∀ s t : State, s.SeqLegal → s.seq = .fatal → step s = .next t →
    (t.seq = .fatal ∧ (t.active = true → t.cur = 0x0F)) ∨ nextTurn s = .powerUp
      ∨ (nextTurn s = .engine ∧ s.active = true ∧ s.cur = 0x0F)

/-- The data invariant is kept by every step: the canonical form of both memories, MON, DIR as Responder (R24), SELECT_OUT, UNIT_LEN
(R45). -/
def Obligations.StepKeepsTheInvariant : Prop :=
  ∀ s t : State, s.Inv → step s = .next t → t.Inv

/-- The sequencer invariant is kept by every step. -/
def Obligations.StepKeepsTheSequencerLegal : Prop :=
  ∀ s t : State, s.SeqLegal → step s = .next t → t.SeqLegal

/-- Both invariants hold after reset. -/
def Obligations.InvariantsHoldAtReset : Prop := State.reset.Inv ∧ State.reset.SeqLegal

/-- R111, R261: past its first step, every Engine step of a command ends it or brings it nearer to its end: the bound
`engineStepsLeft` falls. A step of another agent does not raise it, but for a reset. -/
def Obligations.EveryCommandEnds : Prop :=
  ∀ s t : State, s.SeqLegal → s.active = true → s.phase ≠ .start → step s = .next t →
    (nextTurn s = .engine → t.active = false ∨ engineStepsLeft t < engineStepsLeft s)
      ∧ (nextTurn s ≠ .engine → nextTurn s ≠ .powerUp → t.active = true ∧ engineStepsLeft t = engineStepsLeft s)

/-- R261: a command takes at most `W * WAIT_BUDGET + S` Engine steps: its first step ends it, or leaves at most that bound less the
step taken. W is the number of waits of the command: 1 for a single-byte wait and PRESESSION, n + 1 for TX_UNIT, n + 2 for RX_UNIT and
FLASH_PAGE; S is `2(n+1) + READY_PULSE + 2`, with n = 0 where the command moves no unit. Every other command performs no wait and ends in
its first step. -/
def Obligations.FirstStepBoundsTheCommand : Prop :=
  ∀ s t : State, s.SeqLegal → s.active = true → s.phase = .start → nextTurn s = .engine → step s = .next t →
    (∀ W n : Nat,
      (decodeCode s.cur ∈ [Instr.rxHeader, .rxPayload, .rxClose, .txHeader, .txPayload, .presession] ∧ W = 1 ∧ n = 0)
        ∨ (decodeCode s.cur = .txUnit ∧ n = (unitCount s).toNat ∧ W = n + 1)
        ∨ (decodeCode s.cur ∈ [Instr.rxUnit, .flashPage] ∧ n = (unitCount s).toNat ∧ W = n + 2) →
          t.active = false
            ∨ engineStepsLeft t + 1 ≤ W * s.params.waitBudget + (2 * (n + 1) + s.params.readyPulse + 2))
      ∧ (decodeCode s.cur ∉ [Instr.rxHeader, .rxPayload, .rxClose, .txHeader, .txPayload, .presession, .txUnit, .rxUnit, .flashPage] →
        t.active = false)
end

