-- ==== Sys2Proof/Laws/ConfigBlock.lean ====
section
/-! SUPPORT. What the checksum contract of the configuration block gives (spec/20_memory.md R73). -/

namespace Sys2Proof.Machine

open Sys2Proof

/-- An intact block is loaded as it is. -/
theorem configLoad_intact {block : List Byte} (h : configIntact block = true) : configLoad block = block := by
  simp [configLoad, h]

/-- A mismatch forces the defaults. -/
theorem configLoad_mismatch {block : List Byte} (h : configIntact block = false) : configLoad block = configDefaults := by
  simp [configLoad, h]

/-- The stored checksum is none of the bytes it covers. -/
theorem crc_flipBit {i : Nat} (j : Nat) (block : List Byte) (hi : i < 19) :
    (configOfBytes (flipBit i j block)).crc = (configOfBytes block).crc := by
  simp only [configOfBytes, fieldBytes, flipBit]
  rw [List.drop_modify_of_lt _ _ _ _ hi]

/-- With a CRC16 that meets R73, an intact block with one covered bit flipped is found out and replaced by the defaults. -/
theorem configLoad_flipBit (hcrc : CrcDetectsFlips Config.crc16 Config.crc16Init) {block : List Byte}
    (hl : block.length = 21) (h : configIntact block = true) {i j : Nat} (hi : i < 19) (hj : j < 8) :
    configLoad (flipBit i j block) = configDefaults := by
  have hne := hcrc block hl i j hi hj
  simp only [configIntact, beq_iff_eq] at h
  refine configLoad_mismatch ?_
  rw [configIntact, crc_flipBit j block hi, ← h]
  exact beq_false_of_ne hne

end Sys2Proof.Machine
end

