-- ==== Sys2Proof/Laws/Flags.lean ====
section
/-! SUPPORT. The bits of a register word that is assembled from flags and fields, said once. -/

namespace Sys2Proof.Machine

open Sys2Proof

/-- A flag is at its own bit, and every other bit is 0. -/
@[simp] theorem bitAt_getLsbD (i k : Nat) (b : Bool) :
    (bitAt i b).getLsbD k = (decide (k < 32) && decide (i = k) && b) := by
  cases b
  · simp [bitAt]
  · have h1 : (1 : Word).getLsbD (k - i) = decide (k - i = 0) := by simp
    simp only [bitAt, if_true, BitVec.getLsbD_shiftLeft, h1, Bool.and_true]
    by_cases h : k < i
    · simp [h]
      omega
    · have : (k - i = 0) ↔ (i = k) := by omega
      simp [h, this]

/-- A field's bits are from its lowest bit up, and every other bit is 0. -/
@[simp] theorem fieldAt_getLsbD (lo k : Nat) {n : Nat} (v : BitVec n) :
    (fieldAt lo v).getLsbD k = (decide (lo ≤ k) && decide (k < 32) && v.getLsbD (k - lo)) := by
  simp only [fieldAt, BitVec.getLsbD_shiftLeft, BitVec.getLsbD_setWidth]
  by_cases h : k < lo
  · simp [h]
  · by_cases h2 : k < 32
    · have : k - lo < 32 := by omega
      simp [h, h2, this]
      omega
    · simp [h2]

end Sys2Proof.Machine
end

