-- ==== Sys2Proof/Laws/Memory.lean ====
section
/-! SUPPORT. The laws of the two memories: what a write, a run of writes and a discard do to every address, that each keeps the
canonical form, and that memories in canonical form that read alike are equal. -/

namespace Sys2Proof.Machine

open Sys2Proof

/-! ### Reads after writes -/

@[simp] theorem find_put_same (a : Nat) (v : Byte) (m : List Host.Cell) : Cells.find a (Cells.put a v m) = some v := by
  induction m with
  | nil => simp [Cells.put, Cells.find]
  | cons c m ih =>
    obtain ⟨k, b⟩ := c
    simp only [Cells.put]
    split
    · simp [Cells.find]
    · split
      · simp [Cells.find]
      · next h => simp [Cells.find, h, ih]

theorem find_put_other {a x : Nat} (h : x ≠ a) (v : Byte) (m : List Host.Cell) :
    Cells.find x (Cells.put a v m) = Cells.find x m := by
  induction m with
  | nil => simp [Cells.put, Cells.find, h]
  | cons c m ih =>
    obtain ⟨k, b⟩ := c
    simp only [Cells.put]
    split
    · simp [Cells.find, h]
    · split
      · next hk => subst hk; simp [Cells.find, h]
      · simp [Cells.find, ih]

/-- One byte read after one byte written. -/
theorem find_put (a x : Nat) (v : Byte) (m : List Host.Cell) :
    Cells.find x (Cells.put a v m) = if x = a then some v else Cells.find x m := by
  split
  · next h => subst h; exact find_put_same x v m
  · next h => exact find_put_other h v m

/-- An address taken out reads as unlisted, every other as before. -/
theorem find_remove (a x : Nat) (m : List Host.Cell) :
    Cells.find x (Cells.remove a m) = if x = a then none else Cells.find x m := by
  induction m with
  | nil => simp [Cells.remove, Cells.find, Cells.unlisted]
  | cons c m ih =>
    obtain ⟨k, b⟩ := c
    simp only [Cells.remove]
    split
    · next hk =>
      subst hk
      rw [ih]
      split
      · rfl
      · next hx => rw [Cells.find, if_neg hx]
    · next hk =>
      by_cases hx : x = k
      · subst hx
        simp [Cells.find, hk]
      · rw [Cells.find, if_neg hx, ih, Cells.find, if_neg hx]

/-- One byte of PROGMEM read after one byte written. -/
theorem progFind_put (a x : Nat) (v : Byte) (m : List Host.Cell) :
    Prog.find x (Prog.put a v m) = if x = a then v else Prog.find x m := by
  unfold Prog.find Prog.put
  split
  · next hv =>
    rw [find_remove]
    split
    · next hx => subst hx; simp [hv]
    · rfl
  · rw [find_put]
    split <;> rfl

/-- A byte outside a run of writes reads as before. -/
theorem progFind_putRun_outside {a x : Nat} {bs : List Byte} (m : List Host.Cell) (h : x < a ∨ a + bs.length ≤ x) :
    Prog.find x (Prog.putRun a bs m) = Prog.find x m := by
  induction bs generalizing a m with
  | nil => rw [Prog.putRun]
  | cons b bs ih =>
    simp only [List.length_cons] at h
    rw [Prog.putRun, ih (Prog.put a b m) (by omega), progFind_put, if_neg (by omega)]

/-- A byte inside a run of writes reads as written. -/
theorem progFind_putRun_inside {a k : Nat} {bs : List Byte} (m : List Host.Cell) (h : k < bs.length) :
    Prog.find (a + k) (Prog.putRun a bs m) = bs[k] := by
  induction bs generalizing a k m with
  | nil => simp at h
  | cons b bs ih =>
    cases k with
    | zero => rw [Prog.putRun, progFind_putRun_outside _ (by omega), progFind_put, if_pos (by omega)]; rfl
    | succ k =>
      have hk : k < bs.length := by simpa using h
      rw [Prog.putRun, show a + (k + 1) = a + 1 + k by omega, ih _ hk]
      rfl

/-- A discard forgets the bytes below its bound and no other. -/
theorem find_dropBelow (n x : Nat) (m : List Host.Cell) :
    Cells.find x (Cells.dropBelow n m) = if x < n then none else Cells.find x m := by
  induction m with
  | nil => simp [Cells.dropBelow, Cells.find, Cells.unlisted]
  | cons c m ih =>
    obtain ⟨k, b⟩ := c
    simp only [Cells.dropBelow]
    split
    · rw [ih]
      split
      · rfl
      · rw [Cells.find, if_neg (by omega)]
    · by_cases hx : x = k
      · subst hx
        rw [Cells.find, if_pos rfl, if_neg (by omega), Cells.find, if_pos rfl]
      · rw [Cells.find, if_neg hx, ih, Cells.find, if_neg hx]

/-! ### The canonical form -/

/-- Every entry a write leaves is the written one or an old one. -/
theorem mem_put {a : Nat} {v : Byte} {m : List Host.Cell} {c : Host.Cell} (h : c ∈ Cells.put a v m) :
    c = (a, v) ∨ c ∈ m := by
  induction m with
  | nil => simpa [Cells.put] using h
  | cons d m ih =>
    obtain ⟨k, b⟩ := d
    simp only [Cells.put] at h
    split at h
    · simpa using h
    · split at h
      · rcases List.mem_cons.1 h with h | h
        · exact .inl h
        · exact .inr (List.mem_cons_of_mem _ h)
      · rcases List.mem_cons.1 h with h | h
        · exact .inr (by simp [h])
        · exact (ih h).imp id (List.mem_cons_of_mem _)

/-- Every entry a discard leaves is an old one. -/
theorem mem_dropBelow {n : Nat} {m : List Host.Cell} {c : Host.Cell} (h : c ∈ Cells.dropBelow n m) : c ∈ m := by
  induction m with
  | nil => simp [Cells.dropBelow] at h
  | cons d m ih =>
    obtain ⟨k, b⟩ := d
    simp only [Cells.dropBelow] at h
    split at h
    · exact List.mem_cons_of_mem _ (ih h)
    · rcases List.mem_cons.1 h with h | h
      · simp [h]
      · exact List.mem_cons_of_mem _ (ih h)

/-- Every entry left when an address is taken out is an old one. -/
theorem mem_remove {a : Nat} {m : List Host.Cell} {c : Host.Cell} (h : c ∈ Cells.remove a m) : c ∈ m := by
  induction m with
  | nil => simp [Cells.remove] at h
  | cons d m ih =>
    obtain ⟨k, b⟩ := d
    simp only [Cells.remove] at h
    split at h
    · exact List.mem_cons_of_mem _ (ih h)
    · rcases List.mem_cons.1 h with h | h
      · simp [h]
      · exact List.mem_cons_of_mem _ (ih h)

theorem wf_put (a : Nat) (v : Byte) {m : List Host.Cell} (h : Cells.wf m = true) : Cells.wf (Cells.put a v m) = true := by
  induction m with
  | nil => simp [Cells.put, Cells.wf]
  | cons c m ih =>
    obtain ⟨k, b⟩ := c
    simp only [Cells.wf, Bool.and_eq_true, List.all_eq_true, decide_eq_true_eq] at h
    simp only [Cells.put]
    split
    · next hk =>
      simp only [Cells.wf, Bool.and_eq_true, List.all_eq_true, decide_eq_true_eq, List.mem_cons]
      refine ⟨?_, h⟩
      rintro d (rfl | hd)
      · exact hk
      · exact lt_trans hk (h.1 d hd)
    · split
      · next hk =>
        subst hk
        simpa only [Cells.wf, Bool.and_eq_true, List.all_eq_true, decide_eq_true_eq] using h
      · next hlt hne =>
        simp only [Cells.wf, Bool.and_eq_true, List.all_eq_true, decide_eq_true_eq]
        refine ⟨fun d hd => ?_, ih h.2⟩
        rcases mem_put hd with rfl | hd
        · show k < a
          omega
        · exact h.1 d hd

theorem wf_remove (a : Nat) {m : List Host.Cell} (h : Cells.wf m = true) : Cells.wf (Cells.remove a m) = true := by
  induction m with
  | nil => rfl
  | cons c m ih =>
    obtain ⟨k, b⟩ := c
    simp only [Cells.wf, Bool.and_eq_true, List.all_eq_true, decide_eq_true_eq] at h
    simp only [Cells.remove]
    split
    · exact ih h.2
    · simp only [Cells.wf, Bool.and_eq_true, List.all_eq_true, decide_eq_true_eq]
      exact ⟨fun d hd => h.1 d (mem_remove hd), ih h.2⟩

theorem wf_dropBelow (n : Nat) {m : List Host.Cell} (h : Cells.wf m = true) : Cells.wf (Cells.dropBelow n m) = true := by
  induction m with
  | nil => rfl
  | cons c m ih =>
    obtain ⟨k, b⟩ := c
    simp only [Cells.wf, Bool.and_eq_true, List.all_eq_true, decide_eq_true_eq] at h
    simp only [Cells.dropBelow]
    split
    · exact ih h.2
    · simp only [Cells.wf, Bool.and_eq_true, List.all_eq_true, decide_eq_true_eq]
      exact ⟨fun d hd => h.1 d (mem_dropBelow hd), ih h.2⟩

/-- The canonical form of PROGMEM, spelled out. -/
theorem prog_wf_iff (m : List Host.Cell) :
    Prog.wf m = true ↔ Cells.wf m = true ∧ ∀ c ∈ m, c.1 < progMemSize ∧ c.2 ≠ Prog.unlisted c.1 := by
  simp [Prog.wf]

theorem prog_wf_put {a : Nat} (v : Byte) {m : List Host.Cell} (h : Prog.wf m = true) (ha : a < progMemSize) :
    Prog.wf (Prog.put a v m) = true := by
  rw [prog_wf_iff] at h ⊢
  unfold Prog.put
  split
  · exact ⟨wf_remove a h.1, fun c hc => h.2 c (mem_remove hc)⟩
  · next hv =>
    refine ⟨wf_put a v h.1, fun c hc => ?_⟩
    rcases mem_put hc with rfl | hc
    · exact ⟨ha, hv⟩
    · exact h.2 c hc

theorem prog_wf_putRun {a : Nat} {bs : List Byte} {m : List Host.Cell} (h : Prog.wf m = true)
    (ha : a + bs.length ≤ progMemSize) : Prog.wf (Prog.putRun a bs m) = true := by
  induction bs generalizing a m with
  | nil => rw [Prog.putRun]; exact h
  | cons b bs ih =>
    simp only [List.length_cons] at ha
    rw [Prog.putRun]
    exact ih (prog_wf_put b h (by omega)) (by omega)

/-- No address below the first is listed. -/
theorem find_none_of_lt {x : Nat} {m : List Host.Cell} (h : ∀ c ∈ m, x < c.1) : Cells.find x m = none := by
  induction m with
  | nil => rfl
  | cons c m ih =>
    have hc := h c (by simp)
    rw [Cells.find, if_neg (by omega), ih (fun d hd => h d (List.mem_cons_of_mem _ hd))]

/-- A byte that is read is listed. -/
theorem mem_of_find {x : Nat} {b : Byte} {m : List Host.Cell} (h : Cells.find x m = some b) : (x, b) ∈ m := by
  induction m with
  | nil => cases h
  | cons c m ih =>
    obtain ⟨k, v⟩ := c
    rw [Cells.find] at h
    split at h
    · next hk => cases h; subst hk; simp
    · exact List.mem_cons_of_mem _ (ih h)

/-- Equal memories are equal data: lists in canonical form that list the same bytes are equal. -/
theorem cells_ext : ∀ {m m' : List Host.Cell}, Cells.wf m = true → Cells.wf m' = true →
    (∀ a, Cells.find a m = Cells.find a m') → m = m'
  | [], [], _, _, _ => rfl
  | [], (k, b) :: m', _, _, h => by have := h k; simp [Cells.find, Cells.unlisted] at this
  | (k, b) :: m, [], _, _, h => by have := h k; simp [Cells.find, Cells.unlisted] at this
  | (k, b) :: m, (k', b') :: m', hm, hm', h => by
    simp only [Cells.wf, Bool.and_eq_true, List.all_eq_true, decide_eq_true_eq] at hm hm'
    have hk : k = k' := by
      rcases Nat.lt_trichotomy k k' with hlt | heq | hlt
      · have := h k
        rw [Cells.find, if_pos rfl, Cells.find, if_neg (by omega),
          find_none_of_lt (fun c hc => Nat.lt_trans hlt (hm'.1 c hc))] at this
        cases this
      · exact heq
      · have := h k'
        rw [Cells.find, if_neg (by omega), find_none_of_lt (fun c hc => Nat.lt_trans hlt (hm.1 c hc)), Cells.find,
          if_pos rfl] at this
        cases this
    subst hk
    have hb : b = b' := by simpa [Cells.find] using h k
    subst hb
    rw [cells_ext hm.2 hm'.2 fun a => ?_]
    by_cases ha : a = k
    · subst ha
      rw [find_none_of_lt hm.1, find_none_of_lt hm'.1]
    · simpa [Cells.find, ha] using h a

/-- Program memories in canonical form that hold the same bytes are equal. -/
theorem prog_ext {m m' : List Host.Cell} (hm : Prog.wf m = true) (hm' : Prog.wf m' = true)
    (h : ∀ a, Prog.find a m = Prog.find a m') : m = m' := by
  rw [prog_wf_iff] at hm hm'
  refine cells_ext hm.1 hm'.1 fun a => ?_
  have ha := h a
  unfold Prog.find at ha
  cases hf : Cells.find a m with
  | none =>
    cases hf' : Cells.find a m' with
    | none => rfl
    | some b' =>
      rw [hf, hf'] at ha
      exact absurd ha.symm (hm'.2 _ (mem_of_find hf')).2
  | some b =>
    cases hf' : Cells.find a m' with
    | none =>
      rw [hf, hf'] at ha
      exact absurd ha (hm.2 _ (mem_of_find hf)).2
    | some b' =>
      rw [hf, hf'] at ha
      exact congrArg some ha

/-! ### Pages -/

theorem pageAddr_lt (page : Byte) : pageAddr page + pagePayload ≤ progMemSize := by
  have := page.isLt
  simp only [pageAddr, pagePayload, progMemSize, pageCount]
  omega

@[simp] theorem length_bytesOfWords (ws : List Half) : (bytesOfWords ws).length = 2 * ws.length := by
  induction ws with
  | nil => rfl
  | cons w ws ih => simp [bytesOfWords, ih]; omega

/-- An even number of bytes, as words and back, is the same bytes: the word form and the order of the wire agree (R65). -/
theorem bytesOfWords_wordsOfBytes : ∀ (n : Nat) (bs : List Byte), bs.length = 2 * n → bytesOfWords (wordsOfBytes bs) = bs
  | 0, bs, h => by
    have : bs = [] := by simpa using h
    subst this; rfl
  | n + 1, [], h => by simp at h
  | n + 1, [_], h => by simp at h; omega
  | n + 1, lo :: hi :: rest, h => by
    have ih := bytesOfWords_wordsOfBytes n rest (by simp at h; omega)
    have h1 : (lo.setWidth 16 ||| hi.setWidth 16 <<< 8 : Half).setWidth 8 = lo := by
      ext j hj
      simp
    have h2 : ((lo.setWidth 16 ||| hi.setWidth 16 <<< 8 : Half) >>> 8).setWidth 8 = hi := by
      ext j hj
      simp [show 8 + j < 16 by omega, show j < 16 by omega, BitVec.getLsbD_eq_getElem hj]
    simp only [wordsOfBytes, bytesOfWords, h1, h2, ih]

@[simp] theorem length_pagePayloadBytes (s : State) : (pagePayloadBytes s).length = pagePayload := by
  simp [pagePayloadBytes]

/-- What the commit writes is the payload itself. -/
theorem bytesOfWords_page (s : State) : bytesOfWords (wordsOfBytes (pagePayloadBytes s)) = pagePayloadBytes s :=
  bytesOfWords_wordsOfBytes 64 _ (by simp [pagePayload])

end Sys2Proof.Machine
end

