-- ==== Sys2Proof/Laws/Operands.lean ====
section
/-! SUPPORT. Which register a number names, said once: a later proof cites these and does not unfold `hostReg`. -/

namespace Sys2Proof.Machine

open Sys2Proof

/-- The numbers from 0x016 up name no plain register. -/
theorem plainReg_reserved {n : Nat} (h : 22 ≤ n) : plainReg n = .reserved := by
  unfold plainReg
  split <;> first | omega | rfl

/-- A number of the BUF window names its byte. -/
theorem hostReg_buf {p : Params} {r : RegNum} {i : Nat} (hi : i < p.bufSize) (hr : r.toNat = 0x100 + i) :
    hostReg p r = .buf i := by
  have h1 : ¬r.toNat < 0x100 := by omega
  have h2 : r.toNat < 0x100 + p.bufSize := by omega
  have h3 : r.toNat - 0x100 = i := by omega
  unfold hostReg
  rw [if_neg h1, if_pos h2, h3]

/-- A number between the plain registers and the BUF window, or above the window, names no register. -/
theorem hostReg_reserved {p : Params} {r : RegNum}
    (h : (0x016 ≤ r.toNat ∧ r.toNat ≤ 0x0FF) ∨ 0x100 + p.bufSize ≤ r.toNat) : hostReg p r = .reserved := by
  unfold hostReg
  split
  · exact plainReg_reserved (by omega)
  · rw [if_neg (by omega)]

/-- Bits 7:0 of a word, in the two spellings. -/
theorem low_bits {n : Nat} (k : Nat) (d : BitVec n) : d.extractLsb' 0 k = d.setWidth k := by
  apply BitVec.eq_of_toNat_eq
  simp

end Sys2Proof.Machine
end

