-- ==== Sys2Proof/Laws/State.lean ====
section
/-! SUPPORT. One lemma per field per update: what each shared update writes and what it leaves. -/

namespace Sys2Proof.Machine

open Sys2Proof

/-! ### `raise` -/

@[simp] theorem raise_params (c : ResultCode) (s : State) : (raise c s).params = s.params := rfl
@[simp] theorem raise_out (c : ResultCode) (s : State) : (raise c s).out = s.out := rfl
@[simp] theorem raise_peer (c : ResultCode) (s : State) : (raise c s).peer = s.peer := rfl
@[simp] theorem raise_dir (c : ResultCode) (s : State) : (raise c s).dir = s.dir := rfl
@[simp] theorem raise_seq (c : ResultCode) (s : State) : (raise c s).seq = c.endState := rfl
@[simp] theorem raise_cur (c : ResultCode) (s : State) : (raise c s).cur = 0 := rfl
@[simp] theorem raise_phase (c : ResultCode) (s : State) : (raise c s).phase = .start := rfl
@[simp] theorem raise_idx (c : ResultCode) (s : State) : (raise c s).idx = s.idx := rfl
@[simp] theorem raise_unitN (c : ResultCode) (s : State) : (raise c s).unitN = s.unitN := rfl
@[simp] theorem raise_pol (c : ResultCode) (s : State) : (raise c s).pol = s.pol := rfl
@[simp] theorem raise_waitCnt (c : ResultCode) (s : State) : (raise c s).waitCnt = 0 := rfl
@[simp] theorem raise_stableCnt (c : ResultCode) (s : State) : (raise c s).stableCnt = s.stableCnt := rfl
@[simp] theorem raise_pulseCnt (c : ResultCode) (s : State) : (raise c s).pulseCnt = s.pulseCnt := rfl
@[simp] theorem raise_active (c : ResultCode) (s : State) : (raise c s).active = false := rfl
@[simp] theorem raise_done (c : ResultCode) (s : State) : (raise c s).done = true := rfl
@[simp] theorem raise_overrun (c : ResultCode) (s : State) : (raise c s).overrun = s.overrun := rfl
@[simp] theorem raise_unitValid (c : ResultCode) (s : State) : (raise c s).unitValid = s.unitValid := rfl
@[simp] theorem raise_result (c : ResultCode) (s : State) : (raise c s).result = c := rfl
@[simp] theorem raise_ctrl (c : ResultCode) (s : State) : (raise c s).ctrl = s.ctrl := rfl
@[simp] theorem raise_txdata (c : ResultCode) (s : State) : (raise c s).txdata = s.txdata := rfl
@[simp] theorem raise_rxdata (c : ResultCode) (s : State) : (raise c s).rxdata = s.rxdata := rfl
@[simp] theorem raise_len (c : ResultCode) (s : State) : (raise c s).len = s.len := rfl
@[simp] theorem raise_latch (c : ResultCode) (s : State) : (raise c s).latch = s.latch := rfl
@[simp] theorem raise_edgePend (c : ResultCode) (s : State) : (raise c s).edgePend = s.edgePend := rfl
@[simp] theorem raise_mon (c : ResultCode) (s : State) : (raise c s).mon = s.mon := rfl
@[simp] theorem raise_owner (c : ResultCode) (s : State) : (raise c s).owner = s.owner := rfl
@[simp] theorem raise_ownerReq (c : ResultCode) (s : State) : (raise c s).ownerReq = s.ownerReq := rfl
@[simp] theorem raise_conflict (c : ResultCode) (s : State) : (raise c s).conflict = s.conflict := rfl
@[simp] theorem raise_pageIdx (c : ResultCode) (s : State) : (raise c s).pageIdx = s.pageIdx := rfl
@[simp] theorem raise_dispOut (c : ResultCode) (s : State) : (raise c s).dispOut = s.dispOut := rfl
@[simp] theorem raise_rxBytes (c : ResultCode) (s : State) : (raise c s).rxBytes = s.rxBytes := rfl
@[simp] theorem raise_txBytes (c : ResultCode) (s : State) : (raise c s).txBytes = s.txBytes := rfl
@[simp] theorem raise_rxErr (c : ResultCode) (s : State) : (raise c s).rxErr = s.rxErr := rfl
@[simp] theorem raise_txErr (c : ResultCode) (s : State) : (raise c s).txErr = s.txErr := rfl
@[simp] theorem raise_tick (c : ResultCode) (s : State) : (raise c s).tick = s.tick := rfl
@[simp] theorem raise_unitLen (c : ResultCode) (s : State) : (raise c s).unitLen = s.unitLen := rfl
@[simp] theorem raise_buf (c : ResultCode) (s : State) : (raise c s).buf = s.buf := rfl
@[simp] theorem raise_irq (c : ResultCode) (s : State) : (raise c s).irq = (s.irq || s.ctrl.ie) := rfl
@[simp] theorem raise_progMem (c : ResultCode) (s : State) : (raise c s).progMem = s.progMem := rfl
@[simp] theorem raise_history (c : ResultCode) (s : State) : (raise c s).history = s.history := rfl
@[simp] theorem raise_rdata (c : ResultCode) (s : State) : (raise c s).rdata = s.rdata := rfl
@[simp] theorem raise_draws (c : ResultCode) (s : State) : (raise c s).draws = s.draws := rfl
@[simp] theorem raise_turns (c : ResultCode) (s : State) : (raise c s).turns = s.turns := rfl

/-! ### `emit` -/

@[simp] theorem emit_params (e : Event) (s : State) : (emit e s).params = s.params := rfl
@[simp] theorem emit_out (e : Event) (s : State) : (emit e s).out = s.out := rfl
@[simp] theorem emit_peer (e : Event) (s : State) : (emit e s).peer = s.peer := rfl
@[simp] theorem emit_dir (e : Event) (s : State) : (emit e s).dir = s.dir := rfl
@[simp] theorem emit_seq (e : Event) (s : State) : (emit e s).seq = s.seq := rfl
@[simp] theorem emit_cur (e : Event) (s : State) : (emit e s).cur = s.cur := rfl
@[simp] theorem emit_phase (e : Event) (s : State) : (emit e s).phase = s.phase := rfl
@[simp] theorem emit_idx (e : Event) (s : State) : (emit e s).idx = s.idx := rfl
@[simp] theorem emit_unitN (e : Event) (s : State) : (emit e s).unitN = s.unitN := rfl
@[simp] theorem emit_pol (e : Event) (s : State) : (emit e s).pol = s.pol := rfl
@[simp] theorem emit_waitCnt (e : Event) (s : State) : (emit e s).waitCnt = s.waitCnt := rfl
@[simp] theorem emit_stableCnt (e : Event) (s : State) : (emit e s).stableCnt = s.stableCnt := rfl
@[simp] theorem emit_pulseCnt (e : Event) (s : State) : (emit e s).pulseCnt = s.pulseCnt := rfl
@[simp] theorem emit_active (e : Event) (s : State) : (emit e s).active = s.active := rfl
@[simp] theorem emit_done (e : Event) (s : State) : (emit e s).done = s.done := rfl
@[simp] theorem emit_overrun (e : Event) (s : State) : (emit e s).overrun = s.overrun := rfl
@[simp] theorem emit_unitValid (e : Event) (s : State) : (emit e s).unitValid = s.unitValid := rfl
@[simp] theorem emit_result (e : Event) (s : State) : (emit e s).result = s.result := rfl
@[simp] theorem emit_ctrl (e : Event) (s : State) : (emit e s).ctrl = s.ctrl := rfl
@[simp] theorem emit_txdata (e : Event) (s : State) : (emit e s).txdata = s.txdata := rfl
@[simp] theorem emit_rxdata (e : Event) (s : State) : (emit e s).rxdata = s.rxdata := rfl
@[simp] theorem emit_len (e : Event) (s : State) : (emit e s).len = s.len := rfl
@[simp] theorem emit_latch (e : Event) (s : State) : (emit e s).latch = s.latch := rfl
@[simp] theorem emit_edgePend (e : Event) (s : State) : (emit e s).edgePend = s.edgePend := rfl
@[simp] theorem emit_mon (e : Event) (s : State) : (emit e s).mon = s.mon := rfl
@[simp] theorem emit_owner (e : Event) (s : State) : (emit e s).owner = s.owner := rfl
@[simp] theorem emit_ownerReq (e : Event) (s : State) : (emit e s).ownerReq = s.ownerReq := rfl
@[simp] theorem emit_conflict (e : Event) (s : State) : (emit e s).conflict = s.conflict := rfl
@[simp] theorem emit_pageIdx (e : Event) (s : State) : (emit e s).pageIdx = s.pageIdx := rfl
@[simp] theorem emit_dispOut (e : Event) (s : State) : (emit e s).dispOut = s.dispOut := rfl
@[simp] theorem emit_rxBytes (e : Event) (s : State) : (emit e s).rxBytes = s.rxBytes := rfl
@[simp] theorem emit_txBytes (e : Event) (s : State) : (emit e s).txBytes = s.txBytes := rfl
@[simp] theorem emit_rxErr (e : Event) (s : State) : (emit e s).rxErr = s.rxErr := rfl
@[simp] theorem emit_txErr (e : Event) (s : State) : (emit e s).txErr = s.txErr := rfl
@[simp] theorem emit_tick (e : Event) (s : State) : (emit e s).tick = s.tick := rfl
@[simp] theorem emit_unitLen (e : Event) (s : State) : (emit e s).unitLen = s.unitLen := rfl
@[simp] theorem emit_buf (e : Event) (s : State) : (emit e s).buf = s.buf := rfl
@[simp] theorem emit_irq (e : Event) (s : State) : (emit e s).irq = s.irq := rfl
@[simp] theorem emit_progMem (e : Event) (s : State) : (emit e s).progMem = s.progMem := rfl
@[simp] theorem emit_history (e : Event) (s : State) : (emit e s).history = s.history ++ [e] := rfl
@[simp] theorem emit_rdata (e : Event) (s : State) : (emit e s).rdata = s.rdata := rfl
@[simp] theorem emit_draws (e : Event) (s : State) : (emit e s).draws = s.draws := rfl
@[simp] theorem emit_turns (e : Event) (s : State) : (emit e s).turns = s.turns := rfl

/-! ### `driveValid` -/

@[simp] theorem driveValid_params (v : Bool) (s : State) : (driveValid v s).params = s.params := rfl
@[simp] theorem driveValid_out (v : Bool) (s : State) : (driveValid v s).out = { s.out with valid := v } := rfl
@[simp] theorem driveValid_peer (v : Bool) (s : State) : (driveValid v s).peer = s.peer := rfl
@[simp] theorem driveValid_dir (v : Bool) (s : State) : (driveValid v s).dir = s.dir := rfl
@[simp] theorem driveValid_seq (v : Bool) (s : State) : (driveValid v s).seq = s.seq := rfl
@[simp] theorem driveValid_cur (v : Bool) (s : State) : (driveValid v s).cur = s.cur := rfl
@[simp] theorem driveValid_phase (v : Bool) (s : State) : (driveValid v s).phase = s.phase := rfl
@[simp] theorem driveValid_idx (v : Bool) (s : State) : (driveValid v s).idx = s.idx := rfl
@[simp] theorem driveValid_unitN (v : Bool) (s : State) : (driveValid v s).unitN = s.unitN := rfl
@[simp] theorem driveValid_pol (v : Bool) (s : State) : (driveValid v s).pol = s.pol := rfl
@[simp] theorem driveValid_waitCnt (v : Bool) (s : State) : (driveValid v s).waitCnt = s.waitCnt := rfl
@[simp] theorem driveValid_stableCnt (v : Bool) (s : State) : (driveValid v s).stableCnt = s.stableCnt := rfl
@[simp] theorem driveValid_pulseCnt (v : Bool) (s : State) : (driveValid v s).pulseCnt = s.pulseCnt := rfl
@[simp] theorem driveValid_active (v : Bool) (s : State) : (driveValid v s).active = s.active := rfl
@[simp] theorem driveValid_done (v : Bool) (s : State) : (driveValid v s).done = s.done := rfl
@[simp] theorem driveValid_overrun (v : Bool) (s : State) : (driveValid v s).overrun = s.overrun := rfl
@[simp] theorem driveValid_unitValid (v : Bool) (s : State) : (driveValid v s).unitValid = s.unitValid := rfl
@[simp] theorem driveValid_result (v : Bool) (s : State) : (driveValid v s).result = s.result := rfl
@[simp] theorem driveValid_ctrl (v : Bool) (s : State) : (driveValid v s).ctrl = s.ctrl := rfl
@[simp] theorem driveValid_txdata (v : Bool) (s : State) : (driveValid v s).txdata = s.txdata := rfl
@[simp] theorem driveValid_rxdata (v : Bool) (s : State) : (driveValid v s).rxdata = s.rxdata := rfl
@[simp] theorem driveValid_len (v : Bool) (s : State) : (driveValid v s).len = s.len := rfl
@[simp] theorem driveValid_latch (v : Bool) (s : State) : (driveValid v s).latch = s.latch := rfl
@[simp] theorem driveValid_edgePend (v : Bool) (s : State) : (driveValid v s).edgePend = s.edgePend := rfl
@[simp] theorem driveValid_mon (v : Bool) (s : State) : (driveValid v s).mon = s.mon := rfl
@[simp] theorem driveValid_owner (v : Bool) (s : State) : (driveValid v s).owner = s.owner := rfl
@[simp] theorem driveValid_ownerReq (v : Bool) (s : State) : (driveValid v s).ownerReq = s.ownerReq := rfl
@[simp] theorem driveValid_conflict (v : Bool) (s : State) : (driveValid v s).conflict = s.conflict := rfl
@[simp] theorem driveValid_pageIdx (v : Bool) (s : State) : (driveValid v s).pageIdx = s.pageIdx := rfl
@[simp] theorem driveValid_dispOut (v : Bool) (s : State) : (driveValid v s).dispOut = s.dispOut := rfl
@[simp] theorem driveValid_rxBytes (v : Bool) (s : State) : (driveValid v s).rxBytes = s.rxBytes := rfl
@[simp] theorem driveValid_txBytes (v : Bool) (s : State) : (driveValid v s).txBytes = s.txBytes := rfl
@[simp] theorem driveValid_rxErr (v : Bool) (s : State) : (driveValid v s).rxErr = s.rxErr := rfl
@[simp] theorem driveValid_txErr (v : Bool) (s : State) : (driveValid v s).txErr = s.txErr := rfl
@[simp] theorem driveValid_tick (v : Bool) (s : State) : (driveValid v s).tick = s.tick := rfl
@[simp] theorem driveValid_unitLen (v : Bool) (s : State) : (driveValid v s).unitLen = s.unitLen := rfl
@[simp] theorem driveValid_buf (v : Bool) (s : State) : (driveValid v s).buf = s.buf := rfl
@[simp] theorem driveValid_irq (v : Bool) (s : State) : (driveValid v s).irq = s.irq := rfl
@[simp] theorem driveValid_progMem (v : Bool) (s : State) : (driveValid v s).progMem = s.progMem := rfl
@[simp] theorem driveValid_history (v : Bool) (s : State) : (driveValid v s).history = s.history := rfl
@[simp] theorem driveValid_rdata (v : Bool) (s : State) : (driveValid v s).rdata = s.rdata := rfl
@[simp] theorem driveValid_draws (v : Bool) (s : State) : (driveValid v s).draws = s.draws := rfl
@[simp] theorem driveValid_turns (v : Bool) (s : State) : (driveValid v s).turns = s.turns := rfl

/-! ### `driveAck` -/

@[simp] theorem driveAck_params (v : Bool) (s : State) : (driveAck v s).params = s.params := rfl
@[simp] theorem driveAck_out (v : Bool) (s : State) : (driveAck v s).out = { s.out with ack := v } := rfl
@[simp] theorem driveAck_peer (v : Bool) (s : State) : (driveAck v s).peer = s.peer := rfl
@[simp] theorem driveAck_dir (v : Bool) (s : State) : (driveAck v s).dir = s.dir := rfl
@[simp] theorem driveAck_seq (v : Bool) (s : State) : (driveAck v s).seq = s.seq := rfl
@[simp] theorem driveAck_cur (v : Bool) (s : State) : (driveAck v s).cur = s.cur := rfl
@[simp] theorem driveAck_phase (v : Bool) (s : State) : (driveAck v s).phase = s.phase := rfl
@[simp] theorem driveAck_idx (v : Bool) (s : State) : (driveAck v s).idx = s.idx := rfl
@[simp] theorem driveAck_unitN (v : Bool) (s : State) : (driveAck v s).unitN = s.unitN := rfl
@[simp] theorem driveAck_pol (v : Bool) (s : State) : (driveAck v s).pol = s.pol := rfl
@[simp] theorem driveAck_waitCnt (v : Bool) (s : State) : (driveAck v s).waitCnt = s.waitCnt := rfl
@[simp] theorem driveAck_stableCnt (v : Bool) (s : State) : (driveAck v s).stableCnt = s.stableCnt := rfl
@[simp] theorem driveAck_pulseCnt (v : Bool) (s : State) : (driveAck v s).pulseCnt = s.pulseCnt := rfl
@[simp] theorem driveAck_active (v : Bool) (s : State) : (driveAck v s).active = s.active := rfl
@[simp] theorem driveAck_done (v : Bool) (s : State) : (driveAck v s).done = s.done := rfl
@[simp] theorem driveAck_overrun (v : Bool) (s : State) : (driveAck v s).overrun = s.overrun := rfl
@[simp] theorem driveAck_unitValid (v : Bool) (s : State) : (driveAck v s).unitValid = s.unitValid := rfl
@[simp] theorem driveAck_result (v : Bool) (s : State) : (driveAck v s).result = s.result := rfl
@[simp] theorem driveAck_ctrl (v : Bool) (s : State) : (driveAck v s).ctrl = s.ctrl := rfl
@[simp] theorem driveAck_txdata (v : Bool) (s : State) : (driveAck v s).txdata = s.txdata := rfl
@[simp] theorem driveAck_rxdata (v : Bool) (s : State) : (driveAck v s).rxdata = s.rxdata := rfl
@[simp] theorem driveAck_len (v : Bool) (s : State) : (driveAck v s).len = s.len := rfl
@[simp] theorem driveAck_latch (v : Bool) (s : State) : (driveAck v s).latch = s.latch := rfl
@[simp] theorem driveAck_edgePend (v : Bool) (s : State) : (driveAck v s).edgePend = s.edgePend := rfl
@[simp] theorem driveAck_mon (v : Bool) (s : State) : (driveAck v s).mon = s.mon := rfl
@[simp] theorem driveAck_owner (v : Bool) (s : State) : (driveAck v s).owner = s.owner := rfl
@[simp] theorem driveAck_ownerReq (v : Bool) (s : State) : (driveAck v s).ownerReq = s.ownerReq := rfl
@[simp] theorem driveAck_conflict (v : Bool) (s : State) : (driveAck v s).conflict = s.conflict := rfl
@[simp] theorem driveAck_pageIdx (v : Bool) (s : State) : (driveAck v s).pageIdx = s.pageIdx := rfl
@[simp] theorem driveAck_dispOut (v : Bool) (s : State) : (driveAck v s).dispOut = s.dispOut := rfl
@[simp] theorem driveAck_rxBytes (v : Bool) (s : State) : (driveAck v s).rxBytes = s.rxBytes := rfl
@[simp] theorem driveAck_txBytes (v : Bool) (s : State) : (driveAck v s).txBytes = s.txBytes := rfl
@[simp] theorem driveAck_rxErr (v : Bool) (s : State) : (driveAck v s).rxErr = s.rxErr := rfl
@[simp] theorem driveAck_txErr (v : Bool) (s : State) : (driveAck v s).txErr = s.txErr := rfl
@[simp] theorem driveAck_tick (v : Bool) (s : State) : (driveAck v s).tick = s.tick := rfl
@[simp] theorem driveAck_unitLen (v : Bool) (s : State) : (driveAck v s).unitLen = s.unitLen := rfl
@[simp] theorem driveAck_buf (v : Bool) (s : State) : (driveAck v s).buf = s.buf := rfl
@[simp] theorem driveAck_irq (v : Bool) (s : State) : (driveAck v s).irq = s.irq := rfl
@[simp] theorem driveAck_progMem (v : Bool) (s : State) : (driveAck v s).progMem = s.progMem := rfl
@[simp] theorem driveAck_history (v : Bool) (s : State) : (driveAck v s).history = s.history := rfl
@[simp] theorem driveAck_rdata (v : Bool) (s : State) : (driveAck v s).rdata = s.rdata := rfl
@[simp] theorem driveAck_draws (v : Bool) (s : State) : (driveAck v s).draws = s.draws := rfl
@[simp] theorem driveAck_turns (v : Bool) (s : State) : (driveAck v s).turns = s.turns := rfl

/-! ### `driveData` -/

@[simp] theorem driveData_params (b : Byte) (s : State) : (driveData b s).params = s.params := rfl
@[simp] theorem driveData_out (b : Byte) (s : State) : (driveData b s).out = { s.out with data := b } := rfl
@[simp] theorem driveData_peer (b : Byte) (s : State) : (driveData b s).peer = s.peer := rfl
@[simp] theorem driveData_dir (b : Byte) (s : State) : (driveData b s).dir = s.dir := rfl
@[simp] theorem driveData_seq (b : Byte) (s : State) : (driveData b s).seq = s.seq := rfl
@[simp] theorem driveData_cur (b : Byte) (s : State) : (driveData b s).cur = s.cur := rfl
@[simp] theorem driveData_phase (b : Byte) (s : State) : (driveData b s).phase = s.phase := rfl
@[simp] theorem driveData_idx (b : Byte) (s : State) : (driveData b s).idx = s.idx := rfl
@[simp] theorem driveData_unitN (b : Byte) (s : State) : (driveData b s).unitN = s.unitN := rfl
@[simp] theorem driveData_pol (b : Byte) (s : State) : (driveData b s).pol = s.pol := rfl
@[simp] theorem driveData_waitCnt (b : Byte) (s : State) : (driveData b s).waitCnt = s.waitCnt := rfl
@[simp] theorem driveData_stableCnt (b : Byte) (s : State) : (driveData b s).stableCnt = s.stableCnt := rfl
@[simp] theorem driveData_pulseCnt (b : Byte) (s : State) : (driveData b s).pulseCnt = s.pulseCnt := rfl
@[simp] theorem driveData_active (b : Byte) (s : State) : (driveData b s).active = s.active := rfl
@[simp] theorem driveData_done (b : Byte) (s : State) : (driveData b s).done = s.done := rfl
@[simp] theorem driveData_overrun (b : Byte) (s : State) : (driveData b s).overrun = s.overrun := rfl
@[simp] theorem driveData_unitValid (b : Byte) (s : State) : (driveData b s).unitValid = s.unitValid := rfl
@[simp] theorem driveData_result (b : Byte) (s : State) : (driveData b s).result = s.result := rfl
@[simp] theorem driveData_ctrl (b : Byte) (s : State) : (driveData b s).ctrl = s.ctrl := rfl
@[simp] theorem driveData_txdata (b : Byte) (s : State) : (driveData b s).txdata = s.txdata := rfl
@[simp] theorem driveData_rxdata (b : Byte) (s : State) : (driveData b s).rxdata = s.rxdata := rfl
@[simp] theorem driveData_len (b : Byte) (s : State) : (driveData b s).len = s.len := rfl
@[simp] theorem driveData_latch (b : Byte) (s : State) : (driveData b s).latch = s.latch := rfl
@[simp] theorem driveData_edgePend (b : Byte) (s : State) : (driveData b s).edgePend = s.edgePend := rfl
@[simp] theorem driveData_mon (b : Byte) (s : State) : (driveData b s).mon = s.mon := rfl
@[simp] theorem driveData_owner (b : Byte) (s : State) : (driveData b s).owner = s.owner := rfl
@[simp] theorem driveData_ownerReq (b : Byte) (s : State) : (driveData b s).ownerReq = s.ownerReq := rfl
@[simp] theorem driveData_conflict (b : Byte) (s : State) : (driveData b s).conflict = s.conflict := rfl
@[simp] theorem driveData_pageIdx (b : Byte) (s : State) : (driveData b s).pageIdx = s.pageIdx := rfl
@[simp] theorem driveData_dispOut (b : Byte) (s : State) : (driveData b s).dispOut = s.dispOut := rfl
@[simp] theorem driveData_rxBytes (b : Byte) (s : State) : (driveData b s).rxBytes = s.rxBytes := rfl
@[simp] theorem driveData_txBytes (b : Byte) (s : State) : (driveData b s).txBytes = s.txBytes := rfl
@[simp] theorem driveData_rxErr (b : Byte) (s : State) : (driveData b s).rxErr = s.rxErr := rfl
@[simp] theorem driveData_txErr (b : Byte) (s : State) : (driveData b s).txErr = s.txErr := rfl
@[simp] theorem driveData_tick (b : Byte) (s : State) : (driveData b s).tick = s.tick := rfl
@[simp] theorem driveData_unitLen (b : Byte) (s : State) : (driveData b s).unitLen = s.unitLen := rfl
@[simp] theorem driveData_buf (b : Byte) (s : State) : (driveData b s).buf = s.buf := rfl
@[simp] theorem driveData_irq (b : Byte) (s : State) : (driveData b s).irq = s.irq := rfl
@[simp] theorem driveData_progMem (b : Byte) (s : State) : (driveData b s).progMem = s.progMem := rfl
@[simp] theorem driveData_history (b : Byte) (s : State) : (driveData b s).history = s.history := rfl
@[simp] theorem driveData_rdata (b : Byte) (s : State) : (driveData b s).rdata = s.rdata := rfl
@[simp] theorem driveData_draws (b : Byte) (s : State) : (driveData b s).draws = s.draws := rfl
@[simp] theorem driveData_turns (b : Byte) (s : State) : (driveData b s).turns = s.turns := rfl

/-! ### `driveReady` -/

@[simp] theorem driveReady_params (v : Bool) (s : State) : (driveReady v s).params = s.params := rfl
@[simp] theorem driveReady_out (v : Bool) (s : State) : (driveReady v s).out = { s.out with ready := v } := rfl
@[simp] theorem driveReady_peer (v : Bool) (s : State) : (driveReady v s).peer = s.peer := rfl
@[simp] theorem driveReady_dir (v : Bool) (s : State) : (driveReady v s).dir = s.dir := rfl
@[simp] theorem driveReady_seq (v : Bool) (s : State) : (driveReady v s).seq = s.seq := rfl
@[simp] theorem driveReady_cur (v : Bool) (s : State) : (driveReady v s).cur = s.cur := rfl
@[simp] theorem driveReady_phase (v : Bool) (s : State) : (driveReady v s).phase = s.phase := rfl
@[simp] theorem driveReady_idx (v : Bool) (s : State) : (driveReady v s).idx = s.idx := rfl
@[simp] theorem driveReady_unitN (v : Bool) (s : State) : (driveReady v s).unitN = s.unitN := rfl
@[simp] theorem driveReady_pol (v : Bool) (s : State) : (driveReady v s).pol = s.pol := rfl
@[simp] theorem driveReady_waitCnt (v : Bool) (s : State) : (driveReady v s).waitCnt = s.waitCnt := rfl
@[simp] theorem driveReady_stableCnt (v : Bool) (s : State) : (driveReady v s).stableCnt = s.stableCnt := rfl
@[simp] theorem driveReady_pulseCnt (v : Bool) (s : State) : (driveReady v s).pulseCnt = s.pulseCnt := rfl
@[simp] theorem driveReady_active (v : Bool) (s : State) : (driveReady v s).active = s.active := rfl
@[simp] theorem driveReady_done (v : Bool) (s : State) : (driveReady v s).done = s.done := rfl
@[simp] theorem driveReady_overrun (v : Bool) (s : State) : (driveReady v s).overrun = s.overrun := rfl
@[simp] theorem driveReady_unitValid (v : Bool) (s : State) : (driveReady v s).unitValid = s.unitValid := rfl
@[simp] theorem driveReady_result (v : Bool) (s : State) : (driveReady v s).result = s.result := rfl
@[simp] theorem driveReady_ctrl (v : Bool) (s : State) : (driveReady v s).ctrl = s.ctrl := rfl
@[simp] theorem driveReady_txdata (v : Bool) (s : State) : (driveReady v s).txdata = s.txdata := rfl
@[simp] theorem driveReady_rxdata (v : Bool) (s : State) : (driveReady v s).rxdata = s.rxdata := rfl
@[simp] theorem driveReady_len (v : Bool) (s : State) : (driveReady v s).len = s.len := rfl
@[simp] theorem driveReady_latch (v : Bool) (s : State) : (driveReady v s).latch = s.latch := rfl
@[simp] theorem driveReady_edgePend (v : Bool) (s : State) : (driveReady v s).edgePend = s.edgePend := rfl
@[simp] theorem driveReady_mon (v : Bool) (s : State) : (driveReady v s).mon = s.mon := rfl
@[simp] theorem driveReady_owner (v : Bool) (s : State) : (driveReady v s).owner = s.owner := rfl
@[simp] theorem driveReady_ownerReq (v : Bool) (s : State) : (driveReady v s).ownerReq = s.ownerReq := rfl
@[simp] theorem driveReady_conflict (v : Bool) (s : State) : (driveReady v s).conflict = s.conflict := rfl
@[simp] theorem driveReady_pageIdx (v : Bool) (s : State) : (driveReady v s).pageIdx = s.pageIdx := rfl
@[simp] theorem driveReady_dispOut (v : Bool) (s : State) : (driveReady v s).dispOut = s.dispOut := rfl
@[simp] theorem driveReady_rxBytes (v : Bool) (s : State) : (driveReady v s).rxBytes = s.rxBytes := rfl
@[simp] theorem driveReady_txBytes (v : Bool) (s : State) : (driveReady v s).txBytes = s.txBytes := rfl
@[simp] theorem driveReady_rxErr (v : Bool) (s : State) : (driveReady v s).rxErr = s.rxErr := rfl
@[simp] theorem driveReady_txErr (v : Bool) (s : State) : (driveReady v s).txErr = s.txErr := rfl
@[simp] theorem driveReady_tick (v : Bool) (s : State) : (driveReady v s).tick = s.tick := rfl
@[simp] theorem driveReady_unitLen (v : Bool) (s : State) : (driveReady v s).unitLen = s.unitLen := rfl
@[simp] theorem driveReady_buf (v : Bool) (s : State) : (driveReady v s).buf = s.buf := rfl
@[simp] theorem driveReady_irq (v : Bool) (s : State) : (driveReady v s).irq = s.irq := rfl
@[simp] theorem driveReady_progMem (v : Bool) (s : State) : (driveReady v s).progMem = s.progMem := rfl
@[simp] theorem driveReady_history (v : Bool) (s : State) : (driveReady v s).history = s.history := rfl
@[simp] theorem driveReady_rdata (v : Bool) (s : State) : (driveReady v s).rdata = s.rdata := rfl
@[simp] theorem driveReady_draws (v : Bool) (s : State) : (driveReady v s).draws = s.draws := rfl
@[simp] theorem driveReady_turns (v : Bool) (s : State) : (driveReady v s).turns = s.turns := rfl

/-! ### `driveBusy` -/

@[simp] theorem driveBusy_params (v : Bool) (s : State) : (driveBusy v s).params = s.params := rfl
@[simp] theorem driveBusy_out (v : Bool) (s : State) : (driveBusy v s).out = { s.out with busy := v } := rfl
@[simp] theorem driveBusy_peer (v : Bool) (s : State) : (driveBusy v s).peer = s.peer := rfl
@[simp] theorem driveBusy_dir (v : Bool) (s : State) : (driveBusy v s).dir = s.dir := rfl
@[simp] theorem driveBusy_seq (v : Bool) (s : State) : (driveBusy v s).seq = s.seq := rfl
@[simp] theorem driveBusy_cur (v : Bool) (s : State) : (driveBusy v s).cur = s.cur := rfl
@[simp] theorem driveBusy_phase (v : Bool) (s : State) : (driveBusy v s).phase = s.phase := rfl
@[simp] theorem driveBusy_idx (v : Bool) (s : State) : (driveBusy v s).idx = s.idx := rfl
@[simp] theorem driveBusy_unitN (v : Bool) (s : State) : (driveBusy v s).unitN = s.unitN := rfl
@[simp] theorem driveBusy_pol (v : Bool) (s : State) : (driveBusy v s).pol = s.pol := rfl
@[simp] theorem driveBusy_waitCnt (v : Bool) (s : State) : (driveBusy v s).waitCnt = s.waitCnt := rfl
@[simp] theorem driveBusy_stableCnt (v : Bool) (s : State) : (driveBusy v s).stableCnt = s.stableCnt := rfl
@[simp] theorem driveBusy_pulseCnt (v : Bool) (s : State) : (driveBusy v s).pulseCnt = s.pulseCnt := rfl
@[simp] theorem driveBusy_active (v : Bool) (s : State) : (driveBusy v s).active = s.active := rfl
@[simp] theorem driveBusy_done (v : Bool) (s : State) : (driveBusy v s).done = s.done := rfl
@[simp] theorem driveBusy_overrun (v : Bool) (s : State) : (driveBusy v s).overrun = s.overrun := rfl
@[simp] theorem driveBusy_unitValid (v : Bool) (s : State) : (driveBusy v s).unitValid = s.unitValid := rfl
@[simp] theorem driveBusy_result (v : Bool) (s : State) : (driveBusy v s).result = s.result := rfl
@[simp] theorem driveBusy_ctrl (v : Bool) (s : State) : (driveBusy v s).ctrl = s.ctrl := rfl
@[simp] theorem driveBusy_txdata (v : Bool) (s : State) : (driveBusy v s).txdata = s.txdata := rfl
@[simp] theorem driveBusy_rxdata (v : Bool) (s : State) : (driveBusy v s).rxdata = s.rxdata := rfl
@[simp] theorem driveBusy_len (v : Bool) (s : State) : (driveBusy v s).len = s.len := rfl
@[simp] theorem driveBusy_latch (v : Bool) (s : State) : (driveBusy v s).latch = s.latch := rfl
@[simp] theorem driveBusy_edgePend (v : Bool) (s : State) : (driveBusy v s).edgePend = s.edgePend := rfl
@[simp] theorem driveBusy_mon (v : Bool) (s : State) : (driveBusy v s).mon = s.mon := rfl
@[simp] theorem driveBusy_owner (v : Bool) (s : State) : (driveBusy v s).owner = s.owner := rfl
@[simp] theorem driveBusy_ownerReq (v : Bool) (s : State) : (driveBusy v s).ownerReq = s.ownerReq := rfl
@[simp] theorem driveBusy_conflict (v : Bool) (s : State) : (driveBusy v s).conflict = s.conflict := rfl
@[simp] theorem driveBusy_pageIdx (v : Bool) (s : State) : (driveBusy v s).pageIdx = s.pageIdx := rfl
@[simp] theorem driveBusy_dispOut (v : Bool) (s : State) : (driveBusy v s).dispOut = s.dispOut := rfl
@[simp] theorem driveBusy_rxBytes (v : Bool) (s : State) : (driveBusy v s).rxBytes = s.rxBytes := rfl
@[simp] theorem driveBusy_txBytes (v : Bool) (s : State) : (driveBusy v s).txBytes = s.txBytes := rfl
@[simp] theorem driveBusy_rxErr (v : Bool) (s : State) : (driveBusy v s).rxErr = s.rxErr := rfl
@[simp] theorem driveBusy_txErr (v : Bool) (s : State) : (driveBusy v s).txErr = s.txErr := rfl
@[simp] theorem driveBusy_tick (v : Bool) (s : State) : (driveBusy v s).tick = s.tick := rfl
@[simp] theorem driveBusy_unitLen (v : Bool) (s : State) : (driveBusy v s).unitLen = s.unitLen := rfl
@[simp] theorem driveBusy_buf (v : Bool) (s : State) : (driveBusy v s).buf = s.buf := rfl
@[simp] theorem driveBusy_irq (v : Bool) (s : State) : (driveBusy v s).irq = s.irq := rfl
@[simp] theorem driveBusy_progMem (v : Bool) (s : State) : (driveBusy v s).progMem = s.progMem := rfl
@[simp] theorem driveBusy_history (v : Bool) (s : State) : (driveBusy v s).history = s.history := rfl
@[simp] theorem driveBusy_rdata (v : Bool) (s : State) : (driveBusy v s).rdata = s.rdata := rfl
@[simp] theorem driveBusy_draws (v : Bool) (s : State) : (driveBusy v s).draws = s.draws := rfl
@[simp] theorem driveBusy_turns (v : Bool) (s : State) : (driveBusy v s).turns = s.turns := rfl

/-! ### `enterWait` -/

@[simp] theorem enterWait_params (st : SeqState) (s : State) : (enterWait st s).params = s.params := rfl
@[simp] theorem enterWait_out (st : SeqState) (s : State) : (enterWait st s).out = s.out := rfl
@[simp] theorem enterWait_peer (st : SeqState) (s : State) : (enterWait st s).peer = s.peer := rfl
@[simp] theorem enterWait_dir (st : SeqState) (s : State) : (enterWait st s).dir = s.dir := rfl
@[simp] theorem enterWait_seq (st : SeqState) (s : State) : (enterWait st s).seq = st := rfl
@[simp] theorem enterWait_cur (st : SeqState) (s : State) : (enterWait st s).cur = s.cur := rfl
@[simp] theorem enterWait_phase (st : SeqState) (s : State) : (enterWait st s).phase = .run := rfl
@[simp] theorem enterWait_idx (st : SeqState) (s : State) : (enterWait st s).idx = s.idx := rfl
@[simp] theorem enterWait_unitN (st : SeqState) (s : State) : (enterWait st s).unitN = s.unitN := rfl
@[simp] theorem enterWait_pol (st : SeqState) (s : State) : (enterWait st s).pol = s.pol := rfl
@[simp] theorem enterWait_waitCnt (st : SeqState) (s : State) : (enterWait st s).waitCnt = 0 := rfl
@[simp] theorem enterWait_stableCnt (st : SeqState) (s : State) : (enterWait st s).stableCnt = s.stableCnt := rfl
@[simp] theorem enterWait_pulseCnt (st : SeqState) (s : State) : (enterWait st s).pulseCnt = s.pulseCnt := rfl
@[simp] theorem enterWait_active (st : SeqState) (s : State) : (enterWait st s).active = s.active := rfl
@[simp] theorem enterWait_done (st : SeqState) (s : State) : (enterWait st s).done = s.done := rfl
@[simp] theorem enterWait_overrun (st : SeqState) (s : State) : (enterWait st s).overrun = s.overrun := rfl
@[simp] theorem enterWait_unitValid (st : SeqState) (s : State) : (enterWait st s).unitValid = s.unitValid := rfl
@[simp] theorem enterWait_result (st : SeqState) (s : State) : (enterWait st s).result = s.result := rfl
@[simp] theorem enterWait_ctrl (st : SeqState) (s : State) : (enterWait st s).ctrl = s.ctrl := rfl
@[simp] theorem enterWait_txdata (st : SeqState) (s : State) : (enterWait st s).txdata = s.txdata := rfl
@[simp] theorem enterWait_rxdata (st : SeqState) (s : State) : (enterWait st s).rxdata = s.rxdata := rfl
@[simp] theorem enterWait_len (st : SeqState) (s : State) : (enterWait st s).len = s.len := rfl
@[simp] theorem enterWait_latch (st : SeqState) (s : State) : (enterWait st s).latch = s.latch := rfl
@[simp] theorem enterWait_edgePend (st : SeqState) (s : State) : (enterWait st s).edgePend = s.edgePend := rfl
@[simp] theorem enterWait_mon (st : SeqState) (s : State) : (enterWait st s).mon = s.mon := rfl
@[simp] theorem enterWait_owner (st : SeqState) (s : State) : (enterWait st s).owner = s.owner := rfl
@[simp] theorem enterWait_ownerReq (st : SeqState) (s : State) : (enterWait st s).ownerReq = s.ownerReq := rfl
@[simp] theorem enterWait_conflict (st : SeqState) (s : State) : (enterWait st s).conflict = s.conflict := rfl
@[simp] theorem enterWait_pageIdx (st : SeqState) (s : State) : (enterWait st s).pageIdx = s.pageIdx := rfl
@[simp] theorem enterWait_dispOut (st : SeqState) (s : State) : (enterWait st s).dispOut = s.dispOut := rfl
@[simp] theorem enterWait_rxBytes (st : SeqState) (s : State) : (enterWait st s).rxBytes = s.rxBytes := rfl
@[simp] theorem enterWait_txBytes (st : SeqState) (s : State) : (enterWait st s).txBytes = s.txBytes := rfl
@[simp] theorem enterWait_rxErr (st : SeqState) (s : State) : (enterWait st s).rxErr = s.rxErr := rfl
@[simp] theorem enterWait_txErr (st : SeqState) (s : State) : (enterWait st s).txErr = s.txErr := rfl
@[simp] theorem enterWait_tick (st : SeqState) (s : State) : (enterWait st s).tick = s.tick := rfl
@[simp] theorem enterWait_unitLen (st : SeqState) (s : State) : (enterWait st s).unitLen = s.unitLen := rfl
@[simp] theorem enterWait_buf (st : SeqState) (s : State) : (enterWait st s).buf = s.buf := rfl
@[simp] theorem enterWait_irq (st : SeqState) (s : State) : (enterWait st s).irq = s.irq := rfl
@[simp] theorem enterWait_progMem (st : SeqState) (s : State) : (enterWait st s).progMem = s.progMem := rfl
@[simp] theorem enterWait_history (st : SeqState) (s : State) : (enterWait st s).history = s.history := rfl
@[simp] theorem enterWait_rdata (st : SeqState) (s : State) : (enterWait st s).rdata = s.rdata := rfl
@[simp] theorem enterWait_draws (st : SeqState) (s : State) : (enterWait st s).draws = s.draws := rfl
@[simp] theorem enterWait_turns (st : SeqState) (s : State) : (enterWait st s).turns = s.turns := rfl

/-! ### `tickStep` -/

@[simp] theorem tickStep_params (s : State) : (tickStep s).params = s.params := rfl
@[simp] theorem tickStep_out (s : State) : (tickStep s).out = s.out := rfl
@[simp] theorem tickStep_peer (s : State) : (tickStep s).peer = s.peer := rfl
@[simp] theorem tickStep_dir (s : State) : (tickStep s).dir = s.dir := rfl
@[simp] theorem tickStep_seq (s : State) : (tickStep s).seq = s.seq := rfl
@[simp] theorem tickStep_cur (s : State) : (tickStep s).cur = s.cur := rfl
@[simp] theorem tickStep_phase (s : State) : (tickStep s).phase = s.phase := rfl
@[simp] theorem tickStep_idx (s : State) : (tickStep s).idx = s.idx := rfl
@[simp] theorem tickStep_unitN (s : State) : (tickStep s).unitN = s.unitN := rfl
@[simp] theorem tickStep_pol (s : State) : (tickStep s).pol = s.pol := rfl
@[simp] theorem tickStep_waitCnt (s : State) : (tickStep s).waitCnt = s.waitCnt := rfl
@[simp] theorem tickStep_stableCnt (s : State) : (tickStep s).stableCnt = s.stableCnt := rfl
@[simp] theorem tickStep_pulseCnt (s : State) : (tickStep s).pulseCnt = s.pulseCnt := rfl
@[simp] theorem tickStep_active (s : State) : (tickStep s).active = s.active := rfl
@[simp] theorem tickStep_done (s : State) : (tickStep s).done = s.done := rfl
@[simp] theorem tickStep_overrun (s : State) : (tickStep s).overrun = s.overrun := rfl
@[simp] theorem tickStep_unitValid (s : State) : (tickStep s).unitValid = s.unitValid := rfl
@[simp] theorem tickStep_result (s : State) : (tickStep s).result = s.result := rfl
@[simp] theorem tickStep_ctrl (s : State) : (tickStep s).ctrl = s.ctrl := rfl
@[simp] theorem tickStep_txdata (s : State) : (tickStep s).txdata = s.txdata := rfl
@[simp] theorem tickStep_rxdata (s : State) : (tickStep s).rxdata = s.rxdata := rfl
@[simp] theorem tickStep_len (s : State) : (tickStep s).len = s.len := rfl
@[simp] theorem tickStep_latch (s : State) : (tickStep s).latch = s.latch := rfl
@[simp] theorem tickStep_edgePend (s : State) : (tickStep s).edgePend = s.edgePend := rfl
@[simp] theorem tickStep_mon (s : State) : (tickStep s).mon = s.mon := rfl
@[simp] theorem tickStep_owner (s : State) : (tickStep s).owner = s.owner := rfl
@[simp] theorem tickStep_ownerReq (s : State) : (tickStep s).ownerReq = s.ownerReq := rfl
@[simp] theorem tickStep_conflict (s : State) : (tickStep s).conflict = s.conflict := rfl
@[simp] theorem tickStep_pageIdx (s : State) : (tickStep s).pageIdx = s.pageIdx := rfl
@[simp] theorem tickStep_dispOut (s : State) : (tickStep s).dispOut = s.dispOut := rfl
@[simp] theorem tickStep_rxBytes (s : State) : (tickStep s).rxBytes = s.rxBytes := rfl
@[simp] theorem tickStep_txBytes (s : State) : (tickStep s).txBytes = s.txBytes := rfl
@[simp] theorem tickStep_rxErr (s : State) : (tickStep s).rxErr = s.rxErr := rfl
@[simp] theorem tickStep_txErr (s : State) : (tickStep s).txErr = s.txErr := rfl
@[simp] theorem tickStep_tick (s : State) : (tickStep s).tick = s.tick + 1 := rfl
@[simp] theorem tickStep_unitLen (s : State) : (tickStep s).unitLen = s.unitLen := rfl
@[simp] theorem tickStep_buf (s : State) : (tickStep s).buf = s.buf := rfl
@[simp] theorem tickStep_irq (s : State) : (tickStep s).irq = s.irq := rfl
@[simp] theorem tickStep_progMem (s : State) : (tickStep s).progMem = s.progMem := rfl
@[simp] theorem tickStep_history (s : State) : (tickStep s).history = s.history := rfl
@[simp] theorem tickStep_rdata (s : State) : (tickStep s).rdata = s.rdata := rfl
@[simp] theorem tickStep_draws (s : State) : (tickStep s).draws = s.draws := rfl
@[simp] theorem tickStep_turns (s : State) : (tickStep s).turns = s.turns := rfl

/-! ### `takeTurn` -/

@[simp] theorem takeTurn_params (s : State) : (takeTurn s).params = s.params := rfl
@[simp] theorem takeTurn_out (s : State) : (takeTurn s).out = s.out := rfl
@[simp] theorem takeTurn_peer (s : State) : (takeTurn s).peer = s.peer := rfl
@[simp] theorem takeTurn_dir (s : State) : (takeTurn s).dir = s.dir := rfl
@[simp] theorem takeTurn_seq (s : State) : (takeTurn s).seq = s.seq := rfl
@[simp] theorem takeTurn_cur (s : State) : (takeTurn s).cur = s.cur := rfl
@[simp] theorem takeTurn_phase (s : State) : (takeTurn s).phase = s.phase := rfl
@[simp] theorem takeTurn_idx (s : State) : (takeTurn s).idx = s.idx := rfl
@[simp] theorem takeTurn_unitN (s : State) : (takeTurn s).unitN = s.unitN := rfl
@[simp] theorem takeTurn_pol (s : State) : (takeTurn s).pol = s.pol := rfl
@[simp] theorem takeTurn_waitCnt (s : State) : (takeTurn s).waitCnt = s.waitCnt := rfl
@[simp] theorem takeTurn_stableCnt (s : State) : (takeTurn s).stableCnt = s.stableCnt := rfl
@[simp] theorem takeTurn_pulseCnt (s : State) : (takeTurn s).pulseCnt = s.pulseCnt := rfl
@[simp] theorem takeTurn_active (s : State) : (takeTurn s).active = s.active := rfl
@[simp] theorem takeTurn_done (s : State) : (takeTurn s).done = s.done := rfl
@[simp] theorem takeTurn_overrun (s : State) : (takeTurn s).overrun = s.overrun := rfl
@[simp] theorem takeTurn_unitValid (s : State) : (takeTurn s).unitValid = s.unitValid := rfl
@[simp] theorem takeTurn_result (s : State) : (takeTurn s).result = s.result := rfl
@[simp] theorem takeTurn_ctrl (s : State) : (takeTurn s).ctrl = s.ctrl := rfl
@[simp] theorem takeTurn_txdata (s : State) : (takeTurn s).txdata = s.txdata := rfl
@[simp] theorem takeTurn_rxdata (s : State) : (takeTurn s).rxdata = s.rxdata := rfl
@[simp] theorem takeTurn_len (s : State) : (takeTurn s).len = s.len := rfl
@[simp] theorem takeTurn_latch (s : State) : (takeTurn s).latch = s.latch := rfl
@[simp] theorem takeTurn_edgePend (s : State) : (takeTurn s).edgePend = s.edgePend := rfl
@[simp] theorem takeTurn_mon (s : State) : (takeTurn s).mon = s.mon := rfl
@[simp] theorem takeTurn_owner (s : State) : (takeTurn s).owner = s.owner := rfl
@[simp] theorem takeTurn_ownerReq (s : State) : (takeTurn s).ownerReq = s.ownerReq := rfl
@[simp] theorem takeTurn_conflict (s : State) : (takeTurn s).conflict = s.conflict := rfl
@[simp] theorem takeTurn_pageIdx (s : State) : (takeTurn s).pageIdx = s.pageIdx := rfl
@[simp] theorem takeTurn_dispOut (s : State) : (takeTurn s).dispOut = s.dispOut := rfl
@[simp] theorem takeTurn_rxBytes (s : State) : (takeTurn s).rxBytes = s.rxBytes := rfl
@[simp] theorem takeTurn_txBytes (s : State) : (takeTurn s).txBytes = s.txBytes := rfl
@[simp] theorem takeTurn_rxErr (s : State) : (takeTurn s).rxErr = s.rxErr := rfl
@[simp] theorem takeTurn_txErr (s : State) : (takeTurn s).txErr = s.txErr := rfl
@[simp] theorem takeTurn_tick (s : State) : (takeTurn s).tick = s.tick := rfl
@[simp] theorem takeTurn_unitLen (s : State) : (takeTurn s).unitLen = s.unitLen := rfl
@[simp] theorem takeTurn_buf (s : State) : (takeTurn s).buf = s.buf := rfl
@[simp] theorem takeTurn_irq (s : State) : (takeTurn s).irq = s.irq := rfl
@[simp] theorem takeTurn_progMem (s : State) : (takeTurn s).progMem = s.progMem := rfl
@[simp] theorem takeTurn_history (s : State) : (takeTurn s).history = s.history := rfl
@[simp] theorem takeTurn_rdata (s : State) : (takeTurn s).rdata = s.rdata := rfl
@[simp] theorem takeTurn_draws (s : State) : (takeTurn s).draws = s.draws := rfl
@[simp] theorem takeTurn_turns (s : State) : (takeTurn s).turns = s.turns.tail := rfl

/-! ### `peerStep` -/

@[simp] theorem peerStep_params (m : PeerMove) (s : State) : (peerStep m s).params = s.params := rfl
@[simp] theorem peerStep_out (m : PeerMove) (s : State) : (peerStep m s).out = s.out := rfl
@[simp] theorem peerStep_dir (m : PeerMove) (s : State) : (peerStep m s).dir = s.dir := rfl
@[simp] theorem peerStep_seq (m : PeerMove) (s : State) : (peerStep m s).seq = s.seq := rfl
@[simp] theorem peerStep_cur (m : PeerMove) (s : State) : (peerStep m s).cur = s.cur := rfl
@[simp] theorem peerStep_phase (m : PeerMove) (s : State) : (peerStep m s).phase = s.phase := rfl
@[simp] theorem peerStep_idx (m : PeerMove) (s : State) : (peerStep m s).idx = s.idx := rfl
@[simp] theorem peerStep_unitN (m : PeerMove) (s : State) : (peerStep m s).unitN = s.unitN := rfl
@[simp] theorem peerStep_pol (m : PeerMove) (s : State) : (peerStep m s).pol = s.pol := rfl
@[simp] theorem peerStep_waitCnt (m : PeerMove) (s : State) : (peerStep m s).waitCnt = s.waitCnt := rfl
@[simp] theorem peerStep_stableCnt (m : PeerMove) (s : State) : (peerStep m s).stableCnt = s.stableCnt := rfl
@[simp] theorem peerStep_pulseCnt (m : PeerMove) (s : State) : (peerStep m s).pulseCnt = s.pulseCnt := rfl
@[simp] theorem peerStep_active (m : PeerMove) (s : State) : (peerStep m s).active = s.active := rfl
@[simp] theorem peerStep_done (m : PeerMove) (s : State) : (peerStep m s).done = s.done := rfl
@[simp] theorem peerStep_overrun (m : PeerMove) (s : State) : (peerStep m s).overrun = s.overrun := rfl
@[simp] theorem peerStep_unitValid (m : PeerMove) (s : State) : (peerStep m s).unitValid = s.unitValid := rfl
@[simp] theorem peerStep_result (m : PeerMove) (s : State) : (peerStep m s).result = s.result := rfl
@[simp] theorem peerStep_ctrl (m : PeerMove) (s : State) : (peerStep m s).ctrl = s.ctrl := rfl
@[simp] theorem peerStep_txdata (m : PeerMove) (s : State) : (peerStep m s).txdata = s.txdata := rfl
@[simp] theorem peerStep_rxdata (m : PeerMove) (s : State) : (peerStep m s).rxdata = s.rxdata := rfl
@[simp] theorem peerStep_len (m : PeerMove) (s : State) : (peerStep m s).len = s.len := rfl
@[simp] theorem peerStep_latch (m : PeerMove) (s : State) : (peerStep m s).latch = s.latch := rfl
@[simp] theorem peerStep_edgePend (m : PeerMove) (s : State) : (peerStep m s).edgePend = s.edgePend := rfl
@[simp] theorem peerStep_mon (m : PeerMove) (s : State) : (peerStep m s).mon = s.mon := rfl
@[simp] theorem peerStep_owner (m : PeerMove) (s : State) : (peerStep m s).owner = s.owner := rfl
@[simp] theorem peerStep_ownerReq (m : PeerMove) (s : State) : (peerStep m s).ownerReq = s.ownerReq := rfl
@[simp] theorem peerStep_conflict (m : PeerMove) (s : State) : (peerStep m s).conflict = s.conflict := rfl
@[simp] theorem peerStep_pageIdx (m : PeerMove) (s : State) : (peerStep m s).pageIdx = s.pageIdx := rfl
@[simp] theorem peerStep_dispOut (m : PeerMove) (s : State) : (peerStep m s).dispOut = s.dispOut := rfl
@[simp] theorem peerStep_rxBytes (m : PeerMove) (s : State) : (peerStep m s).rxBytes = s.rxBytes := rfl
@[simp] theorem peerStep_txBytes (m : PeerMove) (s : State) : (peerStep m s).txBytes = s.txBytes := rfl
@[simp] theorem peerStep_rxErr (m : PeerMove) (s : State) : (peerStep m s).rxErr = s.rxErr := rfl
@[simp] theorem peerStep_txErr (m : PeerMove) (s : State) : (peerStep m s).txErr = s.txErr := rfl
@[simp] theorem peerStep_tick (m : PeerMove) (s : State) : (peerStep m s).tick = s.tick := rfl
@[simp] theorem peerStep_unitLen (m : PeerMove) (s : State) : (peerStep m s).unitLen = s.unitLen := rfl
@[simp] theorem peerStep_buf (m : PeerMove) (s : State) : (peerStep m s).buf = s.buf := rfl
@[simp] theorem peerStep_irq (m : PeerMove) (s : State) : (peerStep m s).irq = s.irq := rfl
@[simp] theorem peerStep_progMem (m : PeerMove) (s : State) : (peerStep m s).progMem = s.progMem := rfl
@[simp] theorem peerStep_history (m : PeerMove) (s : State) : (peerStep m s).history = s.history := rfl
@[simp] theorem peerStep_rdata (m : PeerMove) (s : State) : (peerStep m s).rdata = s.rdata := rfl
@[simp] theorem peerStep_draws (m : PeerMove) (s : State) : (peerStep m s).draws = s.draws := rfl
@[simp] theorem peerStep_turns (m : PeerMove) (s : State) : (peerStep m s).turns = s.turns := rfl

/-! ### `recordChanges` -/

@[simp] theorem recordChanges_params (s t : State) : (recordChanges s t).params = t.params := rfl
@[simp] theorem recordChanges_out (s t : State) : (recordChanges s t).out = t.out := rfl
@[simp] theorem recordChanges_peer (s t : State) : (recordChanges s t).peer = t.peer := rfl
@[simp] theorem recordChanges_dir (s t : State) : (recordChanges s t).dir = t.dir := rfl
@[simp] theorem recordChanges_seq (s t : State) : (recordChanges s t).seq = t.seq := rfl
@[simp] theorem recordChanges_cur (s t : State) : (recordChanges s t).cur = t.cur := rfl
@[simp] theorem recordChanges_phase (s t : State) : (recordChanges s t).phase = t.phase := rfl
@[simp] theorem recordChanges_idx (s t : State) : (recordChanges s t).idx = t.idx := rfl
@[simp] theorem recordChanges_unitN (s t : State) : (recordChanges s t).unitN = t.unitN := rfl
@[simp] theorem recordChanges_pol (s t : State) : (recordChanges s t).pol = t.pol := rfl
@[simp] theorem recordChanges_waitCnt (s t : State) : (recordChanges s t).waitCnt = t.waitCnt := rfl
@[simp] theorem recordChanges_stableCnt (s t : State) : (recordChanges s t).stableCnt = t.stableCnt := rfl
@[simp] theorem recordChanges_pulseCnt (s t : State) : (recordChanges s t).pulseCnt = t.pulseCnt := rfl
@[simp] theorem recordChanges_active (s t : State) : (recordChanges s t).active = t.active := rfl
@[simp] theorem recordChanges_done (s t : State) : (recordChanges s t).done = t.done := rfl
@[simp] theorem recordChanges_overrun (s t : State) : (recordChanges s t).overrun = t.overrun := rfl
@[simp] theorem recordChanges_unitValid (s t : State) : (recordChanges s t).unitValid = t.unitValid := rfl
@[simp] theorem recordChanges_result (s t : State) : (recordChanges s t).result = t.result := rfl
@[simp] theorem recordChanges_ctrl (s t : State) : (recordChanges s t).ctrl = t.ctrl := rfl
@[simp] theorem recordChanges_txdata (s t : State) : (recordChanges s t).txdata = t.txdata := rfl
@[simp] theorem recordChanges_rxdata (s t : State) : (recordChanges s t).rxdata = t.rxdata := rfl
@[simp] theorem recordChanges_len (s t : State) : (recordChanges s t).len = t.len := rfl
@[simp] theorem recordChanges_latch (s t : State) : (recordChanges s t).latch = t.latch := rfl
@[simp] theorem recordChanges_edgePend (s t : State) : (recordChanges s t).edgePend = t.edgePend := rfl
@[simp] theorem recordChanges_mon (s t : State) : (recordChanges s t).mon = t.mon := rfl
@[simp] theorem recordChanges_owner (s t : State) : (recordChanges s t).owner = t.owner := rfl
@[simp] theorem recordChanges_ownerReq (s t : State) : (recordChanges s t).ownerReq = t.ownerReq := rfl
@[simp] theorem recordChanges_conflict (s t : State) : (recordChanges s t).conflict = t.conflict := rfl
@[simp] theorem recordChanges_pageIdx (s t : State) : (recordChanges s t).pageIdx = t.pageIdx := rfl
@[simp] theorem recordChanges_dispOut (s t : State) : (recordChanges s t).dispOut = t.dispOut := rfl
@[simp] theorem recordChanges_rxBytes (s t : State) : (recordChanges s t).rxBytes = t.rxBytes := rfl
@[simp] theorem recordChanges_txBytes (s t : State) : (recordChanges s t).txBytes = t.txBytes := rfl
@[simp] theorem recordChanges_rxErr (s t : State) : (recordChanges s t).rxErr = t.rxErr := rfl
@[simp] theorem recordChanges_txErr (s t : State) : (recordChanges s t).txErr = t.txErr := rfl
@[simp] theorem recordChanges_tick (s t : State) : (recordChanges s t).tick = t.tick := rfl
@[simp] theorem recordChanges_unitLen (s t : State) : (recordChanges s t).unitLen = t.unitLen := rfl
@[simp] theorem recordChanges_buf (s t : State) : (recordChanges s t).buf = t.buf := rfl
@[simp] theorem recordChanges_irq (s t : State) : (recordChanges s t).irq = t.irq := rfl
@[simp] theorem recordChanges_progMem (s t : State) : (recordChanges s t).progMem = t.progMem := rfl
@[simp] theorem recordChanges_rdata (s t : State) : (recordChanges s t).rdata = t.rdata := rfl
@[simp] theorem recordChanges_draws (s t : State) : (recordChanges s t).draws = t.draws := rfl
@[simp] theorem recordChanges_turns (s t : State) : (recordChanges s t).turns = t.turns := rfl

/-! ### `State.reset` (R52) -/

@[simp] theorem reset_params : State.reset.params = Params.reference := rfl
@[simp] theorem reset_out : State.reset.out = { Levels.low with ack := true } := rfl
@[simp] theorem reset_peer : State.reset.peer = Levels.low := rfl
@[simp] theorem reset_dir : State.reset.dir = false := rfl
@[simp] theorem reset_seq : State.reset.seq = .idle := rfl
@[simp] theorem reset_cur : State.reset.cur = 0 := rfl
@[simp] theorem reset_phase : State.reset.phase = .start := rfl
@[simp] theorem reset_idx : State.reset.idx = 0 := rfl
@[simp] theorem reset_unitN : State.reset.unitN = 0 := rfl
@[simp] theorem reset_pol : State.reset.pol = true := rfl
@[simp] theorem reset_waitCnt : State.reset.waitCnt = 0 := rfl
@[simp] theorem reset_stableCnt : State.reset.stableCnt = 0 := rfl
@[simp] theorem reset_pulseCnt : State.reset.pulseCnt = 0 := rfl
@[simp] theorem reset_active : State.reset.active = false := rfl
@[simp] theorem reset_done : State.reset.done = false := rfl
@[simp] theorem reset_overrun : State.reset.overrun = false := rfl
@[simp] theorem reset_unitValid : State.reset.unitValid = false := rfl
@[simp] theorem reset_result : State.reset.result = .ok := rfl
@[simp] theorem reset_ctrl : State.reset.ctrl = Ctrl.reset := rfl
@[simp] theorem reset_txdata : State.reset.txdata = 0 := rfl
@[simp] theorem reset_rxdata : State.reset.rxdata = 0 := rfl
@[simp] theorem reset_len : State.reset.len = 0 := rfl
@[simp] theorem reset_latch : State.reset.latch = false := rfl
@[simp] theorem reset_edgePend : State.reset.edgePend = false := rfl
@[simp] theorem reset_mon : State.reset.mon = true := rfl
@[simp] theorem reset_owner : State.reset.owner = 0 := rfl
@[simp] theorem reset_ownerReq : State.reset.ownerReq = 0 := rfl
@[simp] theorem reset_conflict : State.reset.conflict = 0 := rfl
@[simp] theorem reset_pageIdx : State.reset.pageIdx = 0 := rfl
@[simp] theorem reset_dispOut : State.reset.dispOut = DispOut.reset := rfl
@[simp] theorem reset_rxBytes : State.reset.rxBytes = 0 := rfl
@[simp] theorem reset_txBytes : State.reset.txBytes = 0 := rfl
@[simp] theorem reset_rxErr : State.reset.rxErr = 0 := rfl
@[simp] theorem reset_txErr : State.reset.txErr = 0 := rfl
@[simp] theorem reset_tick : State.reset.tick = Config.tickAtReset 0 := rfl
@[simp] theorem reset_unitLen : State.reset.unitLen = 0 := rfl
@[simp] theorem reset_buf : State.reset.buf = [] := rfl
@[simp] theorem reset_irq : State.reset.irq = false := rfl
@[simp] theorem reset_progMem : State.reset.progMem = [] := rfl
@[simp] theorem reset_history : State.reset.history = [] := rfl
@[simp] theorem reset_rdata : State.reset.rdata = 0 := rfl
@[simp] theorem reset_draws : State.reset.draws = 1 := rfl
@[simp] theorem reset_turns : State.reset.turns = [] := rfl

/-! ### `blockReset` -/

@[simp] theorem blockReset_params (s : State) : (blockReset s).params = s.params := rfl
@[simp] theorem blockReset_out (s : State) : (blockReset s).out = State.reset.out := rfl
@[simp] theorem blockReset_peer (s : State) : (blockReset s).peer = s.peer := rfl
@[simp] theorem blockReset_dir (s : State) : (blockReset s).dir = State.reset.dir := rfl
@[simp] theorem blockReset_seq (s : State) : (blockReset s).seq = State.reset.seq := rfl
@[simp] theorem blockReset_cur (s : State) : (blockReset s).cur = State.reset.cur := rfl
@[simp] theorem blockReset_phase (s : State) : (blockReset s).phase = State.reset.phase := rfl
@[simp] theorem blockReset_idx (s : State) : (blockReset s).idx = State.reset.idx := rfl
@[simp] theorem blockReset_unitN (s : State) : (blockReset s).unitN = State.reset.unitN := rfl
@[simp] theorem blockReset_pol (s : State) : (blockReset s).pol = State.reset.pol := rfl
@[simp] theorem blockReset_waitCnt (s : State) : (blockReset s).waitCnt = State.reset.waitCnt := rfl
@[simp] theorem blockReset_stableCnt (s : State) : (blockReset s).stableCnt = State.reset.stableCnt := rfl
@[simp] theorem blockReset_pulseCnt (s : State) : (blockReset s).pulseCnt = State.reset.pulseCnt := rfl
@[simp] theorem blockReset_active (s : State) : (blockReset s).active = State.reset.active := rfl
@[simp] theorem blockReset_done (s : State) : (blockReset s).done = State.reset.done := rfl
@[simp] theorem blockReset_overrun (s : State) : (blockReset s).overrun = State.reset.overrun := rfl
@[simp] theorem blockReset_unitValid (s : State) : (blockReset s).unitValid = State.reset.unitValid := rfl
@[simp] theorem blockReset_result (s : State) : (blockReset s).result = State.reset.result := rfl
@[simp] theorem blockReset_ctrl (s : State) : (blockReset s).ctrl = State.reset.ctrl := rfl
@[simp] theorem blockReset_txdata (s : State) : (blockReset s).txdata = State.reset.txdata := rfl
@[simp] theorem blockReset_rxdata (s : State) : (blockReset s).rxdata = State.reset.rxdata := rfl
@[simp] theorem blockReset_len (s : State) : (blockReset s).len = State.reset.len := rfl
@[simp] theorem blockReset_latch (s : State) : (blockReset s).latch = State.reset.latch := rfl
@[simp] theorem blockReset_edgePend (s : State) : (blockReset s).edgePend = State.reset.edgePend := rfl
@[simp] theorem blockReset_mon (s : State) : (blockReset s).mon = State.reset.mon := rfl
@[simp] theorem blockReset_owner (s : State) : (blockReset s).owner = State.reset.owner := rfl
@[simp] theorem blockReset_ownerReq (s : State) : (blockReset s).ownerReq = State.reset.ownerReq := rfl
@[simp] theorem blockReset_conflict (s : State) : (blockReset s).conflict = State.reset.conflict := rfl
@[simp] theorem blockReset_pageIdx (s : State) : (blockReset s).pageIdx = State.reset.pageIdx := rfl
@[simp] theorem blockReset_dispOut (s : State) : (blockReset s).dispOut = State.reset.dispOut := rfl
@[simp] theorem blockReset_rxBytes (s : State) : (blockReset s).rxBytes = State.reset.rxBytes := rfl
@[simp] theorem blockReset_txBytes (s : State) : (blockReset s).txBytes = State.reset.txBytes := rfl
@[simp] theorem blockReset_rxErr (s : State) : (blockReset s).rxErr = State.reset.rxErr := rfl
@[simp] theorem blockReset_txErr (s : State) : (blockReset s).txErr = State.reset.txErr := rfl
@[simp] theorem blockReset_tick (s : State) : (blockReset s).tick = Config.tickAtReset s.draws := rfl
@[simp] theorem blockReset_unitLen (s : State) : (blockReset s).unitLen = State.reset.unitLen := rfl
@[simp] theorem blockReset_buf (s : State) : (blockReset s).buf = State.reset.buf := rfl
@[simp] theorem blockReset_irq (s : State) : (blockReset s).irq = State.reset.irq := rfl
@[simp] theorem blockReset_progMem (s : State) : (blockReset s).progMem = s.progMem := rfl
@[simp] theorem blockReset_history (s : State) : (blockReset s).history = s.history := rfl
@[simp] theorem blockReset_rdata (s : State) : (blockReset s).rdata = s.rdata := rfl
@[simp] theorem blockReset_draws (s : State) : (blockReset s).draws = s.draws + 1 := rfl
@[simp] theorem blockReset_turns (s : State) : (blockReset s).turns = s.turns := rfl

/-! ### `detectEdge` -/

@[simp] theorem detectEdge_params (s : State) : (detectEdge s).params = s.params := by
  unfold detectEdge; split <;> rfl
@[simp] theorem detectEdge_out (s : State) : (detectEdge s).out = s.out := by
  unfold detectEdge; split <;> rfl
@[simp] theorem detectEdge_peer (s : State) : (detectEdge s).peer = s.peer := by
  unfold detectEdge; split <;> rfl
@[simp] theorem detectEdge_dir (s : State) : (detectEdge s).dir = s.dir := by
  unfold detectEdge; split <;> rfl
@[simp] theorem detectEdge_seq (s : State) : (detectEdge s).seq = s.seq := by
  unfold detectEdge; split <;> rfl
@[simp] theorem detectEdge_cur (s : State) : (detectEdge s).cur = s.cur := by
  unfold detectEdge; split <;> rfl
@[simp] theorem detectEdge_phase (s : State) : (detectEdge s).phase = s.phase := by
  unfold detectEdge; split <;> rfl
@[simp] theorem detectEdge_idx (s : State) : (detectEdge s).idx = s.idx := by
  unfold detectEdge; split <;> rfl
@[simp] theorem detectEdge_unitN (s : State) : (detectEdge s).unitN = s.unitN := by
  unfold detectEdge; split <;> rfl
@[simp] theorem detectEdge_pol (s : State) : (detectEdge s).pol = s.pol := by
  unfold detectEdge; split <;> rfl
@[simp] theorem detectEdge_waitCnt (s : State) : (detectEdge s).waitCnt = s.waitCnt := by
  unfold detectEdge; split <;> rfl
@[simp] theorem detectEdge_stableCnt (s : State) : (detectEdge s).stableCnt = s.stableCnt := by
  unfold detectEdge; split <;> rfl
@[simp] theorem detectEdge_pulseCnt (s : State) : (detectEdge s).pulseCnt = s.pulseCnt := by
  unfold detectEdge; split <;> rfl
@[simp] theorem detectEdge_active (s : State) : (detectEdge s).active = s.active := by
  unfold detectEdge; split <;> rfl
@[simp] theorem detectEdge_done (s : State) : (detectEdge s).done = s.done := by
  unfold detectEdge; split <;> rfl
@[simp] theorem detectEdge_overrun (s : State) : (detectEdge s).overrun = s.overrun := by
  unfold detectEdge; split <;> rfl
@[simp] theorem detectEdge_unitValid (s : State) : (detectEdge s).unitValid = s.unitValid := by
  unfold detectEdge; split <;> rfl
@[simp] theorem detectEdge_result (s : State) : (detectEdge s).result = s.result := by
  unfold detectEdge; split <;> rfl
@[simp] theorem detectEdge_ctrl (s : State) : (detectEdge s).ctrl = s.ctrl := by
  unfold detectEdge; split <;> rfl
@[simp] theorem detectEdge_txdata (s : State) : (detectEdge s).txdata = s.txdata := by
  unfold detectEdge; split <;> rfl
@[simp] theorem detectEdge_rxdata (s : State) : (detectEdge s).rxdata = s.rxdata := by
  unfold detectEdge; split <;> rfl
@[simp] theorem detectEdge_len (s : State) : (detectEdge s).len = s.len := by
  unfold detectEdge; split <;> rfl
@[simp] theorem detectEdge_latch (s : State) : (detectEdge s).latch = s.latch := by
  unfold detectEdge; split <;> rfl
@[simp] theorem detectEdge_owner (s : State) : (detectEdge s).owner = s.owner := by
  unfold detectEdge; split <;> rfl
@[simp] theorem detectEdge_ownerReq (s : State) : (detectEdge s).ownerReq = s.ownerReq := by
  unfold detectEdge; split <;> rfl
@[simp] theorem detectEdge_conflict (s : State) : (detectEdge s).conflict = s.conflict := by
  unfold detectEdge; split <;> rfl
@[simp] theorem detectEdge_pageIdx (s : State) : (detectEdge s).pageIdx = s.pageIdx := by
  unfold detectEdge; split <;> rfl
@[simp] theorem detectEdge_dispOut (s : State) : (detectEdge s).dispOut = s.dispOut := by
  unfold detectEdge; split <;> rfl
@[simp] theorem detectEdge_rxBytes (s : State) : (detectEdge s).rxBytes = s.rxBytes := by
  unfold detectEdge; split <;> rfl
@[simp] theorem detectEdge_txBytes (s : State) : (detectEdge s).txBytes = s.txBytes := by
  unfold detectEdge; split <;> rfl
@[simp] theorem detectEdge_rxErr (s : State) : (detectEdge s).rxErr = s.rxErr := by
  unfold detectEdge; split <;> rfl
@[simp] theorem detectEdge_txErr (s : State) : (detectEdge s).txErr = s.txErr := by
  unfold detectEdge; split <;> rfl
@[simp] theorem detectEdge_tick (s : State) : (detectEdge s).tick = s.tick := by
  unfold detectEdge; split <;> rfl
@[simp] theorem detectEdge_unitLen (s : State) : (detectEdge s).unitLen = s.unitLen := by
  unfold detectEdge; split <;> rfl
@[simp] theorem detectEdge_buf (s : State) : (detectEdge s).buf = s.buf := by
  unfold detectEdge; split <;> rfl
@[simp] theorem detectEdge_irq (s : State) : (detectEdge s).irq = s.irq := by
  unfold detectEdge; split <;> rfl
@[simp] theorem detectEdge_progMem (s : State) : (detectEdge s).progMem = s.progMem := by
  unfold detectEdge; split <;> rfl
@[simp] theorem detectEdge_history (s : State) : (detectEdge s).history = s.history := by
  unfold detectEdge; split <;> rfl
@[simp] theorem detectEdge_rdata (s : State) : (detectEdge s).rdata = s.rdata := by
  unfold detectEdge; split <;> rfl
@[simp] theorem detectEdge_draws (s : State) : (detectEdge s).draws = s.draws := by
  unfold detectEdge; split <;> rfl
@[simp] theorem detectEdge_turns (s : State) : (detectEdge s).turns = s.turns := by
  unfold detectEdge; split <;> rfl

/-- After edge detection MON is the level of the monitored line. -/
@[simp] theorem detectEdge_mon (s : State) : (detectEdge s).mon = (wire s).ack := by
  unfold detectEdge
  split
  · next h => exact h.symm
  · rfl

/-- Edge detection sets EDGE_PEND exactly on a change of the monitored line of an owned source in the Initiator role. -/
theorem detectEdge_edgePend (s : State) :
    (detectEdge s).edgePend
      = (s.edgePend || ((wire s).ack != s.mon && s.owner != 0 && decide (s.ctrl.role = .initiator))) := by
  unfold detectEdge
  split
  · next h => simp [h]
  · next h => cases hm : (wire s).ack <;> cases hn : s.mon <;> simp_all

/-! ### The wire depends on the drivers alone -/

/-- The wire is a function of the two sets of output levels, DIR and ROLE. -/
theorem wire_congr {s t : State} (ho : t.out = s.out) (hp : t.peer = s.peer) (hd : t.dir = s.dir)
    (hr : t.ctrl.role = s.ctrl.role) : wire t = wire s := by
  simp [wire, ho, hp, hd, hr]

end Sys2Proof.Machine
end

