-- ==== Sys2Proof/Laws/Ops.lean ====
section
/-! SUPPORT. What each shared operation of the Engine can do, said once: the first-step checks, the two forms of a sample, the edge
detection at the end of a step. A later proof cites these and does not unfold the operation. -/

namespace Sys2Proof.Machine

open Sys2Proof

/-! ### The first step (R88) -/

/-- A first step ends with a mismatch or runs the command's own first step in the role and mode it needs. -/
theorem firstStep_cases (role : Option Role) (mode : Option Mode) (body : State → State) (s : State) :
    (firstStep role mode body s = body s ∧ (role = none ∨ role = some s.ctrl.role)
        ∧ (mode = none ∨ mode = some s.ctrl.mode))
      ∨ firstStep role mode body s = raise .modeMismatch s
      ∨ firstStep role mode body s = raise .roleMismatch s := by
  unfold firstStep
  split
  · next hr =>
    split
    · next hm => exact .inl ⟨rfl, hr, hm⟩
    · exact .inr (.inl rfl)
  · exact .inr (.inr rfl)

/-- A property that both mismatches and the command's own first step have, the first step has. -/
theorem firstStep_induct {P : State → Prop} {role : Option Role} {mode : Option Mode} {body : State → State} {s : State}
    (hm : P (raise .modeMismatch s)) (hr : P (raise .roleMismatch s))
    (hb : (role = none ∨ role = some s.ctrl.role) → (mode = none ∨ mode = some s.ctrl.mode) → P (body s)) :
    P (firstStep role mode body s) := by
  rcases firstStep_cases role mode body s with ⟨h, h1, h2⟩ | h | h <;> rw [h]
  · exact hb h1 h2
  · exact hm
  · exact hr

/-! ### Samples (R111, R112) -/

/-- A sample leaves the wait where the condition holds, counts where the budget is not spent, and times out where it is. -/
theorem sample_cases (cond : Bool) (leave timeout : State → State) (s : State) :
    (cond = true ∧ sample cond leave timeout s = leave s)
      ∨ (cond = false ∧ s.waitCnt + 1 = s.params.waitBudget
          ∧ sample cond leave timeout s = timeout { s with waitCnt := s.waitCnt + 1 })
      ∨ (cond = false ∧ s.waitCnt + 1 ≠ s.params.waitBudget
          ∧ sample cond leave timeout s = { s with waitCnt := s.waitCnt + 1 }) := by
  unfold sample
  cases cond
  · by_cases h : s.waitCnt + 1 = s.params.waitBudget <;> simp [h]
  · simp

/-- A property of all three ways out of a sample. -/
theorem sample_induct {P : State → Prop} {cond : Bool} {leave timeout : State → State} {s : State}
    (hl : cond = true → P (leave s))
    (ht : s.waitCnt + 1 = s.params.waitBudget → P (timeout { s with waitCnt := s.waitCnt + 1 }))
    (hc : s.waitCnt + 1 ≠ s.params.waitBudget → P { s with waitCnt := s.waitCnt + 1 }) :
    P (sample cond leave timeout s) := by
  rcases sample_cases cond leave timeout s with ⟨h, e⟩ | ⟨-, h, e⟩ | ⟨-, h, e⟩ <;> rw [e]
  · exact hl h
  · exact ht h
  · exact hc h

/-- An acknowledgment sample is a sample of the state itself, or of the state with its latch taken. -/
theorem ackSample_cases (leave timeout : State → State) (s : State) :
    (latchMode s = false ∧ ackSample leave timeout s = sample (ackSeen s) leave timeout s)
      ∨ (latchMode s = true ∧ s.latch = true
          ∧ ackSample leave timeout s = sample (ackSeen s) leave timeout { s with latch := false })
      ∨ (latchMode s = true ∧ s.latch = false ∧ ackSample leave timeout s = sample false leave timeout s) := by
  unfold ackSample
  cases latchMode s <;> cases s.latch <;> simp

/-- A property of every way out of an acknowledgment sample, for the latch as it was or taken. -/
theorem ackSample_induct {P : State → Prop} {leave timeout : State → State} {s : State}
    (hl : ∀ b, ackSeen s = true → P (leave { s with latch := b }))
    (ht : ∀ b, s.waitCnt + 1 = s.params.waitBudget → P (timeout { s with latch := b, waitCnt := s.waitCnt + 1 }))
    (hc : ∀ b, s.waitCnt + 1 ≠ s.params.waitBudget → P { s with latch := b, waitCnt := s.waitCnt + 1 }) :
    P (ackSample leave timeout s) := by
  rcases ackSample_cases leave timeout s with ⟨-, e⟩ | ⟨-, -, e⟩ | ⟨-, -, e⟩ <;> rw [e]
  · exact sample_induct (hl s.latch) (ht s.latch) (hc s.latch)
  · exact sample_induct (hl false) (ht false) (hc false)
  · exact sample_induct (fun h => by simp at h) (ht s.latch) (hc s.latch)

/-! ### The recorded changes (R124) -/

/-- The events of the line changes of a step are the changed lines with their new levels. -/
theorem mem_lineEvents {a b : Levels} {e : Event} :
    e ∈ lineEvents a b ↔ (a.data ≠ b.data ∧ e = .data b.data) ∨ (a.valid ≠ b.valid ∧ e = .line .valid b.valid)
      ∨ (a.ack ≠ b.ack ∧ e = .line .ack b.ack) ∨ (a.select ≠ b.select ∧ e = .line .select b.select)
      ∨ (a.ready ≠ b.ready ∧ e = .line .ready b.ready) ∨ (a.busy ≠ b.busy ∧ e = .line .busy b.busy) := by
  have one : ∀ (p : Prop) [Decidable p] (x : Event), e ∈ (if p then [] else [x]) ↔ ¬p ∧ e = x := by
    intro p _ x
    split <;> simp_all
  simp only [lineEvents, lineEvent, List.mem_append, one, or_assoc, ne_eq]

/-! ### The canonical form under the updates of the two memories -/

/-- The canonical form looks at the two memories alone. -/
theorem memory_wf_congr {s t : State} (hb : t.buf = s.buf) (hp : t.progMem = s.progMem) : Memory.wf t = Memory.wf s := by
  simp [Memory.wf, hb, hp]

/-- A byte written to BUF keeps the canonical form. -/
theorem memory_wf_putBuf (i : Nat) (b : Byte) {s : State} (h : Memory.wf s = true) :
    Memory.wf { s with buf := Cells.put i b s.buf } = true := by
  simp only [Memory.wf, Bool.and_eq_true] at h ⊢
  exact ⟨wf_put i b h.1, h.2⟩

/-- A discard keeps the canonical form. -/
theorem memory_wf_dropBuf (n : Nat) {s : State} (h : Memory.wf s = true) :
    Memory.wf { s with buf := Cells.dropBelow n s.buf } = true := by
  simp only [Memory.wf, Bool.and_eq_true] at h ⊢
  exact ⟨wf_dropBelow n h.1, h.2⟩

/-- A run of bytes written inside PROGMEM keeps the canonical form. -/
theorem memory_wf_putProg (a : Nat) (bs : List Byte) {s : State} (h : Memory.wf s = true) (hr : a + bs.length ≤ progMemSize) :
    Memory.wf { s with progMem := Prog.putRun a bs s.progMem } = true := by
  simp only [Memory.wf, Bool.and_eq_true] at h ⊢
  exact ⟨h.1, prog_wf_putRun h.2 hr⟩

/-- An erase keeps the canonical form. -/
theorem memory_wf_flashErase (p : Byte) {s : State} (h : Memory.wf s = true) : Memory.wf (flashErase p s) = true := by
  have := memory_wf_putProg (pageAddr p) ((List.range pagePayload).map (Config.erasedByte s.draws)) h
    (by simpa using pageAddr_lt p)
  exact this

/-- A page write of 64 words keeps the canonical form. -/
theorem memory_wf_flashWrite (p : Byte) (ws : List Half) {s : State} (h : Memory.wf s = true) (hl : ws.length = 64) :
    Memory.wf (flashWrite p ws s) = true := by
  refine memory_wf_putProg (pageAddr p) (bytesOfWords ws) h ?_
  have := pageAddr_lt p
  rw [length_bytesOfWords, hl]
  simpa [pagePayload] using this

/-! ### What an erase and a page write leave at an address -/

/-- An erase leaves every byte outside the page. -/
theorem progFind_flashErase_outside {page : Byte} {a : Nat} (s : State)
    (h : a < pageAddr page ∨ pageAddr page + pagePayload ≤ a) :
    Prog.find a (flashErase page s).progMem = Prog.find a s.progMem := by
  unfold flashErase
  exact progFind_putRun_outside _ (by simpa using h)

/-- An erase leaves a draw at every address of the page. -/
theorem progFind_flashErase_inside {k : Nat} (page : Byte) (s : State) (h : k < pagePayload) :
    Prog.find (pageAddr page + k) (flashErase page s).progMem = Config.erasedByte s.draws k := by
  unfold flashErase
  rw [progFind_putRun_inside _ (by simpa using h)]
  simp

/-- A write of a buffer's payload leaves every byte outside the page. -/
theorem progFind_flashWrite_outside {page : Byte} {a : Nat} (u s : State)
    (h : a < pageAddr page ∨ pageAddr page + pagePayload ≤ a) :
    Prog.find a (flashWrite page (wordsOfBytes (pagePayloadBytes u)) s).progMem = Prog.find a s.progMem := by
  unfold flashWrite
  rw [bytesOfWords_page]
  exact progFind_putRun_outside _ (by simpa using h)

/-- A write of a buffer's payload puts byte `1 + k` of the buffer at byte `k` of the page. -/
theorem progFind_flashWrite_inside {k : Nat} (page : Byte) (u s : State) (h : k < pagePayload) :
    Prog.find (pageAddr page + k) (flashWrite page (wordsOfBytes (pagePayloadBytes u)) s).progMem = bufByte u (1 + k) := by
  unfold flashWrite
  rw [bytesOfWords_page, progFind_putRun_inside _ (by simpa using h)]
  simp [pagePayloadBytes]

/-! ### The commit (R170) -/

/-- An erase changes program memory, takes one draw, and nothing else. -/
theorem flashErase_eq (page : Byte) (s : State) :
    flashErase page s = { s with progMem := (flashErase page s).progMem, draws := s.draws + 1 } := by
  simp only [flashErase]

/-- A page write changes program memory and nothing else. -/
theorem flashWrite_eq (page : Byte) (ws : List Half) (s : State) :
    flashWrite page ws s = { s with progMem := (flashWrite page ws s).progMem } := by
  simp only [flashWrite]

/-- The commit step refuses a protected page, or writes program memory and begins the pulse, or leaves the page unspecified and ends
with FLASH_FAIL. -/
theorem commitStep_cases (s : State) :
    commitStep s = raiseBlink .pageProtected s
      ∨ (∃ m, commitStep s = startPulse { s with progMem := m, draws := s.draws + 2 })
      ∨ (∃ m, commitStep s = raiseBlink .flashFail { s with progMem := m, draws := s.draws + 2 }) := by
  unfold commitStep
  split
  · exact .inl rfl
  · unfold commitWith
    split
    · refine .inr (.inl ⟨(flashWrite (bufByte s 0) (wordsOfBytes (pagePayloadBytes s))
        (flashErase (bufByte s 0) { s with draws := s.draws + 1 })).progMem, ?_⟩)
      rw [flashWrite_eq, flashErase_eq]
      congr 1
    · refine .inr (.inr ⟨(flashErase (bufByte s 0) { s with draws := s.draws + 1 }).progMem, ?_⟩)
      rw [flashErase_eq]
      congr 1

/-- Reset memory is in canonical form. -/
theorem memory_wf_reset : Memory.wf State.reset = true := by decide

end Sys2Proof.Machine
end

