-- ==== Sys2Proof/Laws/PerInstr.lean ====
section
/-! SUPPORT. A fact about every instruction as syntax: the number it is encoded as fits the width of its format (R80, R81, R82). -/

namespace Sys2Proof.Laws.EncodingFits

open Sys2Proof

/-- The bits of a format: 45, 32 and 8 (R80, R81, R82). -/
def formatBits : Format → Nat
  | .host => 45
  | .command => 32
  | .preSession => 8
  | .frame => 8

/-- The encoding of `i` is a number of its format's width, whatever the parameters. -/
def Statement (i : Instr) : Prop := ∀ p : Params, encodeNumber p i < 2 ^ formatBits i.format

end Sys2Proof.Laws.EncodingFits

open Sys2Proof Sys2Proof.Laws.EncodingFits

theorem Sys2Proof.Laws.EncodingFits.rd (reg : RegNum) : Statement (.rd reg) := fun _ => by
  have := reg.isLt
  simp only [encodeNumber, Instr.format, formatBits]
  omega

theorem Sys2Proof.Laws.EncodingFits.wr (reg : RegNum) (data : Word) : Statement (.wr reg data) := fun _ => by
  have := reg.isLt
  have := data.isLt
  simp only [encodeNumber, Instr.format, formatBits]
  omega

theorem Sys2Proof.Laws.EncodingFits.nop : Statement (.nop) := fun _ => by simp only [encodeNumber, Instr.format, formatBits]; omega

theorem Sys2Proof.Laws.EncodingFits.reserve : Statement (.reserve) := fun _ => by simp only [encodeNumber, Instr.format, formatBits]; omega

theorem Sys2Proof.Laws.EncodingFits.release : Statement (.release) := fun _ => by simp only [encodeNumber, Instr.format, formatBits]; omega

theorem Sys2Proof.Laws.EncodingFits.rearm : Statement (.rearm) := fun _ => by simp only [encodeNumber, Instr.format, formatBits]; omega

theorem Sys2Proof.Laws.EncodingFits.rxHeader : Statement (.rxHeader) := fun _ => by simp only [encodeNumber, Instr.format, formatBits]; omega

theorem Sys2Proof.Laws.EncodingFits.rxPayload : Statement (.rxPayload) := fun _ => by simp only [encodeNumber, Instr.format, formatBits]; omega

theorem Sys2Proof.Laws.EncodingFits.rxClose : Statement (.rxClose) := fun _ => by simp only [encodeNumber, Instr.format, formatBits]; omega

theorem Sys2Proof.Laws.EncodingFits.txHeader : Statement (.txHeader) := fun _ => by simp only [encodeNumber, Instr.format, formatBits]; omega

theorem Sys2Proof.Laws.EncodingFits.txPayload : Statement (.txPayload) := fun _ => by simp only [encodeNumber, Instr.format, formatBits]; omega

theorem Sys2Proof.Laws.EncodingFits.txClose : Statement (.txClose) := fun _ => by simp only [encodeNumber, Instr.format, formatBits]; omega

theorem Sys2Proof.Laws.EncodingFits.rxUnit : Statement (.rxUnit) := fun _ => by simp only [encodeNumber, Instr.format, formatBits]; omega

theorem Sys2Proof.Laws.EncodingFits.txUnit : Statement (.txUnit) := fun _ => by simp only [encodeNumber, Instr.format, formatBits]; omega

theorem Sys2Proof.Laws.EncodingFits.presession : Statement (.presession) := fun _ => by simp only [encodeNumber, Instr.format, formatBits]; omega

theorem Sys2Proof.Laws.EncodingFits.flashPage : Statement (.flashPage) := fun _ => by simp only [encodeNumber, Instr.format, formatBits]; omega

theorem Sys2Proof.Laws.EncodingFits.dispatch : Statement (.dispatch) := fun _ => by simp only [encodeNumber, Instr.format, formatBits]; omega

theorem Sys2Proof.Laws.EncodingFits.reset : Statement (.reset) := fun _ => by simp only [encodeNumber, Instr.format, formatBits]; omega

theorem Sys2Proof.Laws.EncodingFits.illegal (code : Byte) : Statement (.illegal code) := fun _ => lt_trans code.isLt (by simp only [Instr.format, formatBits]; omega)

theorem Sys2Proof.Laws.EncodingFits.preSentinel : Statement (.preSentinel) := fun _ => sentinel.isLt

theorem Sys2Proof.Laws.EncodingFits.preBootReq : Statement (.preBootReq) := fun p => p.bootReq.isLt

theorem Sys2Proof.Laws.EncodingFits.preOther (b : Byte) : Statement (.preOther b) := fun _ => b.isLt

theorem Sys2Proof.Laws.EncodingFits.reboot : Statement (.reboot) := fun p => p.opReboot.isLt

theorem Sys2Proof.Laws.EncodingFits.getlog : Statement (.getlog) := fun p => p.opGetlog.isLt

theorem Sys2Proof.Laws.EncodingFits.getconfig : Statement (.getconfig) := fun p => p.opGetconfig.isLt

theorem Sys2Proof.Laws.EncodingFits.setconfig : Statement (.setconfig) := fun p => p.opSetconfig.isLt

theorem Sys2Proof.Laws.EncodingFits.storageInfo : Statement (.storageInfo) := fun p => p.opStorageInfo.isLt

theorem Sys2Proof.Laws.EncodingFits.storageRead : Statement (.storageRead) := fun p => p.opStorageRead.isLt

theorem Sys2Proof.Laws.EncodingFits.storageWrite : Statement (.storageWrite) := fun p => p.opStorageWrite.isLt

theorem Sys2Proof.Laws.EncodingFits.packet : Statement (.packet) := fun p => (p.opPacket.getD sentinel).isLt

theorem Sys2Proof.Laws.EncodingFits.opSentinel : Statement (.opSentinel) := fun _ => sentinel.isLt

theorem Sys2Proof.Laws.EncodingFits.opUnknown (b : Byte) : Statement (.opUnknown b) := fun _ => b.isLt
end

