-- ==== Sys2Proof/Laws/Step.lean ====
section
/-! SUPPORT. What a step of the machine can do, said once. -/

namespace Sys2Proof.Machine

open Sys2Proof

/-- A step that goes on is the step of the agent whose turn it is, and then the end of the step. -/
theorem step_next {s t : State} (h : step s = .next t) :
    ∃ u, agentStep (nextTurn s) (takeTurn s) = .next u ∧ t = endStep s u := by
  unfold step at h
  split at h
  · next u hu =>
    injection h with h
    exact ⟨u, hu, h.symm⟩
  · cases h
  · cases h

/-- The agents' steps, one case for each. -/
theorem agentStep_next {a : Turn} {s u : State} (h : agentStep a s = .next u) :
    (∃ w, a = .host w ∧ exec (decodeHost w) s = .next u)
      ∨ (a = .engine ∧ s.active = true ∧ exec (decodeCode s.cur) s = .next u)
      ∨ (a = .engine ∧ s.active = false ∧ u = s)
      ∨ (a = .edgeCapture ∧ u = edgeCaptureStep s)
      ∨ (a = .tick ∧ u = tickStep s)
      ∨ (∃ m, a = .peer m ∧ u = peerStep m s)
      ∨ (a = .powerUp ∧ u = blockReset s) := by
  cases a with
  | engine =>
    simp only [agentStep] at h
    split at h
    · next ha => exact .inr (.inl ⟨rfl, ha, h⟩)
    · next ha =>
      injection h with h
      exact .inr (.inr (.inl ⟨rfl, by simpa using ha, h.symm⟩))
  | edgeCapture => injection h with h; exact .inr (.inr (.inr (.inl ⟨rfl, h.symm⟩)))
  | tick => injection h with h; exact .inr (.inr (.inr (.inr (.inl ⟨rfl, h.symm⟩))))
  | peer m => injection h with h; exact .inr (.inr (.inr (.inr (.inr (.inl ⟨m, rfl, h.symm⟩)))))
  | host w => exact .inl ⟨w, rfl, h⟩
  | powerUp => injection h with h; exact .inr (.inr (.inr (.inr (.inr (.inr ⟨rfl, h.symm⟩)))))

/-- What the end of a step leaves as the agent's step left it: everything but MON, EDGE_PEND and the history. -/
theorem endStep_eq (s u : State) :
    ∃ es, endStep s u = { u with
      mon := (wire u).ack
      edgePend := u.edgePend || ((wire u).ack != u.mon && u.owner != 0 && decide (u.ctrl.role = .initiator))
      history := u.history ++ es } := by
  refine ⟨lineEvents (wire s) (wire (detectEdge u)) ++ (if s.irq = u.irq then [] else [.irq u.irq]), ?_⟩
  unfold endStep recordChanges
  rw [← detectEdge_edgePend]
  unfold detectEdge
  split
  · next h =>
    simp only [List.append_assoc, ← h]
  · next h => simp only [List.append_assoc]

end Sys2Proof.Machine
end

