-- ==== Sys2Proof/Laws/Trace.lean ====
section
/-! SUPPORT. What the window of a unit's trace keeps out (spec/40_transport.md R124). -/

namespace Sys2Proof.Machine

open Sys2Proof

/-- From ACK = 1, a header that no fall of ACK acknowledges has no event after it. -/
theorem afterHeader_of_none {es : List Event} (valid : Bool) (h : .line .ack false ∉ es) : afterHeader valid true es = [] := by
  induction es generalizing valid with
  | nil => rfl
  | cons e es ih =>
    simp only [List.mem_cons, not_or] at h
    unfold afterHeader
    split
    · rfl
    · next heq => cases heq; simp only [Bool.not_true, Bool.and_false]; exact ih _ h.2
    · next a _ heq =>
      cases heq
      cases a
      · exact absurd rfl h.1
      · simp only [Bool.not_true, Bool.and_false]; exact ih _ h.2
    · next heq => cases heq; exact ih _ h.2

/-- The events before the close are events of the trace. -/
theorem mem_beforeClose {t : UnitTrace} {e : Event} (h : e ∈ t.beforeClose) : e ∈ t.events := by
  unfold UnitTrace.beforeClose at h
  split at h
  · exact List.mem_of_mem_take h
  · exact h

/-- No violation in a unit whose header is never acknowledged, however often VALID changes. -/
theorem violation_of_unacknowledged {t : UnitTrace} (ha : t.ack = true) (h : .line .ack false ∉ t.events) : Violation t = false := by
  rw [Violation, UnitTrace.window, ha, afterHeader_of_none _ (fun k => h (mem_beforeClose k))]
  rfl

/-- A close after all events of a unit takes none of them away. -/
theorem violation_close_last (t : UnitTrace) :
    Violation { t with close := some t.events.length } = Violation { t with close := none } := by
  simp [Violation, UnitTrace.window, UnitTrace.beforeClose]

end Sys2Proof.Machine
end

