-- ==== Sys2Proof/Tests/Slice0.lean ====
section
/-! SUPPORT. Small checks of the model on fixed values (each expected value is the spec's: the vector of spec/95_test_vectors.md or the
rule is named), and for every obligation with hypotheses a concrete state that meets each of its clauses. -/

namespace Sys2Proof.Tests

open Sys2Proof Sys2Proof.Machine

/-! ### Helpers -/

/-- A view of a next state. -/
def got {α : Type} (f : State → α) : Out → Option α
  | .next t => some (f t)
  | .fault _ => none
  | .refused _ => none

/-- The fault of an outcome. -/
def faultOf : Out → Option Fault
  | .next _ => none
  | .fault f => some f
  | .refused _ => none

/-- A Responder after reset, with a TICK that can be compared. -/
def resp : State := { State.reset with tick := 0 }

/-- An Initiator. -/
def init : State := { resp with ctrl := { Ctrl.reset with role := .initiator } }

/-- A Responder in Flash mode. -/
def flash : State := { resp with ctrl := { Ctrl.reset with mode := .flash } }

/-- A latch-mode Initiator that owns the source. -/
def latched : State := { init with ctrl := { init.ctrl with useLatch := true }, owner := 3, ownerReq := 3 }

/-- A command in a wait, commit or pulse. -/
def running (code : Byte) (st : SeqState) (s : State) : State := { s with active := true, cur := code, phase := .run, seq := st }

/-- A command accepted and not yet started. -/
def accepted (code : Byte) (s : State) : State := { s with active := true, cur := code, phase := .start }

/-- The Peer's VALID and DATA. -/
def peerSends (v : Bool) (b : Byte) (s : State) : State := { s with peer := { s.peer with valid := v, data := b } }

/-- The Peer's ACK. -/
def peerAcks (v : Bool) (s : State) : State := { s with peer := { s.peer with ack := v } }

/-- One sample before the budget is spent. -/
def lastSample (s : State) : State := { s with waitCnt := s.params.waitBudget - 1 }

/-- The next turn. -/
def turn (t : Turn) (s : State) : State := { s with turns := [t] }

/-- A buffer of `n` written bytes. -/
def zeros (n : Nat) : List Host.Cell := (List.range n).map (fun i => (i, 0))

/-- The STATUS word and RESULT code a host reads after a step. -/
def statusResult (o : Out) : Option (Word × Byte) := got (fun t => (statusWord t, t.result.code)) o

/-! ### Well-formedness (R85, R90, R91, R9) -/

theorem test_wf_illegal : (Instr.illegal 0x0F).wf Params.reference = false ∧ (Instr.illegal 0x10).wf Params.reference = true := by
  decide

theorem test_wf_preOther : (Instr.preOther 0xFF).wf Params.reference = false ∧ (Instr.preOther 0x88).wf Params.reference = false
    ∧ (Instr.preOther 0x41).wf Params.reference = true := by decide

theorem test_wf_opUnknown : (Instr.opUnknown 0xFF).wf Params.reference = false ∧ (Instr.opUnknown 0x01).wf Params.reference = false
    ∧ (Instr.opUnknown 0x50).wf Params.reference = true := by decide

theorem test_wf_packet : Instr.packet.wf Params.reference = false
    ∧ Instr.packet.wf { Params.reference with opPacket := some 0x50 } = true := by decide

theorem test_params_reference : Params.reference.wf = true := by decide

theorem test_params_ill_formed :
    ({ Params.reference with waitBudget := 0 }).wf = false ∧ ({ Params.reference with bootReq := 0xFF }).wf = false
      ∧ ({ Params.reference with opGetlog := 0x01 }).wf = false ∧ ({ Params.reference with opPacket := some 0xFF }).wf = false
      ∧ ({ Params.reference with bufSize := 128 }).wf = false ∧ ({ Params.reference with selectStable := 0 }).wf = false
      ∧ ({ Params.reference with readyPulse := 0 }).wf = false := by decide

/-! ### Decoding: words written out from R80, R84, R85, R90, R91 and the programs of spec/95_test_vectors.md -/

theorem test_decode_host : decodeHost 0x000100000000#45 = .rd 0x001#12 ∧ decodeHost 0x10000000000C#45 = .wr 0x000#12 0x0C#32
    ∧ decodeHost 0x100600000001#45 = .wr 0x006#12 0x1#32 ∧ decodeHost 0x001500000000#45 = .rd 0x015#12 := by decide

theorem test_decode_commands_low :
    decodeCommand 0x00#32 = .nop ∧ decodeCommand 0x01#32 = .reserve ∧ decodeCommand 0x02#32 = .release
      ∧ decodeCommand 0x03#32 = .rearm ∧ decodeCommand 0x04#32 = .rxHeader ∧ decodeCommand 0x05#32 = .rxPayload
      ∧ decodeCommand 0x06#32 = .rxClose ∧ decodeCommand 0x07#32 = .txHeader := by decide

theorem test_decode_commands_high :
    decodeCommand 0x08#32 = .txPayload ∧ decodeCommand 0x09#32 = .txClose ∧ decodeCommand 0x0A#32 = .rxUnit
      ∧ decodeCommand 0x0B#32 = .txUnit ∧ decodeCommand 0x0C#32 = .presession ∧ decodeCommand 0x0D#32 = .flashPage
      ∧ decodeCommand 0x0E#32 = .dispatch ∧ decodeCommand 0x0F#32 = .reset := by decide

/-- V-K1, V-K2: the reserved codes, and the ignored upper bits. -/
theorem test_decode_illegal : decodeCommand 0x10#32 = .illegal 0x10#8 ∧ decodeCommand 0xFF#32 = .illegal 0xFF#8
    ∧ decodeCommand 0x00001204#32 = .rxHeader := by decide

/-- W4. -/
theorem test_decode_pre : decodePre Params.reference 0xFF = .preSentinel ∧ decodePre Params.reference 0x88 = .preBootReq
    ∧ decodePre Params.reference 0x41 = .preOther 0x41 := by decide

/-- The opcode assignment of spec/95_test_vectors.md section 0. -/
theorem test_decode_opcodes :
    decodeOpcode Params.reference 0x01 = .reboot ∧ decodeOpcode Params.reference 0x02 = .getlog
      ∧ decodeOpcode Params.reference 0x03 = .getconfig ∧ decodeOpcode Params.reference 0x04 = .setconfig
      ∧ decodeOpcode Params.reference 0x05 = .storageInfo ∧ decodeOpcode Params.reference 0x06 = .storageRead
      ∧ decodeOpcode Params.reference 0x07 = .storageWrite ∧ decodeOpcode Params.reference 0xFF = .opSentinel
      ∧ decodeOpcode Params.reference 0x50 = .opUnknown 0x50
      ∧ decodeOpcode { Params.reference with opPacket := some 0x50 } 0x50 = .packet := by decide

/-- Bytes: a host transaction low byte first; too few bytes; a bit above bit 44. -/
theorem test_decode_bytes :
    (decode Params.reference .host [0x0C, 0, 0, 0, 0, 0x10]).toOption = some (.wr 0x000 0x0C, [])
      ∧ (decode Params.reference .command [0x0D, 0, 0, 0, 0xAA]).toOption = some (.flashPage, [0xAA])
      ∧ (decode Params.reference .command [0x0D]).toOption = none
      ∧ (decode Params.reference .host [0, 0, 0, 0, 0, 0x20]).toOption = none := by decide

theorem test_encode_bytes : encode Params.reference (.wr 0x003 0x1) = [0x01, 0, 0, 0, 0x03, 0x10]
    ∧ encode Params.reference .dispatch = [0x0E, 0, 0, 0] ∧ encode Params.reference .preBootReq = [0x88]
    ∧ encode Params.reference .storageRead = [0x06] := by decide

theorem test_table_words : decodeTableWord 45 0x100300000000 = some (.wr 0x003 0) ∧ decodeTableWord 45 0 = some (.rd 0x000)
    ∧ decodeTableWord 8 0x0D = some .flashPage ∧ decodeTableWord 8 0x10 = some (.illegal 0x10)
    ∧ decodeTableWord 8 0xFF = some .preSentinel := by decide

/-- The placed instruction is the first a step runs. -/
theorem test_fetch :
    got (fun t => (t.seq, t.phase)) (step (resp.withFetchWord 8 0x04)) = some (.hdrWait, .run)
      ∧ got (fun t => (t.result, t.active)) (step (resp.withFetchWord 8 0x00)) = some (.ok, false)
      ∧ got (fun t => (t.result, t.rxdata)) (step (resp.withFetchWord 8 0xFF)) = some (.sentinelAbort, 0xFF)
      ∧ got (fun t => t.len) (step (resp.withFetchWord 45 0x100600000001)) = some 1
      ∧ got (fun t => t.rdata) (step (resp.withFetchWord 45 0x000100000000)) = some 0 := by decide

/-! ### Reset and the host transactions -/

/-- R52, R23, R24: the LINES and STATUS a host reads after reset with the Peer's lines low. -/
theorem test_reset_words : linesWord State.reset = 0x0002 ∧ statusWord State.reset = 0 ∧ ctrlWord State.reset.ctrl = 0 := by decide

/-- V-K8: reserved numbers and bits. -/
theorem test_wr_reserved : got (fun t => ctrlWord t.ctrl) (exec (.wr 0x003 0xFFFFFFFF) resp) = some 0x1F
    ∧ got (fun t => t == resp) (exec (.wr 0x016 5) resp) = some true := by decide

/-- V-K3: a write of CMD while a command is active, and the clear of OVERRUN. -/
theorem test_wr_overrun :
    got statusWord (exec (.wr 0x000 0) (running 0x04 .hdrWait resp)) = some 0x051
      ∧ got statusWord (exec (.wr 0x001 0x40) { resp with overrun := true, done := true }) = some 0x020 := by decide

/-- V-K6, V-K5: an unwritten byte, and a byte while a command is active. -/
theorem test_rd_buf_faults : faultOf (exec (.rd 0x100) resp) = some .undefRead
    ∧ faultOf (exec (.rd 0x100) (running 0x0A .hdrWait resp)) = some .bufOwned := by decide

/-- V-T1's LINES at its end; RD of a reserved number (V-K8). -/
theorem test_rd_words : got (fun t => t.rdata) (exec (.rd 0x007) (peerSends true 0x2A { resp with out := Levels.low })) = some 0x2A01
    ∧ got (fun t => t.rdata) (exec (.rd 0x016) resp) = some 0 := by decide

/-! ### The commands -/

/-- V-T17. -/
theorem test_nop : statusResult (exec .nop (accepted 0x00 resp)) = some (0x020, 0x00) := by decide

/-- V-K1. -/
theorem test_illegal : statusResult (exec (.illegal 0x10) (accepted 0x10 resp)) = some (0x026, 0x0B) := by decide

/-- V-E1, V-E3. -/
theorem test_reserve : statusResult (exec .reserve (accepted 0x01 resp)) = some (0x026, 0x0A)
    ∧ got (fun t => (statusWord t, t.conflict)) (exec .reserve (accepted 0x01 { resp with owner := 3, ownerReq := 5 }))
      = some (0x226, 3) := by decide

/-- V-E2, with RESERVE_ALWAYS_ALLOCATES. -/
theorem test_reserve_allocates :
    got (fun t => (statusWord t, t.owner, t.mon))
      (exec .reserve (accepted 0x01 { resp with
        params := { Params.reference with reserveAlwaysAllocates := true }, ownerReq := 3, latch := true }))
      = some (0x220, 3, true) := by decide

/-- V-E10. -/
theorem test_release : got (fun t => (t.result, t.owner)) (exec .release (accepted 0x02 { resp with owner := 3, ownerReq := 5 }))
      = some (.notOwner, 3)
    ∧ got (fun t => (statusWord t, t.latch)) (exec .release (accepted 0x02 { resp with owner := 3, ownerReq := 3, latch := true }))
      = some (0x020, false) := by decide

/-- V-T8, V-F5's role check on a Responder command. -/
theorem test_rearm : got (fun t => (t.out.ack, t.pol, t.idx, t.result)) (exec .rearm (accepted 0x03 { resp with out := Levels.low }))
      = some (true, true, 0, .ok)
    ∧ statusResult (exec .rearm (accepted 0x03 init)) = some (0x026, 0x0C) := by decide

/-- V-T1, V-T3. -/
theorem test_rxHeader : got (fun t => (statusWord t, linesWord t, t.rxdata)) (exec .rxHeader (running 0x04 .hdrWait (peerSends true 0x2A resp)))
      = some (0x020, 0x2A01, 0x2A)
    ∧ statusResult (exec .rxHeader (accepted 0x04 { resp with out := Levels.low })) = some (0x026, 0x10) := by decide

/-- V-T2: the last failed sample. -/
theorem test_rxHeader_timeout : got (fun t => (statusWord t, t.result, t.out.ack, t.rxErr)) (exec .rxHeader (lastSample (running 0x04 .hdrWait resp)))
    = some (0x026, .handshakeTimeout, true, 0) := by decide

/-- V-T4, V-T5's E2. -/
theorem test_rxPayload : got (fun t => (linesWord t, t.pol, t.result)) (exec .rxPayload (running 0x05 .payWait (peerSends false 0x10 { resp with out := Levels.low })))
      = some (0x1002, true, .ok)
    ∧ got (fun t => t.waitCnt) (exec .rxPayload (running 0x05 .payWait (peerSends true 0x22 { resp with out := Levels.low }))) = some 1 := by
  decide

/-- V-T6, V-T7's E2. -/
theorem test_rxClose : got (fun t => (t.result, t.out.ack)) (exec .rxClose (running 0x06 .closeWait resp)) = some (.ok, true)
    ∧ got (fun t => (t.waitCnt, t.active)) (exec .rxClose (running 0x06 .closeWait (peerSends true 0 resp))) = some (1, true) := by decide

/-- V-T9: E1 puts the byte on DATA one step before VALID. -/
theorem test_txHeader_start : got (fun t => (linesWord t, t.seq)) (exec .txHeader (accepted 0x07 (peerAcks true { init with txdata := 0x07 })))
    = some (0x0722, .hdrWait) := by decide

/-- V-T9: E3; V-T11. -/
theorem test_txHeader :
    got (fun t => (linesWord t, t.pol, t.result))
        (exec .txHeader (running 0x07 .hdrWait { init with dir := true, out := { Levels.low with valid := true, data := 0x07 } }))
      = some (0x0721, false, .ok)
    ∧ statusResult (exec .txHeader (accepted 0x07 { init with out := { Levels.low with valid := true } })) = some (0x026, 0x10) := by decide

/-- V-T12; V-T13: E2 toggles VALID. -/
theorem test_txPayload : statusResult (exec .txPayload (accepted 0x08 init)) = some (0x026, 0x10)
    ∧ got (fun t => (t.out.valid, t.waitCnt)) (exec .txPayload { running 0x08 .payWait { init with out := { Levels.low with valid := true }, waitCnt := 7 } with phase := .drive })
      = some (false, 0) := by decide

/-- V-T14: the last failed sample leaves VALID toggled and counts nothing. -/
theorem test_txPayload_timeout : got (fun t => (statusWord t, t.result, t.out.valid, t.dir, t.txErr))
    (exec .txPayload (lastSample (running 0x08 .payWait { init with dir := true }))) = some (0x026, .handshakeTimeout, false, true, 0) := by decide

/-- V-T15. -/
theorem test_txClose : got (fun t => (linesWord t, t.pol)) (exec .txClose (accepted 0x09 { init with dir := true, out := { Levels.low with valid := true, data := 0x07 } }))
    = some (0x0000, true) := by decide

/-- V-E11: E3 and E4. -/
theorem test_latch_mode :
    got (fun t => (t.waitCnt, t.active)) (exec .txHeader (running 0x07 .hdrWait { latched with out := { Levels.low with valid := true } })) = some (1, true)
    ∧ got (fun t => (t.result, t.latch)) (exec .txHeader (running 0x07 .hdrWait { latched with out := { Levels.low with valid := true }, latch := true }))
      = some (.ok, false) := by decide

/-- V-U1: E4, the last payload byte. -/
theorem test_rxUnit_payload :
    got (fun t => (t.buf, t.out.ack, t.pol, t.idx, t.seq))
      (exec .rxUnit (running 0x0A .payWait (peerSends true 0x02 { resp with unitN := 2, idx := 2, buf := [(0, 0x41), (1, 0x01)] })))
      = some ([(0, 0x41), (1, 0x01), (2, 0x02)], false, false, 3, .closeWait) := by decide

/-- V-U1: E5; V-U4: E7. -/
theorem test_rxUnit_end :
    got (fun t => (t.unitLen, t.rxBytes, t.out.ready, t.seq))
        (exec .rxUnit (running 0x0A .closeWait { resp with unitN := 2, idx := 3, buf := [(0, 0x41), (1, 0x01), (2, 0x02)] }))
      = some (3, 3, true, .pulse)
    ∧ got (fun t => (t.result, t.buf, t.rxErr))
        (exec .rxUnit (lastSample (running 0x0A .closeWait (peerSends true 0 { resp with unitN := 2, idx := 3, buf := [(0, 0x41), (1, 0x01), (2, 0x02)] }))))
      = some (.handshakeTimeout, [], 1) := by decide

/-- V-U9, V-U5. -/
theorem test_txUnit_checks : faultOf (exec .txUnit (accepted 0x0B { init with len := 1, buf := [(0, 0x41)] })) = some .undefRead
    ∧ statusResult (exec .txUnit (accepted 0x0B { init with len := 256 })) = some (0x026, 0x0E) := by decide

/-- V-U7: E3 and E5. -/
theorem test_txUnit :
    got (fun t => (t.pol, t.idx, t.out.data, t.seq, t.phase))
        (exec .txUnit (running 0x0B .hdrWait { init with unitN := 1, out := { Levels.low with valid := true, data := 0x41 }, buf := [(0, 0x41), (1, 0x99)] }))
      = some (false, 1, 0x99, .payWait, .drive)
    ∧ got (fun t => (t.result, t.txBytes, t.out.valid, t.dir))
        (exec .txUnit (running 0x0B .payWait (peerAcks true { init with unitN := 1, idx := 1, dir := true, buf := [(0, 0x41), (1, 0x99)] })))
      = some (.ok, 2, false, false) := by decide

/-- V-S1: the STATUS of E1 and the end. -/
theorem test_presession :
    got linesWord (exec .presession (accepted 0x0C { resp with peer := { Levels.low with select := true, data := 0x88 } })) = some 0x8816
    ∧ got (fun t => (t.result, ctrlWord t.ctrl, linesWord t))
        (exec .presession (running 0x0C .preWait { resp with out := { resp.out with busy := true }, peer := { Levels.low with select := true, data := 0x88 } }))
      = some (.ok, 0x2, 0x8806) := by decide

/-- V-S4: the last failed sample. -/
theorem test_presession_timeout : got (fun t => (t.result, t.history, t.out.busy)) (exec .presession (lastSample (running 0x0C .preWait resp)))
    = some (.noSession, [.blink .noSession], false) := by decide

/-- V-F5, V-F3 (its commit step, with page 0 protected). -/
theorem test_flashPage_checks : statusResult (exec .flashPage (accepted 0x0D resp)) = some (0x026, 0x0D)
    ∧ got (fun t => (statusWord t, t.history, t.progMem))
        (exec .flashPage (running 0x0D .commit { flash with
          params := { Params.reference with protectedPages := [0] }, unitValid := true, unitLen := 129, buf := [(0, 0)] }))
      = some (0x126, [.blink .pageProtected], []) := by decide

/-- V-F1: E131. -/
theorem test_flashPage_close :
    got (fun t => (statusWord t, t.pageIdx, t.unitLen, t.rxBytes))
      (exec .flashPage (running 0x0D .closeWait { flash with unitN := 128, buf := [(0, 2), (128, 0x7F)] })) = some (0x118, 2, 129, 129) := by decide

/-- W2, W3: the page address and the words of a page. -/
theorem test_page_words : pageAddr 2 = 0x100 ∧ pageAddr 255 = 0x7F80 ∧ wordsOfBytes [0x00, 0x01, 0x7E, 0x7F] = [0x0100, 0x7F7E] := by decide

/-- V-D1, V-D10. -/
theorem test_dispatch :
    got (fun t => (t.result, dispOutWord t.dispOut, t.seq)) (exec .dispatch (accepted 0x0E { resp with unitValid := true, unitLen := 1, buf := [(0, 0x02)] }))
      = some (.notImplemented, 0x00010212, .idle)
    ∧ statusResult (exec .dispatch (accepted 0x0E resp)) = some (0x026, 0x0F) := by decide

/-- V-D2 to V-D6. -/
theorem test_placeholders :
    got (fun t => dispOutWord t.dispOut) (exec .getconfig resp) = some 0x00010322
      ∧ got (fun t => dispOutWord t.dispOut) (exec .setconfig resp) = some 0x00010432
      ∧ got (fun t => dispOutWord t.dispOut) (exec .storageInfo resp) = some 0x00010542
      ∧ got (fun t => dispOutWord t.dispOut) (exec .storageRead resp) = some 0x00010652
      ∧ got (fun t => dispOutWord t.dispOut) (exec .storageWrite resp) = some 0x00010762
      ∧ got (fun t => dispOutWord t.dispOut) (exec .getlog { resp with dispOut := { resp.dispOut with count := 255 } }) = some 0x00000212 := by
  decide

/-- V-D7, V-D8, V-D9. -/
theorem test_opcodes :
    got (fun t => (statusWord t, t.history, t.buf)) (exec .reboot { resp with unitValid := true, unitLen := 2, buf := [(0, 1), (1, 0x77)] })
      = some (0x000, [.restart], [])
    ∧ got (fun t => (t.result, t.dispOut, t.history)) (exec (.opUnknown 0x50) resp) = some (.ok, DispOut.reset, [])
    ∧ got (fun t => (t.result, t.dispOut, t.history)) (exec .opSentinel resp) = some (.ok, DispOut.reset, []) := by decide

/-- V-D12. -/
theorem test_packet :
    got (fun t => (dispOutWord t.dispOut, t.history, t.result))
      (exec .packet { resp with
        params := { Params.reference with opPacket := some 0x50 }, unitValid := true, unitLen := 3, buf := [(0, 0x50), (1, 0xAA), (2, 0xBB)] })
      = some (0x00015073, [.packet [0xAA, 0xBB]], .ok) := by decide

/-- V-S2, V-S3. -/
theorem test_pre_bytes :
    got (fun t => (t.result, t.history, ctrlWord t.ctrl)) (exec .preSentinel resp) = some (.sentinelAbort, [.blink .sentinelAbort], 0)
      ∧ got (fun t => (t.result, t.history, t.rxdata)) (exec (.preOther 0x41) resp) = some (.unsupported, [.blink .unsupported], 0x41)
      ∧ got (fun t => (t.result, ctrlWord t.ctrl)) (exec .preBootReq resp) = some (.ok, 2) := by decide

/-- V-K9. -/
theorem test_reset : got (fun t => (linesWord t, ctrlWord t.ctrl, t.out.ack, t.out.valid, t.dir))
    (exec .reset { init with dir := true, out := { Levels.low with valid := true }, peer := { Levels.low with valid := true, data := 0x33 } })
    = some (0x3303, 0, true, false, false) := by decide

/-- V-K7: IRQ rises at the end of a command with IE = 1 and falls at the next acceptance. -/
theorem test_irq : got (fun t => t.irq) (exec .nop (accepted 0x00 { resp with ctrl := { Ctrl.reset with ie := true } })) = some true
    ∧ got (fun t => t.irq) (exec (.wr 0x000 0) { resp with ctrl := { Ctrl.reset with ie := true }, irq := true }) = some false := by decide

/-- V-E6: an edge is captured at the end of a Peer step, and the change is recorded. -/
theorem test_edge : got (fun t => (t.mon, t.edgePend, t.latch, t.history))
    (step (turn (.peer { ack := some true }) { init with owner := 3, mon := false })) = some (true, true, false, [.line .ack true]) := by decide

/-- R124: V-T5 after V-T1 (a double toggle after the header); a second TX_PAYLOAD after V-T14 (R119), also once a TX_CLOSE that moves
no level has closed the unit (R120); a double toggle after a header that ACK = 0 acknowledged at once (R253). -/
theorem test_violation :
    Violation ⟨false, true, [.data 0x2A, .line .valid true, .line .ack false, .data 0x11, .line .valid false, .data 0x22,
      .line .valid true], none⟩ = true
    ∧ Violation ⟨false, true, [.line .valid true, .line .ack false, .line .valid false, .line .ack true, .line .valid true,
      .line .valid false], some 6⟩ = true
    ∧ Violation ⟨false, false, [.line .valid true, .line .valid false, .line .valid true], none⟩ = true := by decide

/-- R124: a timed-out header and its TX_CLOSE (R120) are outside the window, and so is the close after two payload bytes, and after a
byte that timed out (R255). -/
theorem test_violation_window : Violation ⟨false, true, [.line .valid true, .line .valid false], some 1⟩ = false
    ∧ Violation ⟨false, true, [.line .valid true, .line .ack false, .line .valid false, .line .ack true, .line .valid true,
        .line .ack false, .line .valid false], some 6⟩ = false
    ∧ Violation ⟨false, true, [.line .valid true, .line .ack false, .line .valid false, .line .ack true, .line .valid true,
        .line .valid false], some 5⟩ = false := by decide

/-- The trace between states: the levels before it, the events since, and the place of the close. -/
theorem test_unit_trace :
    unitTrace { resp with history := [.restart] } (some { resp with history := [.restart, .line .valid true] })
        { resp with history := [.restart, .line .valid true, .line .valid false] }
      = ⟨false, true, [.line .valid true, .line .valid false], some 1⟩ := by decide

/-- W5: the offsets of the configuration block (R72). -/
theorem test_config_block : (configOfBytes (bytesOfNat 21 0)).crc.length = 2 ∧ (configOfBytes (bytesOfNat 21 (7 * 256 ^ 19))).crc = [7, 0]
    ∧ (bytesOfConfig (configOfBytes (bytesOfNat 21 0x0102))).length = 21 := by decide

/-- R73: a CRC16 that meets the contract exists, so the premise of the laws that take it can hold. -/
theorem witness_CrcDetectsFlips : CrcDetectsFlips (fun h b => h ^^^ b.setWidth 16) 0 := by
  have key : ∀ (bs : List Byte) (h : Half) (i j : Nat), i < bs.length →
      (bs.modify i (fun b => b ^^^ (1#8 <<< j))).foldl (fun h b => h ^^^ b.setWidth 16) h
        = bs.foldl (fun h b => h ^^^ b.setWidth 16) h ^^^ (1#8 <<< j).setWidth 16 := by
    have shift : ∀ (bs : List Byte) (h d : Half), bs.foldl (fun h b => h ^^^ b.setWidth 16) (h ^^^ d)
        = bs.foldl (fun h b => h ^^^ b.setWidth 16) h ^^^ d := by
      intro bs
      induction bs with
      | nil => intro h d; rfl
      | cons b bs ih =>
        intro h d
        rw [List.foldl_cons, List.foldl_cons, BitVec.xor_assoc, BitVec.xor_comm d, ← BitVec.xor_assoc, ih]
    intro bs
    induction bs with
    | nil => intro h i j hi; simp at hi
    | cons b bs ih =>
      intro h i j hi
      cases i with
      | zero =>
        rw [List.modify_zero_cons, List.foldl_cons, List.foldl_cons, BitVec.setWidth_xor, ← BitVec.xor_assoc, shift]
      | succ i => rw [List.modify_succ_cons, List.foldl_cons, List.foldl_cons, ih _ i j (by simpa using hi)]
  intro block hl i j hi hj h
  unfold checksumBy flipBit at h
  rw [List.take_modify, key _ _ _ _ (by rw [List.length_take]; omega)] at h
  have h0 : (1#8 <<< j).setWidth 16 = (0 : Half) := by
    have := congrArg (fun x => (block.take 19).foldl (fun (h : Half) (b : Byte) => h ^^^ b.setWidth 16) 0 ^^^ x) h
    simpa [← BitVec.xor_assoc] using this
  interval_cases j <;> revert h0 <;> decide

/-! ### Witnesses: a state and operands that meet the hypotheses of each obligation, clause by clause, at the boundary values -/

theorem witness_DecodeEncodeRoundTrip : Params.reference.wf = true ∧ (Instr.illegal 0x10).wf Params.reference = true
    ∧ (Instr.illegal 0xFF).wf Params.reference = true ∧ (Instr.preOther 0x00).wf Params.reference = true
    ∧ (Instr.wr 0xFFF 0xFFFFFFFF).wf Params.reference = true := by decide

theorem witness_DecodedBitsReencode : Params.reference.wf = true
    ∧ ({ Params.reference with opPacket := some 0x50, waitBudget := 1, bufSize := 129 }).wf = true := by decide

theorem witness_ReservedNumbersReadZero :
    ∀ r ∈ [0x016#12, 0x0FF#12, 0x200#12, 0xFFF#12],
      (0x016 ≤ r.toNat ∧ r.toNat ≤ 0x0FF) ∨ 0x100 + resp.params.bufSize ≤ r.toNat := by decide

theorem witness_BufAccess_numbers : (0 < resp.params.bufSize ∧ (0x100#12).toNat = 0x100 + 0)
    ∧ (255 < resp.params.bufSize ∧ (0x1FF#12).toNat = 0x100 + 255) := by decide

theorem witness_BufAccess_states : (running 0x0A .hdrWait resp).active = true ∧ resp.active = false
    ∧ Cells.find 255 [(0, 1), (255, 0x5A)] = some (0x5A : Byte) ∧ Cells.find 255 resp.buf = none := by decide

theorem witness_WrCtrlSetsFields : (running 0x04 .hdrWait resp).active = true ∧ resp.active = false
    ∧ (ctrlOfWord 0x11).selectOut ≠ resp.ctrl.selectOut ∧ (ctrlOfWord 0x0).selectOut = resp.ctrl.selectOut
    ∧ (ctrlOfWord 0x11).role ≠ resp.ctrl.role ∧ (ctrlOfWord 0x0).role = resp.ctrl.role := by decide

theorem witness_CmdWriteAcceptance : (running 0x04 .hdrWait resp).active = true
    ∧ ({ resp with seq := .fatal }.active = false ∧ { resp with seq := .fatal }.seq = .fatal ∧ (0x0E#32).extractLsb' 0 8 ≠ 0x0F#8)
    ∧ (¬({ resp with seq := .fatal }.seq = .fatal ∧ (0xAB0F#32).extractLsb' 0 8 ≠ 0x0F#8)) ∧ ¬(resp.seq = .fatal ∧ (0x04#32).extractLsb' 0 8 ≠ 0x0F#8) := by
  decide

theorem witness_FirstStepChecks :
    resp.phase = .start ∧ init.phase = .start ∧ flash.phase = .start ∧ 0x10 ≤ (0x10#8).toNat ∧ 0x10 ≤ (0xFF#8).toNat
      ∧ init.ctrl.role = .initiator ∧ (resp.ctrl.role = .responder ∧ resp.ctrl.mode = .bridge) ∧ flash.ctrl.mode = .flash
      ∧ resp.params.bufSize < { resp with len := 256 }.len.toNat + 1 ∧ { resp with len := 255 }.len.toNat + 1 ≤ resp.params.bufSize
      ∧ resp.unitValid = false := by decide

theorem witness_FirstStepChecks_undefined :
    (∃ i ≤ { init with len := 1, buf := [(0, 0)] }.len.toNat, bufDef { init with len := 1, buf := [(0, 0)] } i = false)
      ∧ (∃ i ≤ 128, bufDef { init with ctrl := { init.ctrl with mode := .flash } } i = false) :=
  ⟨⟨1, by decide, by decide⟩, 128, by decide, by decide⟩

theorem witness_NopAndIllegalEnd : 0x10 ≤ (0x10#8).toNat ∧ 0x10 ≤ (0xFF#8).toNat := by decide

theorem witness_RearmArmsTheLink : resp.ctrl.role = .responder ∧ init.ctrl.role = .initiator := by decide

/-- RX_HEADER, RX_PAYLOAD, RX_CLOSE: the first step in either role, armed and not; in the wait with VALID high and low, ACK high and
low, with the budget one sample from spent and not. -/
theorem witness_receive_bytes :
    init.phase = .start ∧ init.ctrl.role = .initiator ∧ resp.phase = .start ∧ resp.ctrl.role = .responder ∧ resp.out.ack = true
      ∧ { resp with out := Levels.low }.out.ack = false
      ∧ (running 0x04 .hdrWait resp).phase = .run ∧ (wire (running 0x04 .hdrWait (peerSends true 0 resp))).valid = true
      ∧ (wire (running 0x04 .hdrWait resp)).valid = false
      ∧ (running 0x04 .hdrWait resp).waitCnt + 1 ≠ resp.params.waitBudget
      ∧ (lastSample (running 0x04 .hdrWait resp)).waitCnt + 1 = resp.params.waitBudget
      ∧ (wire (peerSends true 0 resp)).valid = (peerSends true 0 resp).out.ack ∧ (wire resp).valid ≠ resp.out.ack := by decide

/-- TX_HEADER, TX_PAYLOAD, TX_CLOSE: the same for the Initiator's acknowledgment. -/
theorem witness_send_bytes :
    init.ctrl.role = .initiator ∧ init.phase = .start ∧ init.out.valid = false ∧ init.dir = false
      ∧ { init with out := { Levels.low with valid := true } }.out.valid = true ∧ { init with dir := true }.dir = true
      ∧ { running 0x07 .hdrWait init with phase := .drive }.phase = .drive
      ∧ (init.ctrl.useLatch = false ∨ init.owner = 0) ∧ ({ latched with owner := 0 }.ctrl.useLatch = false ∨ { latched with owner := 0 }.owner = 0)
      ∧ (peerAcks true init).peer.ack ≠ (peerAcks true init).out.valid ∧ init.peer.ack = init.out.valid
      ∧ resp.ctrl.role = .responder := by decide

/-- LatchModeSample: the latch set and confirmed, for each command and each form of TX_UNIT (a header-only unit, a byte to come after
the header and after a payload byte, the last byte); the failed samples; the last one. -/
theorem witness_LatchModeSample :
    (running 0x0B .hdrWait latched).ctrl.role = .initiator ∧ (running 0x0B .hdrWait latched).phase = .run
      ∧ latched.ctrl.useLatch = true ∧ latched.owner ≠ 0 ∧ { latched with latch := true }.latch = true
      ∧ (peerAcks true latched).peer.ack ≠ (peerAcks true latched).out.valid
      ∧ ((1#17).toNat ≤ { latched with unitN := 1 }.unitN.toNat ∧ Cells.find (1#17).toNat [(0, 0), (1, 7)] = some (7 : Byte))
      ∧ latched.unitN.toNat < (1#17).toNat
      ∧ ((running 0x0B .hdrWait latched).seq = .hdrWait ∧ (running 0x0B .payWait latched).seq = .payWait)
      ∧ (({ latched with unitN := 2, idx := 1 }.idx + 1).toNat ≤ { latched with unitN := 2, idx := 1 }.unitN.toNat
        ∧ Cells.find ({ latched with unitN := 2, idx := 1 }.idx + 1).toNat [(0, 0), (1, 7), (2, 9)] = some (9 : Byte))
      ∧ { latched with unitN := 1, idx := 1 }.unitN.toNat < ({ latched with unitN := 1, idx := 1 }.idx + 1).toNat
      ∧ (latched.latch = false ∨ latched.peer.ack = latched.out.valid)
      ∧ ({ latched with latch := true }.latch = false ∨ latched.peer.ack = latched.out.valid)
      ∧ latched.waitCnt + 1 ≠ latched.params.waitBudget ∧ (lastSample latched).waitCnt + 1 = latched.params.waitBudget := by decide

/-- A latch-mode wait that ends: TX_HEADER with its command, TX_UNIT with IDX 1 already and RESULT still HANDSHAKE_TIMEOUT. -/
theorem witness_LatchModeEndsWherePollingWould :
    got (fun t => decide (t.phase ≠ .run ∧ (t.active = true ∨ t.result ≠ .handshakeTimeout)))
        (exec .txHeader (running 0x07 .hdrWait (peerAcks true { latched with latch := true }))) = some true
      ∧ got (fun t => decide (t.phase ≠ .run ∧ (t.active = true ∨ t.result ≠ .handshakeTimeout)))
        (exec .txUnit (running 0x0B .hdrWait (peerAcks true { latched with
          latch := true, unitN := 1, idx := 1, result := .handshakeTimeout, buf := zeros 2 }))) = some true
      ∧ (running 0x07 .hdrWait latched).phase = .run ∧ (running 0x07 .hdrWait latched).active = true := by decide

theorem witness_RxPayloadAlternatesPolarity :
    got (fun t => (t.active, t.result)) (exec .rxPayload (running 0x05 .payWait (peerSends true 0 resp))) = some (false, .ok)
      ∧ (running 0x05 .payWait (peerSends true 0 resp)).active = true ∧ resp.ctrl.role = .responder := by decide

theorem witness_ReserveTakesOwnership : resp.ownerReq = 0 ∧ ({ resp with ownerReq := 5 }.ownerReq ≠ 0 ∧ { resp with owner := 3 }.owner ≠ 0)
    ∧ resp.owner = 0 ∧ resp.params.reserveAlwaysAllocates = false
    ∧ ({ Params.reference with reserveAlwaysAllocates := true }).reserveAlwaysAllocates = true := by decide

theorem witness_ReleaseFreesTheSource : (resp.owner = 0 ∨ resp.owner ≠ resp.ownerReq)
    ∧ ({ latched with ownerReq := 5 }.owner = 0 ∨ { latched with ownerReq := 5 }.owner ≠ { latched with ownerReq := 5 }.ownerReq)
    ∧ latched.owner ≠ 0 ∧ latched.owner = latched.ownerReq := by decide

theorem witness_EdgeCaptureSetsTheLatch : { resp with edgePend := true }.edgePend = true ∧ resp.edgePend = false := by decide

/-- A step with an edge that is captured, one with an edge that is not (unowned), one without an edge. -/
theorem witness_EdgeDetectionEndsEveryStep :
    got (fun t => t.edgePend) (step (turn (.peer { ack := some true }) { init with owner := 3, mon := false })) = some true
      ∧ got (fun t => (t.edgePend, t.mon)) (step (turn (.peer { ack := some true }) { init with mon := false })) = some (false, true)
      ∧ got (fun t => t.edgePend) (step (turn .tick resp)) = some false := by decide

/-- LATCH set by EdgeCapture; cleared by a read, by a latch-mode sample, by RELEASE, by RESET and by power-up. -/
theorem witness_LatchWriters :
    got (fun t => t.latch) (step (turn .edgeCapture { resp with edgePend := true })) = some true
      ∧ got (fun t => t.latch) (step (turn (.host 0x000800000000) { resp with latch := true })) = some false
      ∧ got (fun t => t.latch) (step (turn .engine (running 0x07 .hdrWait { latched with latch := true }))) = some false
      ∧ got (fun t => t.latch) (step (turn .engine (accepted 0x02 { latched with latch := true }))) = some false
      ∧ got (fun t => t.latch) (step (turn .engine (accepted 0x0F { resp with latch := true }))) = some false
      ∧ got (fun t => t.latch) (step (turn .powerUp { resp with latch := true })) = some false := by decide

theorem witness_RxUnitReceives :
    (resp.phase = .start ∧ resp.ctrl.role = .responder ∧ { resp with len := 255 }.len.toNat + 1 ≤ resp.params.bufSize)
      ∧ flash.ctrl.mode = .flash
      ∧ ((running 0x0A .hdrWait (peerSends true 0 resp)).seq = .hdrWait ∧ (wire (running 0x0A .hdrWait (peerSends true 0 resp))).valid = true)
      ∧ (wire (running 0x0A .payWait (peerSends true 0 resp))).valid = (running 0x0A .payWait (peerSends true 0 resp)).out.ack
      ∧ ((wire (running 0x0A .closeWait resp)).valid = false ∧ Cells.find (resp.unitN.toNat) [(0, 7)] = some (7 : Byte))
      ∧ resp.ctrl.mode = .bridge := by decide

theorem witness_FailedUnitIsDiscarded :
    (∀ st ∈ [(SeqState.hdrWait, false, true), (.payWait, false, true), (.closeWait, true, true)],
      (running 0x0A st.1 (peerSends st.2.1 0 resp)).phase = .run
        ∧ (((running 0x0A st.1 (peerSends st.2.1 0 resp)).seq = .hdrWait ∧ (wire (running 0x0A st.1 (peerSends st.2.1 0 resp))).valid = false)
          ∨ ((running 0x0A st.1 (peerSends st.2.1 0 resp)).seq = .payWait ∧ (wire (running 0x0A st.1 (peerSends st.2.1 0 resp))).valid ≠ resp.out.ack)
          ∨ ((running 0x0A st.1 (peerSends st.2.1 0 resp)).seq = .closeWait ∧ (wire (running 0x0A st.1 (peerSends st.2.1 0 resp))).valid = true)))
      ∧ resp.waitCnt + 1 ≠ resp.params.waitBudget ∧ (lastSample resp).waitCnt + 1 = resp.params.waitBudget
      ∧ flash.ctrl.mode = .flash ∧ resp.ctrl.mode = .bridge := by decide

theorem witness_ReadyPulseEnds :
    (running 0x0A .pulse resp).phase = .run ∧ (running 0x0A .pulse resp).seq = .pulse
      ∧ (running 0x0A .pulse resp).pulseCnt + 1 = resp.params.readyPulse
      ∧ (running 0x0A .pulse resp).pulseCnt + 1 ≠ ({ Params.reference with readyPulse := 2 }).readyPulse := by decide

theorem witness_bytesHeld_bridge : BytesHeld { init with len := 1, buf := zeros 2 } ((if init.ctrl.mode = .flash then 128 else (1#16).toNat) + 1) := by
  unfold BytesHeld
  decide

theorem witness_bytesHeld_page : BytesHeld { flash with buf := zeros 129 } 129 := by
  intro i hi
  have h : ∀ (n m k : Nat), m < n →
      Cells.find (k + m) ((List.range' k n).map (fun i => (i, (0 : Byte)))) = some 0 := by
    intro n
    induction n with
    | zero => intro m k h; omega
    | succ n ih =>
      intro m k h
      simp only [List.range'_succ, List.map_cons, Cells.find]
      cases m with
      | zero => simp
      | succ m =>
        rw [if_neg (by omega)]
        have := ih m (k + 1) (by omega)
        rwa [show k + 1 + m = k + (m + 1) by omega] at this
  have := h 129 i 0 hi
  rw [Nat.zero_add, ← List.range_eq_range'] at this
  simp only [bufDef, zeros, this, Option.isSome_some]

/-- TX_UNIT: the first step with VALID low and high; the drives; the acknowledgments, of the last byte and of another; the failed
samples. -/
theorem witness_TxUnitSends :
    (init.phase = .start ∧ init.ctrl.role = .initiator ∧ { init with len := 255 }.len.toNat + 1 ≤ init.params.bufSize)
      ∧ init.out.valid = false ∧ { init with out := { Levels.low with valid := true } }.out.valid = true
      ∧ Cells.find 0 (zeros 2) = some 0
      ∧ ({ running 0x0B .hdrWait init with phase := .drive }.phase = .drive ∧ { running 0x0B .payWait init with phase := .drive }.seq = .payWait)
      ∧ ((running 0x0B .hdrWait init).phase = .run ∧ (init.ctrl.useLatch = false ∨ init.owner = 0))
      ∧ (((running 0x0B .hdrWait init).seq = .hdrWait ∧ (1#17) = 1 ∧ false = false)
        ∨ ((running 0x0B .hdrWait init).seq = .payWait ∧ (1#17) = init.idx + 1 ∧ false = !init.out.valid))
      ∧ ((running 0x0B .payWait init).seq = .payWait ∧ init.idx + 1 = init.idx + 1 ∧ (!init.out.valid) = !init.out.valid)
      ∧ (peerAcks true init).peer.ack ≠ (peerAcks true init).out.valid ∧ init.peer.ack = init.out.valid
      ∧ ((1#17).toNat ≤ { init with unitN := 1 }.unitN.toNat ∧ Cells.find (1#17).toNat (zeros 2) = some 0)
      ∧ { init with unitN := 0 }.unitN.toNat < (1#17).toNat
      ∧ init.waitCnt + 1 ≠ init.params.waitBudget ∧ (lastSample init).waitCnt + 1 = init.params.waitBudget := by decide

/-- A next state for an instruction of each kind that OnlyUnitCommandsCount and EveryInstructionFrame speak of. -/
theorem witness_exec_next :
    (∃ t, exec .nop resp = .next t) ∧ (∃ t, exec (.rd 0x001) resp = .next t) ∧ (∃ t, exec (.wr 0x100 0x5A) resp = .next t)
      ∧ (∃ t, exec .rxUnit resp = .next t) ∧ (∃ t, exec .txUnit (running 0x0B .hdrWait init) = .next t)
      ∧ (∃ t, exec .flashPage flash = .next t) ∧ (∃ t, exec .release resp = .next t) ∧ (∃ t, exec .getlog resp = .next t)
      ∧ (∃ t, exec .reboot resp = .next t) :=
  ⟨⟨_, rfl⟩, ⟨_, rfl⟩, ⟨_, rfl⟩, ⟨_, rfl⟩, ⟨_, rfl⟩, ⟨_, rfl⟩, ⟨_, rfl⟩, ⟨_, rfl⟩, ⟨_, rfl⟩⟩

theorem witness_FlashPageReceives :
    flash.ctrl.mode = .flash ∧ flash.phase = .start ∧ flash.ctrl.role = .responder
      ∧ ((running 0x0D .hdrWait { flash with unitN := 128 }).unitN = 128 ∧ (wire (running 0x0D .hdrWait (peerSends true 0 flash))).valid = true)
      ∧ (wire (running 0x0D .payWait (peerSends true 0 flash))).valid = (running 0x0D .payWait (peerSends true 0 flash)).out.ack
      ∧ ((running 0x0D .closeWait flash).seq = .closeWait ∧ (wire (running 0x0D .closeWait flash)).valid = false)
      ∧ Cells.find 128 [(0, 2), (128, 0x7F)] = some (0x7F : Byte) ∧ Cells.find 0 [(0, 2), (128, 0x7F)] = some (2 : Byte) := by decide

theorem witness_CommitWritesThePage :
    (running 0x0D .commit flash).phase = .run ∧ (running 0x0D .commit flash).seq = .commit
      ∧ Cells.find 0 (zeros 129) = some 0 ∧ (0 : Byte) ∉ flash.params.protectedPages
      ∧ (0 : Byte) ∈ ({ Params.reference with protectedPages := [0] }).protectedPages
      ∧ (0x7FFF < (0xFF#8).toNat * 128 + 128 ∧ (0xFF#8).toNat * 128 ≤ 0x7F80) := by decide

theorem witness_PageWordsAreLittleEndian : (List.replicate 128 (0 : Byte)).length = 128 := List.length_replicate

theorem witness_PresessionWaitsForSelect :
    resp.phase = .start ∧ resp.ctrl.role = .responder ∧ (running 0x0C .preWait resp).phase = .run
      ∧ (0 = if (wire (running 0x0C .preWait resp)).select then resp.stableCnt + 1 else 0) ∧ 0 ≠ resp.params.selectStable
      ∧ (1 = if (wire { resp with peer := { Levels.low with select := true } }).select then resp.stableCnt + 1 else 0)
      ∧ 1 ≠ ({ Params.reference with selectStable := 2 }).selectStable
      ∧ resp.waitCnt + 1 ≠ resp.params.waitBudget ∧ (lastSample resp).waitCnt + 1 = resp.params.waitBudget := by decide

theorem witness_PresessionByteDecides :
    (if (wire { resp with peer := { Levels.low with select := true } }).select then resp.stableCnt + 1 else 0) = resp.params.selectStable
      ∧ (running 0x0C .preWait resp).phase = .run ∧ (wire (peerSends false 0xFF resp)).data = 0xFF
      ∧ (wire (peerSends false 0x88 resp)).data = resp.params.bootReq := by decide

theorem witness_DispatchRunsTheHandler : resp.ctrl.mode = .bridge ∧ { resp with unitValid := true }.unitValid = true
    ∧ Cells.find 0 [(0, 0x02)] = some (0x02 : Byte) := by decide

theorem witness_PacketForwardsThePayload : ({ Params.reference with opPacket := some 0x50 }).opPacket = some 0x50
    ∧ (∀ i, i < 3 → bufDef { resp with unitLen := 3, buf := zeros 3 } i = true) ∧ { resp with unitLen := 3 }.unitLen.toNat = 3 := by decide

theorem witness_UnknownOpcodesAreSilent : resp.params.wf = true ∧ (0x50 : Byte) ∉ resp.params.opcodes := by decide

theorem witness_StepRunsTheDecodedInstruction :
    ((turn (.host 0x10000000000C#45) resp).turns = .host 0x10000000000C#45 :: [] ∧ decodeHost 0x10000000000C#45 = .wr 0x000 0x0C)
      ∧ ((turn .engine (accepted 0x04 resp)).turns = .engine :: [] ∧ (accepted 0x04 resp).active = true
        ∧ decodeCode (accepted 0x04 resp).cur = .rxHeader)
      ∧ (∃ t, exec .rxHeader { turn .engine (accepted 0x04 resp) with turns := [] } = .next t)
      ∧ faultOf (exec (.rd 0x100) { turn .engine resp with turns := [] }) = some .undefRead :=
  ⟨by decide, by decide, ⟨_, rfl⟩, by decide⟩

theorem witness_OtherAgentsStep : (turn .tick resp).turns = .tick :: [] ∧ (turn (.peer { ack := some true }) resp).turns = .peer { ack := some true } :: []
    ∧ ((turn .engine resp).turns = .engine :: [] ∧ resp.active = false) ∧ (turn .powerUp resp).turns = .powerUp :: [] := by decide

/-- A step that changes every line of the Peer, and one that raises IRQ. -/
theorem witness_HistoryRecordsEveryChange :
    got (fun t => t.history) (step (turn (.peer { data := some 7, valid := some true, select := some true }) resp))
      = some [.data 7, .line .valid true, .line .select true]
    ∧ got (fun t => t.history) (step (turn (.peer { ack := some true, ready := some true, busy := some true }) init))
      = some [.line .ack true, .line .ready true, .line .busy true]
    ∧ got (fun t => t.history) (step (turn .engine (accepted 0x00 { resp with ctrl := { Ctrl.reset with ie := true } }))) = some [.irq true] := by
  decide

/-- Byte 0 of PROGMEM after a commit of page 0 from `commitFrom`, whatever the draws are. -/
def committedByte : Byte := if Config.flashOk 1 then 0 else Config.erasedByte 2 0

/-- A commit of a page of zeros to page 0, whose first byte is another one before it. -/
def commitFrom : State :=
  { running 0x0D .commit flash with buf := zeros 129, progMem := Prog.put 0 (committedByte + 1) [] }

/-- A commit that changes program memory, whatever the draws and the launch image are. -/
theorem witness_OnlyTheCommitWritesProgramMemory :
    ∃ t, step (turn .engine commitFrom) = .next t ∧ t.progMem ≠ commitFrom.progMem := by
  have hstep : step (turn .engine commitFrom) = .next (endStep (turn .engine commitFrom) (commitStep commitFrom)) := rfl
  refine ⟨_, hstep, fun h => ?_⟩
  obtain ⟨es, e⟩ := endStep_eq (turn .engine commitFrom) (commitStep commitFrom)
  rw [e] at h
  have h : (commitStep commitFrom).progMem = commitFrom.progMem := h
  have hbefore : Prog.find 0 commitFrom.progMem = committedByte + 1 := by
    rw [show commitFrom.progMem = Prog.put 0 (committedByte + 1) [] from rfl, progFind_put, if_pos rfl]
  have hafter : Prog.find 0 (commitStep commitFrom).progMem = committedByte := by
    have hp : commitFrom.params.protectedPages.contains (bufByte commitFrom 0) = false := rfl
    have hd : commitFrom.draws = 1 := rfl
    rw [commitStep, hp, if_neg (by decide), commitWith, committedByte, hd]
    split
    · exact progFind_flashWrite_inside (k := 0) (bufByte commitFrom 0) _ _ (by decide)
    · exact progFind_flashErase_inside (k := 0) (bufByte commitFrom 0) _ (by decide)
  rw [h, hbefore] at hafter
  have : ∀ b : Byte, b + 1 ≠ b := by decide
  exact this _ hafter

theorem witness_OnlyTheTickAgentCounts : got (fun t => t.tick) (step (turn .tick { resp with tick := 0xFFFFFFFF })) = some 0
    ∧ nextTurn (turn .tick resp) = .tick ∧ nextTurn (turn .powerUp resp) ≠ .tick := by decide

theorem witness_HostCannotEndACommand :
    got (fun t => t.overrun) (step (turn (.host 0x10000000000F#45) (running 0x04 .hdrWait resp))) = some true
      ∧ nextTurn (turn (.host 0x10000000000F#45) (running 0x04 .hdrWait resp)) = .host 0x10000000000F#45
      ∧ (running 0x04 .hdrWait resp).active = true := by decide

/-- RESULT changed by a command's end, by RESET and by power-up. -/
theorem witness_ResultWrittenOnlyAtTheEnd :
    got (fun t => t.result) (step (turn .engine (accepted 0x07 resp))) = some .roleMismatch ∧ resp.result ≠ .roleMismatch
      ∧ got (fun t => t.result) (step (turn .engine (accepted 0x0F { resp with result := .noUnit }))) = some .ok
      ∧ got (fun t => t.result) (step (turn .powerUp { resp with result := .noUnit })) = some .ok := by decide

/-- FATAL is left by RESET and by power-up, and stays at a refused write of CMD. -/
theorem witness_FatalIsLeftOnlyByReset :
    got (fun t => t.seq) (step (turn .engine (accepted 0x0F { resp with seq := .fatal }))) = some .idle
      ∧ got (fun t => t.seq) (step (turn .powerUp { resp with seq := .fatal })) = some .idle
      ∧ got (fun t => (t.seq, t.active)) (step (turn (.host 0x100000000000#45) { resp with seq := .fatal })) = some (.fatal, false) := by decide

theorem witness_inv : resp.Inv where
  memory := by decide
  monitored := by decide
  released := by decide
  selected := by decide
  unitLen := by decide

theorem witness_step_next : ∃ t, step resp = .next t := ⟨_, rfl⟩

/-- The sequencer invariant in FATAL, at a command's first step, in a wait with one sample left, at a VALID drive. -/
theorem witness_seqLegal_fatal : State.SeqLegal { resp with seq := .fatal } :=
  ⟨by decide, fun h => absurd h (by decide), by rw [if_neg (by decide)]; decide⟩

theorem witness_seqLegal_start : (accepted 0x04 (turn .engine resp)).SeqLegal :=
  ⟨by decide, fun h => absurd h (by decide), by rw [if_pos (by decide)]; exact .inl rfl⟩

theorem witness_seqLegal_run : (lastSample (running 0x04 .hdrWait (turn .engine resp))).SeqLegal :=
  ⟨by decide, fun h => absurd h (by decide), by
    rw [if_pos (by decide)]; exact ⟨by decide, .inr ⟨rfl, .inl ⟨rfl, rfl⟩⟩⟩⟩

theorem witness_seqLegal_drive : State.SeqLegal { running 0x07 .hdrWait (turn .engine init) with phase := .drive } :=
  ⟨by decide, fun h => absurd h (by decide), by rw [if_pos (by decide)]; exact ⟨rfl, .inl ⟨rfl, rfl⟩⟩⟩

/-- EveryCommandEnds: steps of the Engine and of another agent from such states. -/
theorem witness_EveryCommandEnds :
    got (fun t => t.active) (step (lastSample (running 0x04 .hdrWait (turn .engine resp)))) = some false
      ∧ got (fun t => engineStepsLeft t) (step { running 0x07 .hdrWait (turn .engine init) with phase := .drive }) = some 20000
      ∧ engineStepsLeft { running 0x07 .hdrWait (turn .engine init) with phase := .drive } = 20001
      ∧ got (fun t => t.active) (step (turn .tick (running 0x04 .hdrWait resp))) = some true
      ∧ got (fun t => engineStepsLeft t) (step (accepted 0x04 (turn .engine resp))) = some 20002 := by decide

/-- FirstStepBoundsTheCommand: a first step of a command of each kind, and the bound of R261 it meets (W = 1; n + 1 and n + 2 at n = 1;
no wait). -/
theorem witness_FirstStepBoundsTheCommand :
    ((accepted 0x04 (turn .engine resp)).phase = .start ∧ nextTurn (accepted 0x04 (turn .engine resp)) = .engine
        ∧ decodeCode (accepted 0x04 resp).cur ∈ [Instr.rxHeader, .rxPayload, .rxClose, .txHeader, .txPayload, .presession])
      ∧ (decodeCode (accepted 0x0B init).cur = .txUnit ∧ (unitCount { init with len := 1 }).toNat = 1)
      ∧ got (fun t => engineStepsLeft t) (step (accepted 0x0B (turn .engine { init with len := 1, buf := zeros 2 }))) = some 40002
      ∧ (decodeCode (accepted 0x0A resp).cur ∈ [Instr.rxUnit, .flashPage] ∧ (unitCount { resp with len := 1 }).toNat = 1)
      ∧ got (fun t => engineStepsLeft t) (step (accepted 0x0A (turn .engine { resp with len := 1 }))) = some 60002
      ∧ got (fun t => t.active) (step (accepted 0x00 (turn .engine resp))) = some false := by decide

end Sys2Proof.Tests
end

