-- ==== Sys2Proof/Proofs/Turns.lean ====
section
/-! How the turn in store and the agent's step give the machine's step. -/

namespace Sys2Proof.Machine

open Sys2Proof

/-! ### The turn -/

theorem nextTurn_of_cons {s : State} {a : Turn} {rest : List Turn} (h : s.turns = a :: rest) : nextTurn s = a := by
  rw [nextTurn, h]

theorem takeTurn_of_cons {s : State} {a : Turn} {rest : List Turn} (h : s.turns = a :: rest) :
    takeTurn s = { s with turns := rest } := by
  rw [takeTurn, h, List.tail_cons]

/-! ### The agent's step -/

@[simp] theorem agentStep_host (w : HostWord) (s : State) : agentStep (.host w) s = exec (decodeHost w) s := rfl

theorem agentStep_engine_active {s : State} (h : s.active = true) :
    agentStep .engine s = exec (decodeCode s.cur) s := by
  rw [agentStep, if_pos h]

/-- What the agent of the next step runs, where that is the instruction `i`: the Host its transaction (R80), the Engine the active
command (R87, R88). -/
theorem agentStep_runs_decoded {s : State} {rest : List Turn} {i : Instr}
    (h : (∃ w, s.turns = .host w :: rest ∧ decodeHost w = i)
      ∨ (s.turns = .engine :: rest ∧ s.active = true ∧ decodeCode s.cur = i)) :
    agentStep (nextTurn s) (takeTurn s) = exec i { s with turns := rest } := by
  rcases h with ⟨w, hturn, rfl⟩ | ⟨hturn, hactive, rfl⟩
  · rw [nextTurn_of_cons hturn, takeTurn_of_cons hturn, agentStep_host]
  · have hactive' : (takeTurn s).active = true := by rw [takeTurn_active, hactive]
    rw [nextTurn_of_cons hturn, agentStep_engine_active hactive', takeTurn_cur, takeTurn_of_cons hturn]

/-! ### The machine's step, by the outcome of the agent's -/

theorem step_of_agentStep_next {s u : State} (h : agentStep (nextTurn s) (takeTurn s) = .next u) :
    step s = .next (endStep s u) := by
  rw [step, h]

theorem step_of_agentStep_fault {s : State} {f : Fault} (h : agentStep (nextTurn s) (takeTurn s) = .fault f) :
    step s = .fault f := by
  rw [step, h]

theorem step_of_agentStep_refused {s : State} {r : Refusal} (h : agentStep (nextTurn s) (takeTurn s) = .refused r) :
    step s = .refused r := by
  rw [step, h]

end Sys2Proof.Machine
end

