-- ==== Sys2Proof/Proofs/Scope.lean ====
section
/-! The statements of spec/00_scope.md. -/

namespace Sys2Proof.Machine

open Sys2Proof

/-- Settles O47: the agent's step is `exec` of the decoded instruction, and the machine's step carries each outcome of the agent's. -/
theorem stepRunsTheDecodedInstruction : Obligations.StepRunsTheDecodedInstruction := by
  intro s rest i hturn
  have hrun := agentStep_runs_decoded hturn
  refine ⟨fun t ht => ?_, fun f hf => ?_, fun r hr => ?_⟩
  · exact step_of_agentStep_next (hrun.trans ht)
  · exact step_of_agentStep_fault (hrun.trans hf)
  · exact step_of_agentStep_refused (hrun.trans hr)

end Sys2Proof.Machine
end

