-- ==== Sys2Proof/Proofs/Outcomes.lean ====
section
/-! What holds of the next state of an outcome; the check of a first step; the codes the decoders read. -/

namespace Sys2Proof.Machine

open Sys2Proof

/-! ### Outcomes -/

/-- `P` holds of the next state, where the outcome has one. -/
def Ensures (P : State → Prop) : Out → Prop
  | .next t => P t
  | .fault _ => True
  | .refused _ => True

@[simp] theorem ensures_next (P : State → Prop) (t : State) : Ensures P (.next t) ↔ P t := Iff.rfl

theorem Ensures.imp {P Q : State → Prop} {o : Out} (h : Ensures P o) (hpq : ∀ t, P t → Q t) : Ensures Q o := by
  cases o with
  | next t => exact hpq t h
  | fault _ => trivial
  | refused _ => trivial

theorem Ensures.of_eq {P : State → Prop} {o : Out} {t : State} (h : Ensures P o) (ht : o = .next t) : P t := by
  rwa [ht] at h

/-! ### The checks of a first step (R88) -/

theorem eq_of_check {α : Type} {a b : α} (h : some a = none ∨ some a = some b) : b = a := by
  rcases h with h | h
  · cases h
  · exact (Option.some.inj h).symm

/-! ### Command codes (R84, R85) -/

/-- The command decoder loses nothing: the instruction's number is the code. -/
theorem encodeNumber_decodeCode (p : Params) (c : Byte) : encodeNumber p (decodeCode c) = c.toNat := by
  unfold decodeCode
  split <;> simp only [encodeNumber, *]

theorem decodeCode_injective : Function.Injective decodeCode := fun c d h => by
  apply BitVec.eq_of_toNat_eq
  rw [← encodeNumber_decodeCode Params.reference c, h, encodeNumber_decodeCode]

@[simp] theorem format_decodeCode (c : Byte) : (decodeCode c).format = .command := by
  unfold decodeCode
  split <;> rfl

@[simp] theorem format_decodeHost (w : HostWord) : (decodeHost w).format = .host := by
  unfold decodeHost
  split <;> rfl

end Sys2Proof.Machine
end

