-- ==== Sys2Proof/Proofs/EngineFrame.lean ====
section
/-! What an instruction of the Engine that resets nothing leaves of the state, in one relation: the operations of the Engine keep it,
so each instruction is in it by the operations it is made of. The statements about single fields are read off it. -/

namespace Sys2Proof.Machine

open Sys2Proof

/-! ### The relation -/

/-- An event a rule emits by itself (R12): no change of the wire or of IRQ. -/
def Event.IsReport : Event → Prop
  | .restart | .packet _ | .blink _ => True
  | .irq _ | .data _ | .line _ _ => False

/-- The instructions that write DISP_OUT (R41, R193, R196). -/
def dispOutWriters : List Instr :=
  [.getlog, .getconfig, .setconfig, .storageInfo, .storageRead, .storageWrite, .packet, .dispatch]

/-- `t` is `s` but for what the Engine may change in one step of instruction `i` that resets nothing. -/
structure EngineFrame (i : Instr) (s t : State) : Prop where
  params : t.params = s.params
  peer : t.peer = s.peer
  turns : t.turns = s.turns
  rdata : t.rdata = s.rdata
  tick : t.tick = s.tick
  operands : t.txdata = s.txdata ∧ t.len = s.len ∧ t.ownerReq = s.ownerReq
  role : t.ctrl.role = s.ctrl.role
  selectOut : t.ctrl.selectOut = s.ctrl.selectOut
  select : t.out.select = s.out.select
  /-- Only an Initiator begins to drive DATA (R24). -/
  driver : t.dir = true → s.dir = true ∨ s.ctrl.role = .initiator
  /-- UNIT_LEN stays 0 without a unit (R45). -/
  unitLen : (s.unitValid = false → s.unitLen = 0) → t.unitValid = false → t.unitLen = 0
  memory : Memory.wf s = true → Memory.wf t = true
  progMem : i ≠ .flashPage → t.progMem = s.progMem
  buf : i ∉ [Instr.rxUnit, .flashPage] → t.buf = s.buf
  rxCounts : i ∉ [Instr.rxUnit, .flashPage] → t.rxBytes = s.rxBytes ∧ t.rxErr = s.rxErr
  txCounts : i ≠ .txUnit → t.txBytes = s.txBytes ∧ t.txErr = s.txErr
  owner : i ∉ [Instr.reserve, .release] → t.owner = s.owner ∧ t.conflict = s.conflict
  dispOut : i ∉ dispOutWriters → t.dispOut = s.dispOut
  /-- RESULT is written only where the command ends (R29). -/
  result : t.result = s.result ∨ t.active = false
  /-- At most one event is emitted. -/
  history : t.history = s.history ∨ ∃ e, e.IsReport ∧ t.history = s.history ++ [e]

namespace EngineFrame

variable {i : Instr} {s u : State}

theorem refl (i : Instr) (s : State) : EngineFrame i s s where
  params := rfl
  peer := rfl
  turns := rfl
  rdata := rfl
  tick := rfl
  operands := ⟨rfl, rfl, rfl⟩
  role := rfl
  selectOut := rfl
  select := rfl
  driver := .inl
  unitLen := id
  memory := id
  progMem _ := rfl
  buf _ := rfl
  rxCounts _ := ⟨rfl, rfl⟩
  txCounts _ := ⟨rfl, rfl⟩
  owner _ := ⟨rfl, rfl⟩
  dispOut _ := rfl
  result := .inl rfl
  history := .inl rfl

/-! ### The operations of the Engine keep it -/

/-- What the relation does not look at: the driven lines but SELECT, the sequencer, the fields the receive and the edge capture set. -/
theorem moved (h : EngineFrame i s u) {data : Byte} {valid ack ready busy : Bool} {seq : SeqState} {phase : Phase} {idx unitN : Count}
    {pol : Bool} {waitCnt stableCnt pulseCnt : Nat} {rxdata pageIdx : Byte} {latch edgePend mon : Bool} {draws : Nat} :
    EngineFrame i s { u with
      out := { data := data, valid := valid, ack := ack, select := u.out.select, ready := ready, busy := busy }
      seq := seq, phase := phase, idx := idx, unitN := unitN, pol := pol, waitCnt := waitCnt, stableCnt := stableCnt
      pulseCnt := pulseCnt, rxdata := rxdata, pageIdx := pageIdx, latch := latch, edgePend := edgePend, mon := mon
      draws := draws } :=
  { h with }

theorem raise (h : EngineFrame i s u) (c : ResultCode) : EngineFrame i s (raise c u) :=
  { h with result := .inr rfl }

theorem emit (h : EngineFrame i s u) (hu : u.history = s.history) {e : Event} (he : e.IsReport) : EngineFrame i s (emit e u) :=
  { h with history := .inr ⟨e, he, by rw [emit_history, hu]⟩ }

theorem raiseBlink (h : EngineFrame i s u) (hu : u.history = s.history) (c : ResultCode) : EngineFrame i s (raiseBlink c u) :=
  (h.emit hu (e := .blink c) trivial).raise c

theorem flashMode (h : EngineFrame i s u) : EngineFrame i s { u with ctrl := { u.ctrl with mode := .flash } } :=
  { h with }

theorem drivesData (h : EngineFrame i s u) (hr : s.ctrl.role = .initiator) : EngineFrame i s { u with dir := true } :=
  { h with driver := fun _ => .inr hr }

theorem releasesData (h : EngineFrame i s u) : EngineFrame i s { u with dir := false } :=
  { h with driver := fun hd => by cases hd }

/-- BUF as a receive changes it. -/
theorem putsBuf (h : EngineFrame i s u) (hi : i ∈ [Instr.rxUnit, .flashPage]) {m : List Host.Cell}
    (hm : Memory.wf u = true → Memory.wf { u with buf := m } = true) : EngineFrame i s { u with buf := m } :=
  { h with
    memory := fun hs => hm (h.memory hs)
    buf := fun hn => absurd hi hn }

theorem putsProg (h : EngineFrame .flashPage s u) {m : List Host.Cell} {n : Nat}
    (hm : Memory.wf u = true → Memory.wf { u with progMem := m } = true) :
    EngineFrame .flashPage s { u with progMem := m, draws := n } :=
  { h with
    memory := fun hs => hm (h.memory hs)
    progMem := fun hn => absurd rfl hn }

theorem countsRx (h : EngineFrame i s u) (hi : i ∈ [Instr.rxUnit, .flashPage]) {bytes err : Word} :
    EngineFrame i s { u with rxBytes := bytes, rxErr := err } :=
  { h with rxCounts := fun hn => absurd hi hn }

theorem countsTx (h : EngineFrame .txUnit s u) {bytes err : Word} :
    EngineFrame .txUnit s { u with txBytes := bytes, txErr := err } :=
  { h with txCounts := fun hn => absurd rfl hn }

theorem holdsUnit (h : EngineFrame i s u) {n : Count} : EngineFrame i s { u with unitValid := true, unitLen := n } :=
  { h with unitLen := fun _ hv => by cases hv }

theorem dropsUnit (h : EngineFrame i s u) : EngineFrame i s { u with unitValid := false, unitLen := 0 } :=
  { h with unitLen := fun _ _ => rfl }

/-- The edge-capture source taken, refused or given back. -/
theorem setsSource (h : EngineFrame i s u) (hi : i ∈ [Instr.reserve, .release]) {owner conflict : Byte}
    {latch edgePend mon : Bool} :
    EngineFrame i s
      { u with owner := owner, conflict := conflict, latch := latch, edgePend := edgePend, mon := mon } :=
  { h with owner := fun hn => absurd hi hn }

theorem recordsHandler (h : EngineFrame i s u) (hi : i ∈ dispOutWriters) (o : DispOutcome) (k : BitVec 4) (op : Byte) :
    EngineFrame i s (recordHandler o k op u) :=
  { h with dispOut := fun hn => absurd hi hn }

end EngineFrame

/-! ### The single-byte commands and the edge-capture source -/

variable {s : State}

theorem firstStep_frame {i : Instr} {role : Option Role} {mode : Option Mode} {body : State → State}
    (hb : (role = none ∨ role = some s.ctrl.role) → EngineFrame i s (body s)) : EngineFrame i s (firstStep role mode body s) :=
  firstStep_induct ((EngineFrame.refl i s).raise _) ((EngineFrame.refl i s).raise _) fun hr _ => hb hr

/-- A sample whose two ways out of the wait are in the relation is. -/
theorem sample_frame {i : Instr} {cond : Bool} {leave timeout : State → State} (hl : EngineFrame i s (leave s))
    (ht : ∀ n, EngineFrame i s (timeout { s with waitCnt := n })) : EngineFrame i s (sample cond leave timeout s) :=
  sample_induct (fun _ => hl) (fun _ => ht _) fun _ => (EngineFrame.refl i s).moved

theorem ackSample_frame {i : Instr} {leave timeout : State → State} (hl : ∀ b, EngineFrame i s (leave { s with latch := b }))
    (ht : ∀ b n, EngineFrame i s (timeout { s with latch := b, waitCnt := n })) : EngineFrame i s (ackSample leave timeout s) :=
  ackSample_induct (fun b _ => hl b) (fun b _ => ht b _) fun _ _ => (EngineFrame.refl i s).moved

theorem timeoutByte_frame {i : Instr} {u : State} (h : EngineFrame i s u) : EngineFrame i s (timeoutByte u) := h.raise _

theorem execRearm_frame (i : Instr) : Ensures (EngineFrame i s) (execRearm s) :=
  firstStep_frame fun _ => (EngineFrame.refl i s).moved.raise _

theorem execRxHeader_frame (i : Instr) : Ensures (EngineFrame i s) (execRxHeader s) := by
  have h := EngineFrame.refl i s
  have hsample := sample_frame (cond := (wire s).valid) (leave := rxHeaderTake) (timeout := timeoutByte) (h.moved.raise _)
    fun _ => timeoutByte_frame h.moved
  simp only [execRxHeader, ensures_next]
  cases s.phase with
  | start =>
    refine firstStep_frame fun _ => ?_
    split
    · exact h.moved
    · exact h.raise _
  | drive => exact hsample
  | run => exact hsample

theorem execRxPayload_frame (i : Instr) : Ensures (EngineFrame i s) (execRxPayload s) := by
  have h := EngineFrame.refl i s
  have hsample := sample_frame (cond := (wire s).valid == s.out.ack) (leave := rxPayloadTake) (timeout := timeoutByte)
    (h.moved.raise _) fun _ => timeoutByte_frame h.moved
  simp only [execRxPayload, ensures_next]
  cases s.phase with
  | start => exact firstStep_frame fun _ => h.moved
  | drive => exact hsample
  | run => exact hsample

theorem execRxClose_frame (i : Instr) : Ensures (EngineFrame i s) (execRxClose s) := by
  have h := EngineFrame.refl i s
  have hsample := sample_frame (cond := !(wire s).valid) (leave := raise .ok) (timeout := timeoutByte)
    (h.raise _) fun _ => timeoutByte_frame h.moved
  simp only [execRxClose, ensures_next]
  cases s.phase with
  | start => exact firstStep_frame fun _ => h.moved
  | drive => exact hsample
  | run => exact hsample

theorem execTxHeader_frame (i : Instr) : Ensures (EngineFrame i s) (execTxHeader s) := by
  have h := EngineFrame.refl i s
  simp only [execTxHeader, ensures_next]
  cases s.phase with
  | start =>
    refine firstStep_frame fun hrole => ?_
    split
    · exact h.raise _
    · exact (h.drivesData (eq_of_check hrole)).moved
  | drive => exact h.moved
  | run => exact ackSample_frame (fun _ => h.moved.raise _) fun _ _ => timeoutByte_frame h.moved

theorem execTxPayload_frame (i : Instr) : Ensures (EngineFrame i s) (execTxPayload s) := by
  have h := EngineFrame.refl i s
  simp only [execTxPayload, ensures_next]
  cases s.phase with
  | start =>
    refine firstStep_frame fun _ => ?_
    split
    · exact h.moved
    · exact h.raise _
  | drive => exact h.moved
  | run => exact ackSample_frame (fun _ => h.moved.raise _) fun _ _ => timeoutByte_frame h.moved

theorem closeSend_frame {i : Instr} {u : State} (h : EngineFrame i s u) : EngineFrame i s (closeSend u) :=
  h.releasesData.moved

theorem execTxClose_frame (i : Instr) : Ensures (EngineFrame i s) (execTxClose s) :=
  firstStep_frame fun _ => (closeSend_frame (EngineFrame.refl i s)).raise _

theorem execReserve_frame : Ensures (EngineFrame .reserve s) (execReserve s) := by
  have h := EngineFrame.refl .reserve s
  have hi : Instr.reserve ∈ [Instr.reserve, .release] := by decide
  have htake : ∀ ok {u : State}, EngineFrame .reserve s u → EngineFrame .reserve s (reserveWith ok u) := by
    intro ok u hu
    unfold reserveWith
    split
    · exact (hu.setsSource hi).raise _
    · exact hu.raise _
  simp only [execReserve, ensures_next]
  split
  · exact h.raise _
  · split
    · exact (h.setsSource hi).raise _
    · split
      · exact htake _ h
      · exact htake _ h.moved

theorem execRelease_frame : Ensures (EngineFrame .release s) (execRelease s) := by
  have h := EngineFrame.refl .release s
  simp only [execRelease, ensures_next]
  split
  · exact h.raise _
  · exact (h.setsSource (by decide)).raise _

/-! ### Receiving a unit -/

section Receive

variable {i : Instr} {u : State}

theorem rxUnitStart_frame (h : EngineFrame i s u) : EngineFrame i s (rxUnitStart u) := h.dropsUnit.moved

theorem rxUnitNext_frame (h : EngineFrame i s u) : EngineFrame i s (rxUnitNext u) := by
  unfold rxUnitNext
  split <;> exact h.moved

/-- A byte stored in BUF. -/
theorem storedByte_frame (h : EngineFrame i s u) (hi : i ∈ [Instr.rxUnit, .flashPage]) (k : Nat) (b : Byte) :
    EngineFrame i s { u with buf := Cells.put k b u.buf } :=
  h.putsBuf hi (memory_wf_putBuf k b)

theorem rxUnitFail_frame (h : EngineFrame i s u) (hi : i ∈ [Instr.rxUnit, .flashPage]) (hu : u.history = s.history) :
    EngineFrame i s (rxUnitFail u) := by
  have hdiscard : EngineFrame i s (discardUnit u) := (h.putsBuf hi (memory_wf_dropBuf _)).dropsUnit.countsRx hi
  unfold rxUnitFail
  split
  · exact hdiscard.raiseBlink hu _
  · exact hdiscard.raise _

theorem deliverUnit_frame (h : EngineFrame i s u) (hi : i ∈ [Instr.rxUnit, .flashPage]) : EngineFrame i s (deliverUnit u) :=
  (h.holdsUnit.countsRx hi).moved

theorem startPulse_frame (h : EngineFrame i s u) : EngineFrame i s (startPulse u) := h.moved

theorem pulseStep_frame (h : EngineFrame i s u) : EngineFrame i s (pulseStep u) := by
  unfold pulseStep
  split
  · exact h.moved.raise _
  · exact h.moved

/-- The waits of a receive, for what follows its close sample. -/
theorem rxUnitWaits_frame {closed : State → State} (hi : i ∈ [Instr.rxUnit, .flashPage])
    (hc : EngineFrame i s (closed (deliverUnit s))) : EngineFrame i s (rxUnitWaits closed s) := by
  have h := EngineFrame.refl i s
  have hfail : ∀ n, EngineFrame i s (rxUnitFail { s with waitCnt := n }) := fun n => rxUnitFail_frame h.moved hi rfl
  unfold rxUnitWaits
  split
  · exact sample_frame (rxUnitNext_frame (storedByte_frame h hi _ _).moved) hfail
  · exact sample_frame (rxUnitNext_frame (storedByte_frame h hi _ _).moved) hfail
  · exact sample_frame hc hfail
  · exact pulseStep_frame h
  all_goals exact h

theorem rxUnitClosed_frame (h : EngineFrame i s u) : EngineFrame i s (rxUnitClosed u) := by
  unfold rxUnitClosed
  split
  · exact startPulse_frame h
  · exact h.raise _

end Receive

theorem execRxUnit_frame : Ensures (EngineFrame .rxUnit s) (execRxUnit s) := by
  have h := EngineFrame.refl .rxUnit s
  have hi : Instr.rxUnit ∈ [Instr.rxUnit, .flashPage] := by decide
  have hwaits := rxUnitWaits_frame hi (rxUnitClosed_frame (deliverUnit_frame h hi))
  simp only [execRxUnit, ensures_next]
  cases s.phase with
  | start =>
    refine firstStep_frame fun _ => ?_
    split
    · exact h.raise _
    · exact rxUnitStart_frame h
  | drive => exact hwaits
  | run => exact hwaits

/-! ### The page commit -/

theorem flashErase_frame {u : State} (h : EngineFrame .flashPage s u) (p : Byte) : EngineFrame .flashPage s (flashErase p u) :=
  h.putsProg (memory_wf_flashErase p)

theorem flashWrite_frame {u : State} (h : EngineFrame .flashPage s u) (p : Byte) {ws : List Half} (hl : ws.length = 64) :
    EngineFrame .flashPage s (flashWrite p ws u) :=
  h.putsProg fun hu => memory_wf_flashWrite p ws hu hl

/-- The payload of a page is 64 words (R65). -/
theorem length_pageWords (u : State) : (wordsOfBytes (pagePayloadBytes u)).length = 64 := by
  have h := congrArg List.length (bytesOfWords_page u)
  rw [length_bytesOfWords, length_pagePayloadBytes, pagePayload] at h
  omega

theorem commitWith_frame {u : State} (h : EngineFrame .flashPage s u) (hu : u.history = s.history) (ok : Bool) :
    EngineFrame .flashPage s (commitWith ok u) := by
  have herase := flashErase_frame h (bufByte u 0)
  unfold commitWith
  split
  · exact startPulse_frame (flashWrite_frame herase _ (length_pageWords u))
  · exact herase.raiseBlink hu _

theorem commitStep_frame : EngineFrame .flashPage s (commitStep s) := by
  have h := EngineFrame.refl .flashPage s
  unfold commitStep
  split
  · exact h.raiseBlink rfl _
  · exact commitWith_frame (u := { s with draws := s.draws + 1 }) h.moved rfl _

theorem execFlashPage_frame : Ensures (EngineFrame .flashPage s) (execFlashPage s) := by
  have h := EngineFrame.refl .flashPage s
  have hi : Instr.flashPage ∈ [Instr.rxUnit, .flashPage] := by decide
  have hrun : EngineFrame .flashPage s (if s.seq = .commit then commitStep s else rxUnitWaits flashPageClosed s) := by
    split
    · exact commitStep_frame
    · exact rxUnitWaits_frame hi (deliverUnit_frame h hi).moved
  simp only [execFlashPage, ensures_next]
  cases s.phase with
  | start => exact firstStep_frame fun _ => rxUnitStart_frame h
  | drive => exact hrun
  | run => exact hrun

/-! ### Sending a unit -/

theorem txUnitStart_frame (hrole : s.ctrl.role = .initiator) : EngineFrame .txUnit s (txUnitStart s) := by
  have h := EngineFrame.refl .txUnit s
  unfold txUnitStart
  split
  · exact h.raise _
  · exact (h.drivesData hrole).moved

theorem txUnitNext_frame {u : State} (h : EngineFrame .txUnit s u) : EngineFrame .txUnit s (txUnitNext u) := by
  unfold txUnitNext
  split
  · exact h.moved
  · exact (closeSend_frame h).countsTx.raise _

theorem txUnitFail_frame {u : State} (h : EngineFrame .txUnit s u) : EngineFrame .txUnit s (txUnitFail u) := h.countsTx.raise _

theorem txUnitStep_frame : EngineFrame .txUnit s (txUnitStep s) := by
  have h := EngineFrame.refl .txUnit s
  unfold txUnitStep
  split
  · refine firstStep_frame fun hrole => ?_
    split
    · exact h.raise _
    · exact txUnitStart_frame (eq_of_check hrole)
  · split
    · exact h.moved
    · exact h.moved
    all_goals exact h
  · split
    · exact ackSample_frame (fun _ => txUnitNext_frame h.moved) fun _ _ => txUnitFail_frame h.moved
    · exact ackSample_frame (fun _ => txUnitNext_frame h.moved) fun _ _ => txUnitFail_frame h.moved
    all_goals exact h

theorem execTxUnit_frame : Ensures (EngineFrame .txUnit s) (execTxUnit s) := by
  unfold execTxUnit
  split
  · trivial
  · exact txUnitStep_frame

/-! ### Session start -/

section Session

variable {i : Instr} {u : State}

theorem takePreByte_frame (h : EngineFrame i s u) (b : Byte) : EngineFrame i s (takePreByte b u) := h.moved

theorem execPreSentinel_frame (h : EngineFrame i s u) (hu : u.history = s.history) :
    Ensures (EngineFrame i s) (execPreSentinel u) :=
  (takePreByte_frame h _).raiseBlink hu _

theorem execPreBootReq_frame (h : EngineFrame i s u) : Ensures (EngineFrame i s) (execPreBootReq u) :=
  (takePreByte_frame h _).flashMode.raise _

theorem execPreOther_frame (h : EngineFrame i s u) (hu : u.history = s.history) (b : Byte) :
    Ensures (EngineFrame i s) (execPreOther b u) :=
  (takePreByte_frame h _).raiseBlink hu _

theorem preByteMeaning_frame (h : EngineFrame i s u) (hu : u.history = s.history) :
    Ensures (EngineFrame i s) (preByteMeaning u) := by
  unfold preByteMeaning
  split
  · exact execPreSentinel_frame h hu
  · exact execPreBootReq_frame h
  · exact execPreOther_frame h hu _

theorem execPresession_frame : Ensures (EngineFrame i s) (execPresession s) := by
  have h := EngineFrame.refl i s
  have hrun : Ensures (EngineFrame i s) (presessionSample (countSelect s)) := by
    unfold presessionSample
    split
    · exact preByteMeaning_frame h.moved rfl
    · refine sample_induct (P := EngineFrame i s) (fun hc => by cases hc) (fun _ => ?_) fun _ => h.moved
      have htimeout : EngineFrame i s (driveBusy false { countSelect s with waitCnt := s.waitCnt + 1 }) := h.moved
      exact htimeout.raiseBlink rfl _
  unfold execPresession
  cases s.phase with
  | start => exact firstStep_frame fun _ => h.moved
  | drive => exact hrun
  | run => exact hrun

end Session

/-! ### The dispatcher -/

section Dispatch

variable {i : Instr} {u : State}

theorem placeholder_frame (h : EngineFrame i s u) (hi : i ∈ dispOutWriters) (k : BitVec 4) (op : Byte) :
    EngineFrame i s (placeholder k op u) :=
  (h.recordsHandler hi _ k op).raise _

theorem execPacket_frame (h : EngineFrame i s u) (hu : u.history = s.history) (hi : i ∈ dispOutWriters) :
    Ensures (EngineFrame i s) (execPacket u) := by
  simp only [execPacket, ensures_next]
  split
  · exact ((h.emit hu (e := .packet _) trivial).recordsHandler hi _ _ _).raise _
  · exact h.raise _

/-- The frame router ends a command as its row says, or REBOOT resets the block (R192). -/
theorem dispatchFrame_frame (h : EngineFrame .dispatch s u) (hu : u.history = s.history) :
    Ensures (fun t => t = blockReset (emit .restart u) ∨ EngineFrame .dispatch s t) (dispatchFrame u) := by
  have hi : Instr.dispatch ∈ dispOutWriters := by decide
  unfold dispatchFrame
  split
  · exact .inl rfl
  iterate 6 exact .inr (placeholder_frame h hi _ _)
  · exact .inr (execPacket_frame h hu hi)
  · exact .inr (h.raise _)
  · exact .inr (h.raise _)

/-- What an instruction that resets the block leaves (R192, R198, R240): RESTART recorded or not, and the reset. -/
def ResetOf (s t : State) : Prop := ∃ es, (es = [] ∨ es = [Event.restart]) ∧ t = blockReset { s with history := s.history ++ es }

theorem resetOf_blockReset (s : State) : ResetOf s (blockReset s) := ⟨[], .inl rfl, by rw [List.append_nil]⟩

theorem resetOf_restart (s : State) : ResetOf s (blockReset (emit .restart s)) := ⟨_, .inr rfl, rfl⟩

theorem execDispatch_frame : Ensures (fun t => ResetOf s t ∨ EngineFrame .dispatch s t) (execDispatch s) := by
  have h := EngineFrame.refl .dispatch s
  unfold execDispatch
  split
  · split
    · refine (dispatchFrame_frame (u := { s with seq := .dispatch }) h.moved rfl).imp fun t ht => ht.imp_left ?_
      rintro rfl
      exact resetOf_restart s
    · exact .inr (h.raise _)
  · exact .inr (h.raise _)

end Dispatch

/-! ### The host's accesses -/

/-- What a host read can do (R80): it returns a value, may clear the latch (R36) and may take a draw (R43). -/
def ReadOf (s t : State) : Prop := ∃ v l n, t = { s with rdata := v, latch := l, draws := n }

theorem execRd_next {reg : RegNum} : Ensures (ReadOf s) (execRd reg s) := by
  have hvalue : ∀ v, ReadOf s (readReturns v s) := fun v => ⟨v, s.latch, s.draws, rfl⟩
  unfold execRd
  cases hostReg s.params reg with
  | latch => exact ⟨_, _, _, rfl⟩
  | rxRate => exact ⟨_, _, _, rfl⟩
  | txRate => exact ⟨_, _, _, rfl⟩
  | buf i =>
    simp only [readBuf]
    split
    · trivial
    · split
      · exact hvalue _
      · trivial
  | _ => exact hvalue _

/-- What a host write can do: accept or refuse a command (R87), clear OVERRUN (R28), set CTRL (R30), set an operand (R32, R34, R38),
store a byte of BUF (R47), or nothing (the operands as they are). -/
inductive WriteOf (s : State) : State → Prop
  | refused : s.active = true → WriteOf s { s with overrun := true }
  | accepted (code : Byte) : s.active = false → ¬(s.seq = .fatal ∧ code ≠ 0x0F#8) →
      WriteOf s { s with cur := code, active := true, done := false, irq := false, phase := .start }
  | overrun (v : Bool) : WriteOf s { s with overrun := v }
  | ctrl (d : Word) : s.active = false → WriteOf s (writeCtrl d s)
  | operands (txdata : Byte) (len : Half) (ownerReq : Byte) :
      WriteOf s { s with txdata := txdata, len := len, ownerReq := ownerReq }
  | buf (i : Nat) (b : Byte) : s.active = false → WriteOf s { s with buf := Cells.put i b s.buf }

theorem WriteOf.nothing (s : State) : WriteOf s s := .operands s.txdata s.len s.ownerReq

theorem writeCmd_writeOf (code : Byte) : WriteOf s (writeCmd code s) := by
  unfold writeCmd
  split
  · next ha => exact .refused ha
  · next ha =>
    split
    · exact .nothing s
    · next hf => exact .accepted code (by simpa using ha) hf

theorem writeCtrl_writeOf (d : Word) : WriteOf s (writeCtrl d s) := by
  cases ha : s.active with
  | true =>
    rw [writeCtrl, if_pos ha]
    exact .nothing s
  | false => exact .ctrl d ha

theorem writeBuf_writeOf (i : Nat) (b : Byte) : Ensures (WriteOf s) (writeBuf i b s) := by
  unfold writeBuf
  split
  · trivial
  · next ha => exact .buf i b (by simpa using ha)

theorem execWr_writeOf {reg : RegNum} {d : Word} : Ensures (WriteOf s) (execWr reg d s) := by
  unfold execWr
  cases hostReg s.params reg with
  | cmd => exact writeCmd_writeOf _
  | status => exact .overrun _
  | ctrl => exact writeCtrl_writeOf _
  | txdata => exact .operands _ _ _
  | len => exact .operands _ _ _
  | ownerReq => exact .operands _ _ _
  | buf i => exact writeBuf_writeOf _ _
  | _ => exact .nothing s

/-- What no host access changes. -/
structure HostFrame (s t : State) : Prop where
  params : t.params = s.params
  peer : t.peer = s.peer
  turns : t.turns = s.turns
  tick : t.tick = s.tick
  result : t.result = s.result
  progMem : t.progMem = s.progMem
  rxCounts : t.rxBytes = s.rxBytes ∧ t.rxErr = s.rxErr
  txCounts : t.txBytes = s.txBytes ∧ t.txErr = s.txErr
  owner : t.owner = s.owner ∧ t.conflict = s.conflict
  dispOut : t.dispOut = s.dispOut
  history : t.history = s.history

theorem ReadOf.frame {t : State} (h : ReadOf s t) : HostFrame s t := by
  obtain ⟨v, l, n, rfl⟩ := h
  exact ⟨rfl, rfl, rfl, rfl, rfl, rfl, ⟨rfl, rfl⟩, ⟨rfl, rfl⟩, ⟨rfl, rfl⟩, rfl, rfl⟩

theorem writeCtrl_of_inactive (d : Word) (ha : s.active = false) :
    writeCtrl d s = { s with
      ctrl := ctrlOfWord d
      dir := if (ctrlOfWord d).role = s.ctrl.role then s.dir else false
      out := { s.out with
        select := if (ctrlOfWord d).selectOut = s.ctrl.selectOut then s.out.select else (ctrlOfWord d).selectOut }
      irq := s.irq && (ctrlOfWord d).ie } := by
  rw [writeCtrl, if_neg (by simp [ha])]

theorem WriteOf.frame {t : State} (h : WriteOf s t) : HostFrame s t ∧ t.rdata = s.rdata := by
  cases h with
  | ctrl d ha =>
    rw [writeCtrl_of_inactive d ha]
    exact ⟨⟨rfl, rfl, rfl, rfl, rfl, rfl, ⟨rfl, rfl⟩, ⟨rfl, rfl⟩, ⟨rfl, rfl⟩, rfl, rfl⟩, rfl⟩
  | _ => exact ⟨⟨rfl, rfl, rfl, rfl, rfl, rfl, ⟨rfl, rfl⟩, ⟨rfl, rfl⟩, ⟨rfl, rfl⟩, rfl, rfl⟩, rfl⟩

/-! ### Every instruction -/

/-- What an instruction that goes on can do. -/
inductive ExecOf (i : Instr) (s t : State) : Prop
  | read (r : RegNum) : i = .rd r → ReadOf s t → ExecOf i s t
  | write (r : RegNum) (d : Word) : i = .wr r d → WriteOf s t → ExecOf i s t
  | reset : i ∈ [Instr.reset, .reboot, .dispatch] → ResetOf s t → ExecOf i s t
  | engine : i.format ≠ .host → EngineFrame i s t → ExecOf i s t

theorem exec_ensures (i : Instr) : Ensures (ExecOf i s) (exec i s) := by
  have h := EngineFrame.refl i s
  have hengine : ∀ {o : Out}, i.format ≠ .host → Ensures (EngineFrame i s) o → Ensures (ExecOf i s) o :=
    fun hi ho => ho.imp fun _ => .engine hi
  cases i with
  | rd r => exact execRd_next.imp fun _ => .read r rfl
  | wr r d => exact execWr_writeOf.imp fun _ => .write r d rfl
  | nop => exact .engine (by decide) (h.raise _)
  | reserve => exact hengine (by decide) execReserve_frame
  | release => exact hengine (by decide) execRelease_frame
  | rearm => exact hengine (by decide) (execRearm_frame _)
  | rxHeader => exact hengine (by decide) (execRxHeader_frame _)
  | rxPayload => exact hengine (by decide) (execRxPayload_frame _)
  | rxClose => exact hengine (by decide) (execRxClose_frame _)
  | txHeader => exact hengine (by decide) (execTxHeader_frame _)
  | txPayload => exact hengine (by decide) (execTxPayload_frame _)
  | txClose => exact hengine (by decide) (execTxClose_frame _)
  | rxUnit => exact hengine (by decide) execRxUnit_frame
  | txUnit => exact hengine (by decide) execTxUnit_frame
  | presession => exact hengine (by decide) execPresession_frame
  | flashPage => exact hengine (by decide) execFlashPage_frame
  | dispatch => exact execDispatch_frame.imp fun _ ht => ht.elim (.reset (by decide)) (.engine (by decide))
  | reset => exact .reset (by decide) (resetOf_blockReset s)
  | illegal c => exact .engine (by simp [Instr.format]) (h.raise _)
  | preSentinel => exact hengine (by decide) (execPreSentinel_frame h rfl)
  | preBootReq => exact hengine (by decide) (execPreBootReq_frame h)
  | preOther b => exact hengine (by simp [Instr.format]) (execPreOther_frame h rfl b)
  | reboot => exact .reset (by decide) (resetOf_restart s)
  | getlog => exact .engine (by decide) (placeholder_frame h (by decide) _ _)
  | getconfig => exact .engine (by decide) (placeholder_frame h (by decide) _ _)
  | setconfig => exact .engine (by decide) (placeholder_frame h (by decide) _ _)
  | storageInfo => exact .engine (by decide) (placeholder_frame h (by decide) _ _)
  | storageRead => exact .engine (by decide) (placeholder_frame h (by decide) _ _)
  | storageWrite => exact .engine (by decide) (placeholder_frame h (by decide) _ _)
  | packet => exact hengine (by decide) (execPacket_frame h rfl (by decide))
  | opSentinel => exact .engine (by decide) (h.raise _)
  | opUnknown b => exact .engine (by simp [Instr.format]) (h.raise _)

theorem exec_cases {i : Instr} {t : State} (h : exec i s = .next t) : ExecOf i s t := (exec_ensures i).of_eq h

end Sys2Proof.Machine
end

