-- ==== Sys2Proof/Proofs/AgentStep.lean ====
section
/-! What the step of each agent can do, and what the end of the step leaves of it. -/

namespace Sys2Proof.Machine

open Sys2Proof

/-! ### The agents -/

/-- What the step of agent `a` can do (R20). -/
inductive AgentOf (a : Turn) (s u : State) : Prop
  | read (w : HostWord) : a = .host w → ReadOf s u → AgentOf a s u
  | write (w : HostWord) : a = .host w → WriteOf s u → AgentOf a s u
  | engine : a = .engine → s.active = true → EngineFrame (decodeCode s.cur) s u → AgentOf a s u
  | resetCommand : a = .engine → s.active = true → s.cur = 0x0E ∨ s.cur = 0x0F → ResetOf s u → AgentOf a s u
  | idle : a = .engine → s.active = false → u = s → AgentOf a s u
  | edgeCapture : a = .edgeCapture → u = edgeCaptureStep s → AgentOf a s u
  | tick : a = .tick → u = tickStep s → AgentOf a s u
  | peer (m : PeerMove) : a = .peer m → u = peerStep m s → AgentOf a s u
  | powerUp : a = .powerUp → ResetOf s u → AgentOf a s u

/-- The command codes that reset the block. -/
theorem resetCode {c : Byte} (h : decodeCode c ∈ [Instr.reset, .reboot, .dispatch]) : c = 0x0E ∨ c = 0x0F := by
  simp only [List.mem_cons, List.not_mem_nil, or_false] at h
  rcases h with h | h | h
  · exact .inr (decodeCode_injective h)
  · have := format_decodeCode c
    rw [h] at this
    cases this
  · exact .inl (decodeCode_injective h)

theorem agentStep_cases {a : Turn} {s u : State} (h : agentStep a s = .next u) : AgentOf a s u := by
  rcases agentStep_next h with ⟨w, ha, hx⟩ | ⟨ha, hact, hx⟩ | ⟨ha, hact, hu⟩ | ⟨ha, hu⟩ | ⟨ha, hu⟩ | ⟨m, ha, hu⟩ | ⟨ha, hu⟩
  · have hf := format_decodeHost w
    rcases exec_cases hx with ⟨r, -, hr⟩ | ⟨r, d, -, hw⟩ | ⟨hi, -⟩ | ⟨hi, -⟩
    · exact .read w ha hr
    · exact .write w ha hw
    · simp only [List.mem_cons, List.not_mem_nil, or_false] at hi
      rcases hi with hi | hi | hi <;> rw [hi] at hf <;> cases hf
    · exact absurd hf hi
  · have hf := format_decodeCode s.cur
    rcases exec_cases hx with ⟨r, hi, -⟩ | ⟨r, d, hi, -⟩ | ⟨hi, hr⟩ | ⟨-, hr⟩
    · rw [hi] at hf; cases hf
    · rw [hi] at hf; cases hf
    · exact .resetCommand ha hact (resetCode hi) hr
    · exact .engine ha hact hr
  · exact .idle ha hact hu
  · exact .edgeCapture ha hu
  · exact .tick ha hu
  · exact .peer m ha hu
  · exact .powerUp ha (hu ▸ resetOf_blockReset s)

/-- A step is what the agent whose turn it is does, and the end of the step. -/
theorem step_cases {s t : State} (h : step s = .next t) :
    ∃ u, AgentOf (nextTurn s) (takeTurn s) u ∧ t = endStep s u := by
  obtain ⟨u, hu, rfl⟩ := step_next h
  exact ⟨u, agentStep_cases hu, rfl⟩

@[simp] theorem edgeCaptureStep_tick (s : State) : (edgeCaptureStep s).tick = s.tick := by
  unfold edgeCaptureStep; split <;> rfl
@[simp] theorem edgeCaptureStep_result (s : State) : (edgeCaptureStep s).result = s.result := by
  unfold edgeCaptureStep; split <;> rfl
@[simp] theorem edgeCaptureStep_history (s : State) : (edgeCaptureStep s).history = s.history := by
  unfold edgeCaptureStep; split <;> rfl

/-! ### The end of a step -/

@[simp] theorem endStep_tick (s u : State) : (endStep s u).tick = u.tick := by simp [endStep]
@[simp] theorem endStep_result (s u : State) : (endStep s u).result = u.result := by simp [endStep]
@[simp] theorem endStep_active (s u : State) : (endStep s u).active = u.active := by simp [endStep]
@[simp] theorem endStep_irq (s u : State) : (endStep s u).irq = u.irq := by simp [endStep]

@[simp] theorem wire_detectEdge (u : State) : wire (detectEdge u) = wire u :=
  wire_congr (detectEdge_out u) (detectEdge_peer u) (detectEdge_dir u) (by rw [detectEdge_ctrl])

@[simp] theorem wire_endStep (s u : State) : wire (endStep s u) = wire u := wire_detectEdge u

/-- The changes of the wire and of IRQ between two states, as the end of a step records them. -/
def changeEvents (s u : State) : List Event := lineEvents (wire s) (wire u) ++ if s.irq = u.irq then [] else [.irq u.irq]

theorem endStep_history (s u : State) : (endStep s u).history = u.history ++ changeEvents s u := by
  simp [endStep, recordChanges, changeEvents]

theorem mem_irqEvent {a b : Bool} {e : Event} : e ∈ (if a = b then [] else [Event.irq b]) ↔ a ≠ b ∧ e = .irq b := by
  split <;> simp_all

theorem mem_changeEvents {s u : State} {e : Event} :
    e ∈ changeEvents s u ↔ e ∈ lineEvents (wire s) (wire u) ∨ s.irq ≠ u.irq ∧ e = .irq u.irq := by
  rw [changeEvents, List.mem_append, mem_irqEvent]

/-- No two recorded changes are of the same line: they are a sublist of one event for each. -/
theorem nodup_changeEvents (s u : State) : (changeEvents s u).Nodup := by
  have one : ∀ (p : Prop) [Decidable p] (x : Event), (if p then [] else [x]).Sublist [x] := by
    intro p _ x
    split
    · exact List.nil_sublist _
    · exact List.Sublist.refl _
  have hsub : (changeEvents s u).Sublist ([.data (wire u).data] ++ [.line .valid (wire u).valid]
      ++ [.line .ack (wire u).ack] ++ [.line .select (wire u).select] ++ [.line .ready (wire u).ready]
      ++ [.line .busy (wire u).busy] ++ [.irq u.irq]) :=
    ((((((one _ _).append (one _ _)).append (one _ _)).append (one _ _)).append (one _ _)).append (one _ _)).append (one _ _)
  exact hsub.nodup (by simp)

/-- No change of the wire or of IRQ is an event a rule emits by itself. -/
theorem not_isReport_of_mem_changeEvents {s u : State} {e : Event} (h : e ∈ changeEvents s u) : ¬e.IsReport := by
  rw [mem_changeEvents, mem_lineEvents] at h
  rcases h with (⟨-, rfl⟩ | ⟨-, rfl⟩ | ⟨-, rfl⟩ | ⟨-, rfl⟩ | ⟨-, rfl⟩ | ⟨-, rfl⟩) | ⟨-, rfl⟩ <;> exact id

/-! ### What the agents do to the history, TICK and RESULT -/

/-- `u` is `s` with events emitted, none of them a change of the wire or of IRQ, and none twice. -/
def Emits (s u : State) : Prop := ∃ es, u.history = s.history ++ es ∧ es.Nodup ∧ ∀ e ∈ es, e.IsReport

theorem Emits.nothing {s u : State} (h : u.history = s.history) : Emits s u :=
  ⟨[], by rw [h, List.append_nil], List.nodup_nil, fun _ he => absurd he List.not_mem_nil⟩

theorem Emits.one {s u : State} {e : Event} (he : e.IsReport) (h : u.history = s.history ++ [e]) : Emits s u :=
  ⟨[e], h, List.nodup_singleton e, fun _ hmem => List.mem_singleton.1 hmem ▸ he⟩

theorem ResetOf.emits {s u : State} (h : ResetOf s u) : Emits s u := by
  obtain ⟨es, rfl | rfl, rfl⟩ := h
  · exact .nothing (List.append_nil _)
  · exact .one (e := .restart) trivial rfl

theorem AgentOf.emits {a : Turn} {s u : State} (h : AgentOf a s u) : Emits s u := by
  cases h with
  | read w _ hr => exact .nothing hr.frame.history
  | write w _ hw => exact .nothing hw.frame.1.history
  | engine _ _ he =>
    rcases he.history with hu | ⟨e, he, hu⟩
    · exact .nothing hu
    · exact .one he hu
  | resetCommand _ _ _ hr => exact hr.emits
  | idle _ _ hu => exact .nothing (by rw [hu])
  | edgeCapture _ hu => exact .nothing (by rw [hu, edgeCaptureStep_history])
  | tick _ hu => exact .nothing (by rw [hu, tickStep_history])
  | peer m _ hu => exact .nothing (by rw [hu, peerStep_history])
  | powerUp _ hr => exact hr.emits

/-- TICK is counted by the Tick agent and drawn by a reset, and no other agent writes it. -/
theorem AgentOf.tick_cases {a : Turn} {s u : State} (h : AgentOf a s u) :
    (a = .tick ∧ u.tick = s.tick + 1)
      ∨ (a ≠ .tick ∧ u.tick = s.tick)
      ∨ a = .powerUp
      ∨ (a = .engine ∧ s.active = true ∧ (s.cur = 0x0E ∨ s.cur = 0x0F)) := by
  cases h with
  | read w ha hr => exact .inr (.inl ⟨by simp [ha], hr.frame.tick⟩)
  | write w ha hw => exact .inr (.inl ⟨by simp [ha], hw.frame.1.tick⟩)
  | engine ha _ he => exact .inr (.inl ⟨by simp [ha], he.tick⟩)
  | resetCommand ha hact hc _ => exact .inr (.inr (.inr ⟨ha, hact, hc⟩))
  | idle ha _ hu => exact .inr (.inl ⟨by simp [ha], by rw [hu]⟩)
  | edgeCapture ha hu => exact .inr (.inl ⟨by simp [ha], by rw [hu, edgeCaptureStep_tick]⟩)
  | tick ha hu => exact .inl ⟨ha, by rw [hu, tickStep_tick]⟩
  | peer m ha hu => exact .inr (.inl ⟨by simp [ha], by rw [hu, peerStep_tick]⟩)
  | powerUp ha _ => exact .inr (.inr (.inl ha))

/-- An agent leaves RESULT, or it is power-up, or the Engine ending a command. -/
theorem AgentOf.result_cases {a : Turn} {s u : State} (h : AgentOf a s u) :
    u.result = s.result ∨ a = .powerUp ∨ (a = .engine ∧ s.active = true ∧ u.active = false) := by
  cases h with
  | read w _ hr => exact .inl hr.frame.result
  | write w _ hw => exact .inl hw.frame.1.result
  | engine ha hact he => exact he.result.imp_right fun hu => .inr ⟨ha, hact, hu⟩
  | resetCommand ha hact _ hr =>
    obtain ⟨es, -, rfl⟩ := hr
    exact .inr (.inr ⟨ha, hact, rfl⟩)
  | idle _ _ hu => exact .inl (by rw [hu])
  | edgeCapture _ hu => exact .inl (by rw [hu, edgeCaptureStep_result])
  | tick _ hu => exact .inl (by rw [hu, tickStep_result])
  | peer m _ hu => exact .inl (by rw [hu, peerStep_result])
  | powerUp ha _ => exact .inr (.inl ha)

end Sys2Proof.Machine
end

