-- ==== Sys2Proof/Proofs/DataInvariant.lean ====
section
/-! The data invariant is kept by every step. -/

namespace Sys2Proof.Machine

open Sys2Proof

/-- The data invariant but for MON, which the end of every step sets. -/
structure DataKept (s : State) : Prop where
  memory : Memory.wf s = true
  released : s.ctrl.role = .responder → s.dir = false
  selected : s.out.select = s.ctrl.selectOut
  unitLen : s.unitValid = false → s.unitLen = 0

variable {s t u : State}

theorem State.Inv.dataKept (h : s.Inv) : DataKept s := ⟨h.memory, h.released, h.selected, h.unitLen⟩

theorem DataKept.inv_endStep (h : DataKept u) (s : State) : (endStep s u).Inv where
  memory := by rw [memory_wf_congr (s := u) (by simp [endStep]) (by simp [endStep])]; exact h.memory
  monitored := by rw [wire_endStep, endStep, recordChanges_mon, detectEdge_mon]
  released := by simpa [endStep] using h.released
  selected := by simpa [endStep] using h.selected
  unitLen := by simpa [endStep] using h.unitLen

theorem EngineFrame.dataKept {i : Instr} (h : EngineFrame i s t) (hs : DataKept s) : DataKept t where
  memory := h.memory hs.memory
  released hr := by
    rw [h.role] at hr
    cases hd : t.dir with
    | false => rfl
    | true =>
      rcases h.driver hd with hdir | hrole
      · rw [hs.released hr] at hdir; cases hdir
      · rw [hr] at hrole; cases hrole
  selected := by rw [h.select, h.selectOut, hs.selected]
  unitLen := h.unitLen hs.unitLen

theorem ReadOf.dataKept (h : ReadOf s t) (hs : DataKept s) : DataKept t := by
  obtain ⟨v, l, n, rfl⟩ := h
  exact { hs with }

theorem dataKept_writeCtrl (d : Word) (ha : s.active = false) (hs : DataKept s) : DataKept (writeCtrl d s) := by
  rw [writeCtrl_of_inactive d ha]
  refine { memory := hs.memory, released := fun hr => ?_, selected := ?_, unitLen := hs.unitLen }
  · show (if (ctrlOfWord d).role = s.ctrl.role then s.dir else false) = false
    split
    · next hsame => exact hs.released (hsame.symm.trans hr)
    · rfl
  · show (if (ctrlOfWord d).selectOut = s.ctrl.selectOut then s.out.select else (ctrlOfWord d).selectOut)
      = (ctrlOfWord d).selectOut
    split
    · next hsame => rw [hs.selected, hsame]
    · rfl

theorem WriteOf.dataKept (h : WriteOf s t) (hs : DataKept s) : DataKept t := by
  cases h with
  | ctrl d ha => exact dataKept_writeCtrl d ha hs
  | buf i b _ => exact { hs with memory := memory_wf_putBuf i b hs.memory }
  | refused => exact { hs with }
  | accepted => exact { hs with }
  | overrun => exact { hs with }
  | operands => exact { hs with }

theorem ResetOf.dataKept (h : ResetOf s t) (hs : DataKept s) : DataKept t := by
  obtain ⟨es, -, rfl⟩ := h
  have hm := hs.memory
  simp only [Memory.wf, Bool.and_eq_true] at hm
  exact {
    memory := by simpa [Memory.wf, Cells.wf] using hm.2
    released := fun _ => rfl
    selected := rfl
    unitLen := fun _ => rfl }

theorem AgentOf.dataKept {a : Turn} (h : AgentOf a s u) (hs : DataKept s) : DataKept u := by
  cases h with
  | read w _ hr => exact hr.dataKept hs
  | write w _ hw => exact hw.dataKept hs
  | engine _ _ he => exact he.dataKept hs
  | resetCommand _ _ _ hr => exact hr.dataKept hs
  | idle _ _ hu => exact hu ▸ hs
  | edgeCapture _ hu =>
    subst hu
    unfold edgeCaptureStep
    split
    · exact { hs with }
    · exact hs
  | tick _ hu => subst hu; exact { hs with }
  | peer m _ hu => subst hu; exact { hs with }
  | powerUp _ hr => exact hr.dataKept hs

/-- Settles O56: every agent keeps the invariant but for MON, and the end of the step sets MON. -/
theorem stepKeepsTheInvariant : Obligations.StepKeepsTheInvariant := by
  intro s t hs h
  obtain ⟨u, hu, rfl⟩ := step_cases h
  have htaken : DataKept (takeTurn s) := { hs.dataKept with }
  exact (hu.dataKept htaken).inv_endStep s

end Sys2Proof.Machine
end

