-- ==== Sys2Proof/Proofs/Frames.lean ====
section
/-! Which instruction and which agent may change what: the statements of spec/10_state.md about single elements. -/

namespace Sys2Proof.Machine

open Sys2Proof

/-- Settles O37: the host's accesses count nothing, and every other instruction that resets nothing is in the Engine's frame. -/
theorem onlyUnitCommandsCount : Obligations.OnlyUnitCommandsCount := by
  intro i s t h hi
  rcases exec_cases h with ⟨r, -, hr⟩ | ⟨r, d, -, hw⟩ | ⟨hreset, -⟩ | ⟨-, he⟩
  · exact ⟨fun _ => hr.frame.rxCounts, fun _ => hr.frame.txCounts⟩
  · exact ⟨fun _ => hw.frame.1.rxCounts, fun _ => hw.frame.1.txCounts⟩
  · exact absurd hreset hi
  · exact ⟨he.rxCounts, he.txCounts⟩

theorem progRead_congr {s t : State} (h : t.progMem = s.progMem) (a : Nat) : progRead t a = progRead s a := by
  rw [progRead, h, progRead]

/-- Settles O51, by the four kinds of an instruction: a read, a write, a reset, an instruction of the Engine's frame. -/
theorem everyInstructionFrame : Obligations.EveryInstructionFrame := by
  intro i s t h
  rcases exec_cases h with ⟨r, rfl, hr⟩ | ⟨r, d, rfl, hw⟩ | ⟨hreset, es, -, rfl⟩ | ⟨-, he⟩
  · obtain ⟨v, l, n, rfl⟩ := hr
    exact ⟨rfl, rfl, rfl, fun _ _ => rfl, fun hn => absurd rfl (hn r), fun _ =>
      ⟨fun _ _ _ => rfl, fun _ => ⟨rfl, rfl, rfl⟩, fun _ => ⟨rfl, rfl⟩, fun _ => rfl⟩⟩
  · obtain ⟨hf, hrdata⟩ := hw.frame
    exact ⟨hf.params, hf.peer, hf.turns, fun _ => progRead_congr hf.progMem, fun _ => hrdata, fun _ =>
      ⟨fun _ hn => absurd rfl (hn r d), fun hn => absurd rfl (hn r d), fun _ => hf.owner, fun _ => hf.dispOut⟩⟩
  · exact ⟨rfl, rfl, rfl, fun _ _ => rfl, fun _ => rfl, fun hn => absurd hreset hn⟩
  · refine ⟨he.params, he.peer, he.turns, fun hn => progRead_congr (he.progMem hn), fun _ => he.rdata, fun hn =>
      ⟨fun hbuf _ a => by rw [he.buf hbuf], fun _ => he.operands, he.owner, fun hdisp => he.dispOut ?_⟩⟩
    simp only [dispOutWriters, List.mem_cons, List.not_mem_nil, or_false, not_or] at hn hdisp ⊢
    tauto

/-- Settles O52, by what each agent does to TICK. -/
theorem onlyTheTickAgentCounts : Obligations.OnlyTheTickAgentCounts := by
  intro s t h
  obtain ⟨u, hu, rfl⟩ := step_cases h
  rw [endStep_tick]
  rcases hu.tick_cases with ⟨ha, htick⟩ | ⟨ha, htick⟩ | ha | ⟨ha, hact, hcur⟩
  · exact ⟨fun _ => htick, fun hn => absurd ha hn⟩
  · exact ⟨fun hn => absurd hn ha, fun _ hn => absurd htick hn⟩
  · exact ⟨fun hn => (by rw [ha] at hn; cases hn), fun _ _ => .inl ha⟩
  · exact ⟨fun hn => (by rw [ha] at hn; cases hn), fun _ _ => .inr ⟨ha, hact, hcur⟩⟩

/-- Settles O54, by what each agent does to RESULT. -/
theorem resultWrittenOnlyAtTheEnd : Obligations.ResultWrittenOnlyAtTheEnd := by
  intro s t h hne
  obtain ⟨u, hu, rfl⟩ := step_cases h
  rw [endStep_result] at hne
  rw [endStep_active]
  exact hu.result_cases.resolve_left hne

/-- The two clauses about one line, from which of its events the step records. -/
theorem recorded_iff {α : Type} {event : α → Event} {es : List Event} {old new : α}
    (h : ∀ v, event v ∈ es ↔ old ≠ new ∧ v = new) :
    (new ≠ old → event new ∈ es) ∧ ∀ v, event v ∈ es → v = new ∧ v ≠ old := by
  refine ⟨fun hne => (h new).2 ⟨hne.symm, rfl⟩, fun v hv => ?_⟩
  obtain ⟨hne, rfl⟩ := (h v).1 hv
  exact ⟨rfl, hne.symm⟩

/-- Settles O49: a step appends what its agent emits, at most one event that is no change of a line, and then the changes. -/
theorem historyRecordsEveryChange : Obligations.HistoryRecordsEveryChange := by
  intro s t h
  obtain ⟨u, hu, rfl⟩ := step_cases h
  obtain ⟨own, hown, hnodup, hreport⟩ := hu.emits
  have hchange : ∀ e : Event, ¬e.IsReport → (e ∈ own ++ changeEvents s u ↔ _) := fun e he => by
    rw [List.mem_append, or_iff_right fun hmem => he (hreport e hmem), mem_changeEvents, mem_lineEvents]
  have hvalid := recorded_iff (event := .line .valid) (old := (wire s).valid) (new := (wire u).valid)
    fun v => (hchange _ id).trans (by simp)
  have hack := recorded_iff (event := .line .ack) (old := (wire s).ack) (new := (wire u).ack)
    fun v => (hchange _ id).trans (by simp)
  have hselect := recorded_iff (event := .line .select) (old := (wire s).select) (new := (wire u).select)
    fun v => (hchange _ id).trans (by simp)
  have hready := recorded_iff (event := .line .ready) (old := (wire s).ready) (new := (wire u).ready)
    fun v => (hchange _ id).trans (by simp)
  have hbusy := recorded_iff (event := .line .busy) (old := (wire s).busy) (new := (wire u).busy)
    fun v => (hchange _ id).trans (by simp)
  have hdata := recorded_iff (event := .data) (old := (wire s).data) (new := (wire u).data)
    fun v => (hchange _ id).trans (by simp)
  have hirq := recorded_iff (event := .irq) (old := s.irq) (new := u.irq) fun v => (hchange _ id).trans (by simp)
  refine ⟨own ++ changeEvents s u, ?_, ?_, ?_⟩
  · rw [endStep_history, hown, takeTurn_history, List.append_assoc]
  · refine List.nodup_append'.2 ⟨hnodup, nodup_changeEvents s u, fun e he hc => ?_⟩
    exact not_isReport_of_mem_changeEvents hc (hreport e he)
  · rw [wire_endStep, endStep_irq]
    exact ⟨hvalid.1, hack.1, hselect.1, hready.1, hbusy.1, hdata.1, hirq.1, hvalid.2, hack.2, hselect.2, hready.2, hbusy.2,
      hdata.2, hirq.2⟩

end Sys2Proof.Machine
end

