-- ==== Sys2Proof/Proofs/SequencerInvariant.lean ====
section
/-! The sequencer invariant is kept by every step. -/

namespace Sys2Proof.Machine

open Sys2Proof

/-! ### What the parameters must be (R9, log entry 9) -/

theorem Params.waitBudget_pos {p : Params} (h : p.wf = true) : 0 < p.waitBudget := by
  simp only [Params.wf, Bool.and_eq_true, decide_eq_true_eq] at h
  omega

theorem Params.selectStable_pos {p : Params} (h : p.wf = true) : 0 < p.selectStable := by
  simp only [Params.wf, Bool.and_eq_true, decide_eq_true_eq] at h
  omega

theorem Params.readyPulse_pos {p : Params} (h : p.wf = true) : 0 < p.readyPulse := by
  simp only [Params.wf, Bool.and_eq_true, decide_eq_true_eq] at h
  omega

/-! ### The bytes of BUF that are held (R47) -/

theorem bufDef_put {s : State} (k : Nat) (b : Byte) (i : Nat) :
    bufDef { s with buf := Cells.put k b s.buf } i = (decide (i = k) || bufDef s i) := by
  simp only [bufDef, find_put]
  by_cases h : i = k <;> simp [h]

theorem BytesHeld.put {s : State} {n : Nat} (h : BytesHeld s n) (k : Nat) (b : Byte) :
    BytesHeld { s with buf := Cells.put k b s.buf } n := fun i hi => by
  rw [bufDef_put, h i hi, Bool.or_true]

/-- The next byte stored holds one byte more. -/
theorem BytesHeld.put_succ {s : State} {n : Nat} (h : BytesHeld s n) (b : Byte) :
    BytesHeld { s with buf := Cells.put n b s.buf } (n + 1) := fun i hi => by
  rw [bufDef_put]
  rcases Nat.lt_succ_iff_lt_or_eq.1 hi with hlt | rfl
  · rw [h i hlt, Bool.or_true]
  · simp

theorem bytesHeld_zero (s : State) : BytesHeld s 0 := fun _ hi => absurd hi (Nat.not_lt_zero _)

theorem bytesHeld_of_unitUndefined {s : State} (h : unitUndefined s = false) : BytesHeld s ((unitCount s).toNat + 1) :=
  fun i hi => by
    simp only [unitUndefined, List.any_eq_false, List.mem_range] at h
    simpa using h i hi

/-- A payload count is a 16-bit number (R34, R83). -/
theorem unitCount_lt (s : State) : (unitCount s).toNat < 2 ^ 16 := by
  unfold unitCount
  split
  · decide
  · have := s.len.isLt
    rw [BitVec.toNat_setWidth]
    omega

/-! ### The parts of the invariant -/

/-- The part of the invariant that does not depend on the running command. -/
def UnitLegal (s : State) : Prop := s.params.wf = true ∧ (s.unitValid = true → BytesHeld s s.unitLen.toNat)

variable {s u : State}

theorem State.SeqLegal.unitLegal (h : s.SeqLegal) : UnitLegal s := ⟨h.1, h.2.1⟩

theorem State.SeqLegal.inactive (h : s.SeqLegal) (ha : s.active = false) :
    s.phase = .start ∧ s.cur = 0 ∧ s.waitCnt = 0 ∧ (s.seq = .idle ∨ s.seq = .aborted ∨ s.seq = .fatal) := by
  simpa [ha] using h.2.2

theorem State.SeqLegal.driving (h : s.SeqLegal) (ha : s.active = true) (hp : s.phase = .drive) :
    s.ctrl.role = .initiator ∧ SendPlace s := by
  simpa [ha, hp] using h.2.2

theorem State.SeqLegal.running (h : s.SeqLegal) (ha : s.active = true) (hp : s.phase = .run) :
    s.waitCnt < s.params.waitBudget
      ∧ ((s.ctrl.role = .initiator ∧ SendPlace s) ∨ (s.ctrl.role = .responder ∧ ResponderPlace s)) := by
  simpa [ha, hp] using h.2.2

theorem UnitLegal.of_inactive (h : UnitLegal s) (ha : s.active = false) (hp : s.phase = .start) (hc : s.cur = 0)
    (hw : s.waitCnt = 0) (hs : s.seq = .idle ∨ s.seq = .aborted ∨ s.seq = .fatal) : s.SeqLegal :=
  ⟨h.1, h.2, by simpa [ha] using ⟨hp, hc, hw, hs⟩⟩

theorem UnitLegal.of_start (h : UnitLegal s) (ha : s.active = true) (hp : s.phase = .start)
    (hs : s.seq = .idle ∨ s.seq = .aborted ∨ (s.seq = .fatal ∧ s.cur = 0x0F)) : s.SeqLegal :=
  ⟨h.1, h.2, by simpa [ha, hp] using hs⟩

theorem UnitLegal.of_drive (h : UnitLegal s) (ha : s.active = true) (hp : s.phase = .drive) (hr : s.ctrl.role = .initiator)
    (hs : SendPlace s) : s.SeqLegal :=
  ⟨h.1, h.2, by simpa [ha, hp] using ⟨hr, hs⟩⟩

theorem UnitLegal.of_run (h : UnitLegal s) (ha : s.active = true) (hp : s.phase = .run)
    (hw : s.waitCnt < s.params.waitBudget)
    (hs : (s.ctrl.role = .initiator ∧ SendPlace s) ∨ (s.ctrl.role = .responder ∧ ResponderPlace s)) : s.SeqLegal :=
  ⟨h.1, h.2, by simpa [ha, hp] using ⟨hw, hs⟩⟩

/-- A command that ends leaves a state of no command (R212). -/
theorem UnitLegal.raise (h : UnitLegal u) (c : ResultCode) : (raise c u).SeqLegal :=
  UnitLegal.of_inactive (s := Machine.raise c u) h rfl rfl rfl rfl (by cases c <;> simp [ResultCode.endState])

theorem UnitLegal.blockReset (h : s.params.wf = true) : (blockReset s).SeqLegal :=
  UnitLegal.of_inactive ⟨h, fun hv => by cases hv⟩ rfl rfl rfl rfl (.inl rfl)

theorem UnitLegal.raiseBlink (h : UnitLegal u) (c : ResultCode) : (raiseBlink c u).SeqLegal :=
  UnitLegal.raise (u := emit (.blink c) u) h c

/-- A wait that begins has its whole budget (R111). -/
theorem UnitLegal.enterWait (h : UnitLegal u) (ha : u.active = true) (st : SeqState)
    (hs : (u.ctrl.role = .initiator ∧ SendPlace (enterWait st u)) ∨ (u.ctrl.role = .responder ∧ ResponderPlace (enterWait st u))) :
    (enterWait st u).SeqLegal :=
  UnitLegal.of_run (s := Machine.enterWait st u) h ha rfl (Params.waitBudget_pos h.1) hs

/-- A failed sample that does not spend the budget. -/
theorem State.SeqLegal.counted (h : s.SeqLegal) (ha : s.active = true) (hw : s.waitCnt + 1 ≠ s.params.waitBudget) (b : Bool) :
    ({ s with latch := b, waitCnt := s.waitCnt + 1 } : State).SeqLegal := by
  obtain ⟨hp, hu, hc⟩ := h
  refine ⟨hp, hu, ?_⟩
  simp only [ha, if_true] at hc ⊢
  cases hph : s.phase <;> rw [hph] at hc
  · exact hc
  · exact hc
  · exact ⟨by have := hc.1; show s.waitCnt + 1 < s.params.waitBudget; omega, hc.2⟩

/-! ### A first step and a sample -/

theorem firstStep_seqLegal {role : Option Role} {mode : Option Mode} {body : State → State} (h : UnitLegal s)
    (hb : (role = none ∨ role = some s.ctrl.role) → (mode = none ∨ mode = some s.ctrl.mode) → (body s).SeqLegal) :
    (firstStep role mode body s).SeqLegal :=
  firstStep_induct (h.raise _) (h.raise _) hb

theorem sample_seqLegal {cond : Bool} {leave timeout : State → State} (h : s.SeqLegal) (ha : s.active = true)
    (hl : (leave s).SeqLegal) (ht : ∀ n, (timeout { s with waitCnt := n }).SeqLegal) :
    (sample cond leave timeout s).SeqLegal :=
  sample_induct (fun _ => hl) (fun _ => ht _) fun hw => h.counted ha hw s.latch

theorem ackSample_seqLegal {leave timeout : State → State} (h : s.SeqLegal) (ha : s.active = true)
    (hl : ∀ b, (leave { s with latch := b }).SeqLegal) (ht : ∀ b n, (timeout { s with latch := b, waitCnt := n }).SeqLegal) :
    (ackSample leave timeout s).SeqLegal :=
  ackSample_induct (fun b _ => hl b) (fun b _ => ht b _) fun b hw => h.counted ha hw b

theorem timeoutByte_seqLegal (h : UnitLegal u) : (timeoutByte u).SeqLegal := h.raise _

/-! ### Where a command is, by its code -/

/-- A command that is no send is in the place of a receive, in phase `run`. -/
theorem State.SeqLegal.responderPlace (h : s.SeqLegal) (ha : s.active = true) (hp : s.phase ≠ .start)
    (hc : s.cur ∉ [0x07#8, 0x08#8, 0x0B#8]) :
    s.phase = .run ∧ s.waitCnt < s.params.waitBudget ∧ s.ctrl.role = .responder ∧ ResponderPlace s := by
  have hsend : ¬SendPlace s := by
    rintro (⟨h, -⟩ | ⟨h, -⟩ | ⟨h, -⟩) <;> simp [h] at hc
  cases hph : s.phase with
  | start => exact absurd hph hp
  | drive => exact absurd (h.driving ha hph).2 hsend
  | run =>
    obtain ⟨hw, ⟨-, hs⟩ | ⟨hr, hs⟩⟩ := h.running ha hph
    · exact absurd hs hsend
    · exact ⟨rfl, hw, hr, hs⟩

/-- A command that sends is in the place of a send. -/
theorem State.SeqLegal.sendPlace (h : s.SeqLegal) (ha : s.active = true) (hp : s.phase ≠ .start)
    (hc : s.cur ∈ [0x07#8, 0x08#8, 0x0B#8]) : s.ctrl.role = .initiator ∧ SendPlace s := by
  cases hph : s.phase with
  | start => exact absurd hph hp
  | drive => exact h.driving ha hph
  | run =>
    obtain ⟨-, hs | ⟨-, hs⟩⟩ := h.running ha hph
    · exact hs
    · exfalso
      rcases hs with ⟨h, -⟩ | ⟨h, -⟩ | ⟨h, -⟩ | ⟨h, -⟩ | ⟨h | h, -⟩ <;> simp [h] at hc

/-- A receive of a unit is in one of its places. -/
theorem State.SeqLegal.receivePlace (h : s.SeqLegal) (ha : s.active = true) (hp : s.phase ≠ .start)
    (hc : s.cur = 0x0A ∨ s.cur = 0x0D) :
    s.phase = .run ∧ s.waitCnt < s.params.waitBudget ∧ s.ctrl.role = .responder ∧ ReceivePlace s := by
  obtain ⟨hph, hw, hr, hs⟩ := h.responderPlace ha hp (by rcases hc with h | h <;> simp [h])
  refine ⟨hph, hw, hr, ?_⟩
  rcases hs with ⟨h, -⟩ | ⟨h, -⟩ | ⟨h, -⟩ | ⟨h, -⟩ | ⟨-, hs⟩
  iterate 4 (rcases hc with hc | hc <;> rw [hc] at h <;> cases h)
  exact hs

/-! ### The single-byte commands -/

section Commands

variable (h : s.SeqLegal) (ha : s.active = true)

include h

theorem execRearm_seqLegal : Ensures State.SeqLegal (execRearm s) :=
  firstStep_seqLegal h.unitLegal fun _ _ => UnitLegal.raise (u := rearmLink s) h.unitLegal _

theorem execTxClose_seqLegal : Ensures State.SeqLegal (execTxClose s) :=
  firstStep_seqLegal h.unitLegal fun _ _ => UnitLegal.raise (u := closeSend s) h.unitLegal _

include ha

theorem execRxHeader_seqLegal (hc : s.cur = 0x04) : Ensures State.SeqLegal (execRxHeader s) := by
  have hu := h.unitLegal
  have hsample := sample_seqLegal (cond := (wire s).valid) (leave := rxHeaderTake) (timeout := timeoutByte) h ha
    (UnitLegal.raise hu _) fun _ => timeoutByte_seqLegal hu
  simp only [execRxHeader, ensures_next]
  cases s.phase with
  | start =>
    refine firstStep_seqLegal hu fun hr _ => ?_
    split
    · exact hu.enterWait ha _ (.inr ⟨eq_of_check hr, .inl ⟨hc, rfl⟩⟩)
    · exact hu.raise _
  | drive => exact hsample
  | run => exact hsample

theorem execRxPayload_seqLegal (hc : s.cur = 0x05) : Ensures State.SeqLegal (execRxPayload s) := by
  have hu := h.unitLegal
  have hsample := sample_seqLegal (cond := (wire s).valid == s.out.ack) (leave := rxPayloadTake) (timeout := timeoutByte) h ha
    (UnitLegal.raise hu _) fun _ => timeoutByte_seqLegal hu
  simp only [execRxPayload, ensures_next]
  cases s.phase with
  | start => exact firstStep_seqLegal hu fun hr _ => hu.enterWait ha _ (.inr ⟨eq_of_check hr, .inr (.inl ⟨hc, rfl⟩)⟩)
  | drive => exact hsample
  | run => exact hsample

theorem execRxClose_seqLegal (hc : s.cur = 0x06) : Ensures State.SeqLegal (execRxClose s) := by
  have hu := h.unitLegal
  have hsample := sample_seqLegal (cond := !(wire s).valid) (leave := raise .ok) (timeout := timeoutByte) h ha
    (UnitLegal.raise hu _) fun _ => timeoutByte_seqLegal hu
  simp only [execRxClose, ensures_next]
  cases s.phase with
  | start =>
    exact firstStep_seqLegal hu fun hr _ => hu.enterWait ha _ (.inr ⟨eq_of_check hr, .inr (.inr (.inl ⟨hc, rfl⟩))⟩)
  | drive => exact hsample
  | run => exact hsample

theorem execTxHeader_seqLegal (hc : s.cur = 0x07) : Ensures State.SeqLegal (execTxHeader s) := by
  have hu := h.unitLegal
  simp only [execTxHeader, ensures_next]
  cases hp : s.phase with
  | start =>
    refine firstStep_seqLegal hu fun hr _ => ?_
    split
    · exact hu.raise _
    · exact UnitLegal.of_drive (s := presentData s.txdata .hdrWait { s with dir := true }) hu ha rfl (eq_of_check hr)
        (.inl ⟨hc, rfl⟩)
  | drive =>
    exact UnitLegal.enterWait (u := driveValid true s) hu ha _ (.inl ⟨(h.driving ha hp).1, .inl ⟨hc, rfl⟩⟩)
  | run =>
    exact ackSample_seqLegal h ha (fun _ => UnitLegal.raise hu _) fun _ _ => timeoutByte_seqLegal hu

theorem execTxPayload_seqLegal (hc : s.cur = 0x08) : Ensures State.SeqLegal (execTxPayload s) := by
  have hu := h.unitLegal
  simp only [execTxPayload, ensures_next]
  cases hp : s.phase with
  | start =>
    refine firstStep_seqLegal hu fun hr _ => ?_
    split
    · exact UnitLegal.of_drive (s := presentData s.txdata .payWait s) hu ha rfl (eq_of_check hr) (.inr (.inl ⟨hc, rfl⟩))
    · exact hu.raise _
  | drive =>
    exact UnitLegal.enterWait (u := driveValid (!s.out.valid) s) hu ha _
      (.inl ⟨(h.driving ha hp).1, .inr (.inl ⟨hc, rfl⟩)⟩)
  | run =>
    exact ackSample_seqLegal h ha (fun _ => UnitLegal.raise hu _) fun _ _ => timeoutByte_seqLegal hu

end Commands

/-! ### Receiving a unit -/

/-- An index that counts no further than a payload count does not wrap. -/
theorem toNat_succ {k : Count} (h : k.toNat < 2 ^ 16) : (k + 1).toNat = k.toNat + 1 := by
  have h1 : (1 : Count).toNat = 1 := rfl
  rw [BitVec.toNat_add, h1]
  omega

/-- What a receive of a unit keeps from its first step on. -/
def Receiving (s : State) : Prop :=
  s.active = true ∧ s.ctrl.role = .responder ∧ (s.cur = 0x0A ∨ s.cur = 0x0D) ∧ s.unitN.toNat < 2 ^ 16
    ∧ (s.cur = 0x0D → s.unitN = 128)

/-- The place a receive is at, in the form `ReceivePlace` has it for each of its states. -/
theorem Receiving.responderPlace (h : Receiving u)
    (hp : (u.seq = .hdrWait ∧ u.unitValid = false)
      ∨ (u.seq = .payWait ∧ u.unitValid = false ∧ 1 ≤ u.idx.toNat ∧ u.idx.toNat ≤ u.unitN.toNat ∧ BytesHeld u u.idx.toNat)
      ∨ (u.seq = .closeWait ∧ u.unitValid = false ∧ BytesHeld u (u.unitN.toNat + 1))
      ∨ (u.seq = .commit ∧ u.cur = 0x0D ∧ u.unitValid = true ∧ u.unitLen = 129)
      ∨ (u.seq = .pulse ∧ u.pulseCnt < u.params.readyPulse ∧ u.unitValid = true)) : ResponderPlace u := by
  obtain ⟨-, -, hc, hn, hd⟩ := h
  exact .inr (.inr (.inr (.inr ⟨hc, hn, hd, hp⟩)))

theorem rxUnitStart_seqLegal (hp : s.params.wf = true) (ha : s.active = true) (hr : s.ctrl.role = .responder)
    (hc : s.cur = 0x0A ∨ s.cur = 0x0D) (hm : s.cur = 0x0D → s.ctrl.mode = .flash) : (rxUnitStart s).SeqLegal := by
  have hn : s.cur = 0x0D → unitCount s = 128 := fun hd => by rw [unitCount, hm hd]
  have hreceiving : Receiving (rxUnitStart s) := ⟨ha, hr, hc, unitCount_lt s, hn⟩
  exact UnitLegal.of_run (s := rxUnitStart s) ⟨hp, fun hv => by cases hv⟩ ha rfl (Params.waitBudget_pos hp)
    (.inr ⟨hr, hreceiving.responderPlace (.inl ⟨rfl, rfl⟩)⟩)

/-- After a byte a receive waits for the next one, or for the close where it has them all. -/
theorem rxUnitNext_seqLegal (h : Receiving u) (hp : u.params.wf = true) (hv : u.unitValid = false) (h1 : 1 ≤ u.idx.toNat)
    (hi : u.idx.toNat ≤ u.unitN.toNat + 1) (hb : BytesHeld u u.idx.toNat) : (rxUnitNext u).SeqLegal := by
  have hu : UnitLegal u := ⟨hp, fun h => by rw [hv] at h; cases h⟩
  unfold rxUnitNext
  split
  · next hle =>
    have hplace : ResponderPlace (enterWait .payWait u) :=
      Receiving.responderPlace (u := enterWait .payWait u) h (.inr (.inl ⟨rfl, hv, h1, hle, hb⟩))
    exact hu.enterWait h.1 _ (.inr ⟨h.2.1, hplace⟩)
  · next hgt =>
    have hall : u.idx.toNat = u.unitN.toNat + 1 := by
      have : ¬u.idx.toNat ≤ u.unitN.toNat := hgt
      omega
    have hplace : ResponderPlace (enterWait .closeWait u) :=
      Receiving.responderPlace (u := enterWait .closeWait u) h (.inr (.inr (.inl ⟨rfl, hv, hall ▸ hb⟩)))
    exact hu.enterWait h.1 _ (.inr ⟨h.2.1, hplace⟩)

theorem rxUnitHeader_seqLegal (h : Receiving s) (hp : s.params.wf = true) (hv : s.unitValid = false) :
    (rxUnitHeader s).SeqLegal :=
  rxUnitNext_seqLegal (u := { driveAck false s with buf := Cells.put 0 (wire s).data s.buf, pol := false, idx := 1 }) h hp hv
    (Nat.le_refl 1) (Nat.succ_le_succ (Nat.zero_le _)) ((bytesHeld_zero s).put_succ _)

theorem rxUnitPayload_seqLegal (h : Receiving s) (hp : s.params.wf = true) (hv : s.unitValid = false)
    (hi : s.idx.toNat ≤ s.unitN.toNat) (hb : BytesHeld s s.idx.toNat) : (rxUnitPayload s).SeqLegal := by
  obtain ⟨-, -, -, hn, -⟩ := id h
  have hidx := toNat_succ (Nat.lt_of_le_of_lt hi hn)
  refine rxUnitNext_seqLegal (u := { driveAck (!s.out.ack) s with
    buf := Cells.put s.idx.toNat (wire s).data s.buf, pol := !s.out.ack, idx := s.idx + 1 }) h hp hv ?_ ?_ ?_
  · show 1 ≤ (s.idx + 1).toNat
    omega
  · show (s.idx + 1).toNat ≤ s.unitN.toNat + 1
    omega
  · show BytesHeld _ (s.idx + 1).toNat
    rw [hidx]
    exact hb.put_succ _

/-- A failed receive ends, and holds no unit (R162). -/
theorem rxUnitFail_seqLegal (hp : u.params.wf = true) : (rxUnitFail u).SeqLegal := by
  have hu : UnitLegal (discardUnit u) := ⟨hp, fun hv => by cases hv⟩
  unfold rxUnitFail
  split
  · exact hu.raiseBlink _
  · exact hu.raise _

/-- A delivered unit is held: every byte of it has been written. -/
theorem deliverUnit_unitLegal (h : Receiving s) (hp : s.params.wf = true) (hb : BytesHeld s (s.unitN.toNat + 1)) :
    UnitLegal (deliverUnit s) := by
  obtain ⟨-, -, -, hn, -⟩ := h
  refine ⟨hp, fun _ => ?_⟩
  show BytesHeld s (s.unitN + 1).toNat
  rw [toNat_succ hn]
  exact hb

theorem startPulse_seqLegal (h : Receiving u) (hu : UnitLegal u) (hw : u.waitCnt < u.params.waitBudget)
    (hv : u.unitValid = true) : (startPulse u).SeqLegal :=
  UnitLegal.of_run (s := startPulse u) hu h.1 rfl hw
    (.inr ⟨h.2.1, Receiving.responderPlace (u := startPulse u) h
      (.inr (.inr (.inr (.inr ⟨rfl, Params.readyPulse_pos hu.1, hv⟩))))⟩)

theorem pulseStep_seqLegal (h : Receiving s) (hu : UnitLegal s) (hph : s.phase = .run) (hseq : s.seq = .pulse)
    (hw : s.waitCnt < s.params.waitBudget) (hlt : s.pulseCnt < s.params.readyPulse) (hv : s.unitValid = true) :
    (pulseStep s).SeqLegal := by
  unfold pulseStep
  split
  · exact UnitLegal.raise (u := driveReady false { s with pulseCnt := s.pulseCnt + 1 }) hu _
  · next hne =>
    have hplace : ResponderPlace { s with pulseCnt := s.pulseCnt + 1 } :=
      Receiving.responderPlace (u := { s with pulseCnt := s.pulseCnt + 1 }) h
        (.inr (.inr (.inr (.inr ⟨hseq, Nat.lt_of_le_of_ne hlt hne, hv⟩))))
    exact UnitLegal.of_run (s := { s with pulseCnt := s.pulseCnt + 1 }) hu h.1 hph hw (.inr ⟨h.2.1, hplace⟩)

/-- The waits of a receive, for what follows its close sample. -/
theorem rxUnitWaits_seqLegal {closed : State → State} (h : s.SeqLegal) (ha : s.active = true) (hph : s.phase ≠ .start)
    (hc : s.cur = 0x0A ∨ s.cur = 0x0D)
    (hclosed : Receiving s → s.phase = .run → s.waitCnt < s.params.waitBudget → UnitLegal (deliverUnit s) →
      (closed (deliverUnit s)).SeqLegal) :
    (rxUnitWaits closed s).SeqLegal := by
  obtain ⟨hrun, hw, hr, hn, hd, hplace⟩ := h.receivePlace ha hph hc
  have hu := h.unitLegal
  have hreceiving : Receiving s := ⟨ha, hr, hc, hn, hd⟩
  have hfail : ∀ n, (rxUnitFail { s with waitCnt := n }).SeqLegal := fun n => rxUnitFail_seqLegal hu.1
  unfold rxUnitWaits
  split
  · next hseq =>
    have hv : s.unitValid = false := by simpa [hseq] using hplace
    exact sample_seqLegal h ha (rxUnitHeader_seqLegal hreceiving hu.1 hv) hfail
  · next hseq =>
    obtain ⟨hv, -, hi, hb⟩ : s.unitValid = false ∧ 1 ≤ s.idx.toNat ∧ s.idx.toNat ≤ s.unitN.toNat ∧ BytesHeld s s.idx.toNat := by
      simpa [hseq] using hplace
    exact sample_seqLegal h ha (rxUnitPayload_seqLegal hreceiving hu.1 hv hi hb) hfail
  · next hseq =>
    obtain ⟨-, hb⟩ : s.unitValid = false ∧ BytesHeld s (s.unitN.toNat + 1) := by simpa [hseq] using hplace
    exact sample_seqLegal h ha (hclosed hreceiving hrun hw (deliverUnit_unitLegal hreceiving hu.1 hb)) hfail
  · next hseq =>
    obtain ⟨hlt, hv⟩ : s.pulseCnt < s.params.readyPulse ∧ s.unitValid = true := by simpa [hseq] using hplace
    exact pulseStep_seqLegal hreceiving hu hrun hseq hw hlt hv
  all_goals exact h

theorem execRxUnit_seqLegal (h : s.SeqLegal) (ha : s.active = true) (hc : s.cur = 0x0A) :
    Ensures State.SeqLegal (execRxUnit s) := by
  have hu := h.unitLegal
  have hclosed : Receiving s → s.phase = .run → s.waitCnt < s.params.waitBudget → UnitLegal (deliverUnit s) →
      (rxUnitClosed (deliverUnit s)).SeqLegal := by
    intro hreceiving _ hw hdeliver
    unfold rxUnitClosed
    split
    · exact startPulse_seqLegal (u := deliverUnit s) hreceiving hdeliver hw rfl
    · exact hdeliver.raise _
  simp only [execRxUnit, ensures_next]
  cases hph : s.phase with
  | start =>
    refine firstStep_seqLegal hu fun hr _ => ?_
    split
    · exact hu.raise _
    · exact rxUnitStart_seqLegal hu.1 ha (eq_of_check hr) (.inl hc) fun hd => by rw [hc] at hd; cases hd
  | drive => exact rxUnitWaits_seqLegal h ha (by simp [hph]) (.inl hc) hclosed
  | run => exact rxUnitWaits_seqLegal h ha (by simp [hph]) (.inl hc) hclosed

/-! ### The page flash -/

theorem commitStep_seqLegal (h : Receiving s) (hu : UnitLegal s) (hw : s.waitCnt < s.params.waitBudget)
    (hv : s.unitValid = true) : (commitStep s).SeqLegal := by
  rcases commitStep_cases s with e | ⟨m, e⟩ | ⟨m, e⟩ <;> rw [e]
  · exact hu.raiseBlink _
  · exact startPulse_seqLegal (u := { s with progMem := m, draws := s.draws + 2 }) h hu hw hv
  · exact UnitLegal.raiseBlink (u := { s with progMem := m, draws := s.draws + 2 }) hu _

/-- The close sample of FLASH_PAGE leaves the commit to the next step (R169). -/
theorem flashPageClosed_seqLegal (hc : s.cur = 0x0D) (h : Receiving s) (hrun : s.phase = .run)
    (hw : s.waitCnt < s.params.waitBudget) (hu : UnitLegal (deliverUnit s)) : (flashPageClosed (deliverUnit s)).SeqLegal := by
  obtain ⟨ha, hr, -, -, hd⟩ := id h
  have hlen : s.unitN + 1 = 129 := by rw [hd hc]; rfl
  have hplace := Receiving.responderPlace (u := flashPageClosed (deliverUnit s)) h
    (.inr (.inr (.inr (.inl ⟨rfl, hc, rfl, hlen⟩))))
  exact UnitLegal.of_run (s := flashPageClosed (deliverUnit s)) hu ha hrun hw (.inr ⟨hr, hplace⟩)

theorem execFlashPage_seqLegal (h : s.SeqLegal) (ha : s.active = true) (hc : s.cur = 0x0D) :
    Ensures State.SeqLegal (execFlashPage s) := by
  have hu := h.unitLegal
  have hrun : s.phase ≠ .start →
      (if s.seq = .commit then commitStep s else rxUnitWaits flashPageClosed s).SeqLegal := by
    intro hph
    split
    · next hseq =>
      obtain ⟨-, hw, hr, hn, hd, hplace⟩ := h.receivePlace ha hph (.inr hc)
      obtain ⟨-, hv, -⟩ : s.cur = 0x0D ∧ s.unitValid = true ∧ s.unitLen = 129 := by simpa [hseq] using hplace
      exact commitStep_seqLegal ⟨ha, hr, .inr hc, hn, hd⟩ hu hw hv
    · exact rxUnitWaits_seqLegal h ha hph (.inr hc) (flashPageClosed_seqLegal hc)
  simp only [execFlashPage, ensures_next]
  cases hph : s.phase with
  | start =>
    exact firstStep_seqLegal hu fun hr hm =>
      rxUnitStart_seqLegal hu.1 ha (eq_of_check hr) (.inr hc) fun _ => eq_of_check hm
  | drive => exact hrun (by simp [hph])
  | run => exact hrun (by simp [hph])

/-! ### Sending a unit -/

/-- What a send of a unit keeps from its first step on. -/
def Sending (s : State) : Prop :=
  s.active = true ∧ s.ctrl.role = .initiator ∧ s.cur = 0x0B ∧ s.unitN.toNat < 2 ^ 16 ∧ BytesHeld s (s.unitN.toNat + 1)

theorem Sending.sendPlace (h : Sending u)
    (hp : u.seq = .hdrWait ∨ (u.seq = .payWait ∧ 1 ≤ u.idx.toNat ∧ u.idx.toNat ≤ u.unitN.toNat)) : SendPlace u := by
  obtain ⟨-, -, hc, hn, hb⟩ := h
  exact .inr (.inr ⟨hc, hn, hb, hp⟩)

/-- TX_UNIT past its first step is at its header or at a payload byte. -/
theorem State.SeqLegal.sending (h : s.SeqLegal) (ha : s.active = true) (hph : s.phase ≠ .start) (hc : s.cur = 0x0B) :
    Sending s ∧ (s.seq = .hdrWait ∨ (s.seq = .payWait ∧ 1 ≤ s.idx.toNat ∧ s.idx.toNat ≤ s.unitN.toNat)) := by
  obtain ⟨hr, ⟨h7, -⟩ | ⟨h8, -⟩ | ⟨-, hn, hb, hp⟩⟩ := h.sendPlace ha hph (by simp [hc])
  · rw [hc] at h7; cases h7
  · rw [hc] at h8; cases h8
  · exact ⟨⟨ha, hr, hc, hn, hb⟩, hp⟩

theorem txUnitStart_seqLegal (h : s.SeqLegal) (ha : s.active = true) (hr : s.ctrl.role = .initiator) (hc : s.cur = 0x0B)
    (hb : BytesHeld s ((unitCount s).toNat + 1)) : (txUnitStart s).SeqLegal := by
  have hu := h.unitLegal
  unfold txUnitStart
  split
  · exact hu.raise _
  · have hsending : Sending (presentData (bufByte s 0) .hdrWait { s with unitN := unitCount s, dir := true }) :=
      ⟨ha, hr, hc, unitCount_lt s, hb⟩
    exact UnitLegal.of_drive hu ha rfl hr (hsending.sendPlace (.inl rfl))

/-- After an acknowledgment the next byte is presented, or the command ends. -/
theorem txUnitNext_seqLegal (h : Sending u) (hu : UnitLegal u) (h1 : 1 ≤ u.idx.toNat) : (txUnitNext u).SeqLegal := by
  obtain ⟨ha, hr, -⟩ := id h
  unfold txUnitNext
  split
  · next hle =>
    have hplace := Sending.sendPlace (u := presentData (bufByte u u.idx.toNat) .payWait u) h (.inr ⟨rfl, h1, hle⟩)
    exact UnitLegal.of_drive (s := presentData (bufByte u u.idx.toNat) .payWait u) hu ha rfl hr hplace
  · exact UnitLegal.raise (u := { closeSend u with txBytes := u.txBytes + (u.unitN + 1).setWidth 32 }) hu _

theorem txUnitFail_seqLegal (hu : UnitLegal u) : (txUnitFail u).SeqLegal :=
  UnitLegal.raise (u := { u with txErr := u.txErr + 1 }) hu _

theorem txUnitStep_seqLegal (h : s.SeqLegal) (ha : s.active = true) (hc : s.cur = 0x0B) (hf : txUnitFaults s = false) :
    (txUnitStep s).SeqLegal := by
  have hu := h.unitLegal
  unfold txUnitStep
  split
  · next hph =>
    refine firstStep_seqLegal hu fun hr _ => ?_
    split
    · exact hu.raise _
    · next hlen =>
      have hundef : unitUndefined s = false := by simpa [txUnitFaults, hph, (eq_of_check hr : s.ctrl.role = _), hlen] using hf
      exact txUnitStart_seqLegal h ha (eq_of_check hr) hc (bytesHeld_of_unitUndefined hundef)
  · next hph =>
    obtain ⟨hsending, hplace⟩ := h.sending ha (by simp [hph]) hc
    obtain ⟨-, hr, -⟩ := id hsending
    split
    · exact UnitLegal.enterWait (u := driveValid true s) hu ha _
        (.inl ⟨hr, Sending.sendPlace (u := enterWait .hdrWait (driveValid true s)) hsending (.inl rfl)⟩)
    · next hseq =>
      have hidx : 1 ≤ s.idx.toNat ∧ s.idx.toNat ≤ s.unitN.toNat := by simpa [hseq] using hplace
      exact UnitLegal.enterWait (u := driveValid (!s.out.valid) s) hu ha _
        (.inl ⟨hr, Sending.sendPlace (u := enterWait .payWait (driveValid (!s.out.valid) s)) hsending (.inr ⟨rfl, hidx⟩)⟩)
    all_goals exact h
  · next hph =>
    obtain ⟨hsending, hplace⟩ := h.sending ha (by simp [hph]) hc
    obtain ⟨-, -, -, hn, -⟩ := id hsending
    have hfail : ∀ b n, (txUnitFail { s with latch := b, waitCnt := n }).SeqLegal := fun _ _ => txUnitFail_seqLegal hu
    split
    · exact ackSample_seqLegal h ha (fun b =>
        txUnitNext_seqLegal (u := { s with latch := b, pol := false, idx := 1 }) hsending hu (Nat.le_refl 1)) hfail
    · next hseq =>
      have hidx : 1 ≤ s.idx.toNat ∧ s.idx.toNat ≤ s.unitN.toNat := by simpa [hseq] using hplace
      have hsucc := toNat_succ (Nat.lt_of_le_of_lt hidx.2 hn)
      exact ackSample_seqLegal h ha (fun b =>
        txUnitNext_seqLegal (u := { s with latch := b, pol := !s.out.valid, idx := s.idx + 1 }) hsending hu
          (hsucc ▸ Nat.le_add_left 1 _)) hfail
    all_goals exact h

theorem execTxUnit_seqLegal (h : s.SeqLegal) (ha : s.active = true) (hc : s.cur = 0x0B) :
    Ensures State.SeqLegal (execTxUnit s) := by
  unfold execTxUnit
  split
  · trivial
  · next hf => exact txUnitStep_seqLegal h ha hc (by simpa using hf)

/-! ### Session start and the dispatcher -/

theorem preByteMeaning_seqLegal (hu : UnitLegal u) : Ensures State.SeqLegal (preByteMeaning u) := by
  unfold preByteMeaning
  split
  · exact UnitLegal.raiseBlink (u := takePreByte sentinel u) hu _
  · exact UnitLegal.raise (u := { takePreByte u.params.bootReq u with ctrl := { u.ctrl with mode := .flash } }) hu _
  · exact UnitLegal.raiseBlink (u := takePreByte _ u) hu _

/-- A counted sample of SELECT that does not complete the wait leaves PRESESSION in it. -/
theorem countSelect_seqLegal (h : s.SeqLegal) (ha : s.active = true) (hph : s.phase ≠ .start) (hc : s.cur = 0x0C)
    (hne : (countSelect s).stableCnt ≠ s.params.selectStable) : (countSelect s).SeqLegal := by
  obtain ⟨hrun, hw, hr, hplace⟩ := h.responderPlace ha hph (by simp [hc])
  obtain ⟨hseq, hlt⟩ : s.seq = .preWait ∧ s.stableCnt < s.params.selectStable := by simpa [ResponderPlace, hc] using hplace
  have hle : (countSelect s).stableCnt ≤ s.params.selectStable := by
    show (if (wire s).select then s.stableCnt + 1 else 0) ≤ s.params.selectStable
    split
    · exact hlt
    · exact Nat.zero_le _
  exact UnitLegal.of_run (s := countSelect s) h.unitLegal ha hrun hw
    (.inr ⟨hr, .inr (.inr (.inr (.inl ⟨hc, hseq, Nat.lt_of_le_of_ne hle hne⟩)))⟩)

theorem execPresession_seqLegal (h : s.SeqLegal) (ha : s.active = true) (hc : s.cur = 0x0C) :
    Ensures State.SeqLegal (execPresession s) := by
  have hu := h.unitLegal
  have hrun : s.phase ≠ .start → Ensures State.SeqLegal (presessionSample (countSelect s)) := by
    intro hph
    unfold presessionSample
    split
    · exact preByteMeaning_seqLegal (u := countSelect s) hu
    · next hne =>
      have hcounted := countSelect_seqLegal h ha hph hc hne
      exact sample_seqLegal (leave := id) (timeout := presessionTimeout) hcounted ha hcounted fun n =>
        UnitLegal.raiseBlink (u := driveBusy false { countSelect s with waitCnt := n }) hu _
  unfold execPresession
  cases hph : s.phase with
  | start =>
    exact firstStep_seqLegal hu fun hr _ => UnitLegal.enterWait (u := { driveBusy true s with stableCnt := 0 }) hu ha _
      (.inr ⟨eq_of_check hr, .inr (.inr (.inr (.inl ⟨hc, rfl, Params.selectStable_pos hu.1⟩)))⟩)
  | drive => exact hrun (by simp [hph])
  | run => exact hrun (by simp [hph])

theorem execReserve_seqLegal (hu : UnitLegal s) : Ensures State.SeqLegal (execReserve s) := by
  have htake : ∀ (ok : Bool) {u : State}, UnitLegal u → (reserveWith ok u).SeqLegal := by
    intro ok u hu
    unfold reserveWith
    split
    · exact UnitLegal.raise hu _
    · exact hu.raise _
  simp only [execReserve, ensures_next]
  split
  · exact hu.raise _
  · split
    · exact UnitLegal.raise hu _
    · split
      · exact htake _ hu
      · exact htake _ hu

theorem execRelease_seqLegal (hu : UnitLegal s) : Ensures State.SeqLegal (execRelease s) := by
  simp only [execRelease, ensures_next]
  split
  · exact hu.raise _
  · exact UnitLegal.raise hu _

theorem dispatchFrame_seqLegal (hu : UnitLegal u) : Ensures State.SeqLegal (dispatchFrame u) := by
  unfold dispatchFrame
  split
  · exact UnitLegal.blockReset hu.1
  iterate 6 exact UnitLegal.raise hu _
  · simp only [execPacket, ensures_next]
    split
    · exact UnitLegal.raise hu _
    · exact hu.raise _
  · exact hu.raise _
  · exact hu.raise _

theorem execDispatch_seqLegal (hu : UnitLegal s) : Ensures State.SeqLegal (execDispatch s) := by
  unfold execDispatch
  split
  · split
    · exact dispatchFrame_seqLegal hu
    · exact hu.raise _
  · exact hu.raise _

/-! ### Every step -/

/-- The Engine's step of the active command keeps the invariant. -/
theorem exec_seqLegal (h : s.SeqLegal) (ha : s.active = true) : Ensures State.SeqLegal (exec (decodeCode s.cur) s) := by
  have hu := h.unitLegal
  have hf := format_decodeCode s.cur
  cases hi : decodeCode s.cur with
  | nop => exact hu.raise _
  | reserve => exact execReserve_seqLegal hu
  | release => exact execRelease_seqLegal hu
  | rearm => exact execRearm_seqLegal h
  | rxHeader => exact execRxHeader_seqLegal h ha (decodeCode_injective hi)
  | rxPayload => exact execRxPayload_seqLegal h ha (decodeCode_injective hi)
  | rxClose => exact execRxClose_seqLegal h ha (decodeCode_injective hi)
  | txHeader => exact execTxHeader_seqLegal h ha (decodeCode_injective hi)
  | txPayload => exact execTxPayload_seqLegal h ha (decodeCode_injective hi)
  | txClose => exact execTxClose_seqLegal h
  | rxUnit => exact execRxUnit_seqLegal h ha (decodeCode_injective hi)
  | txUnit => exact execTxUnit_seqLegal h ha (decodeCode_injective hi)
  | presession => exact execPresession_seqLegal h ha (decodeCode_injective hi)
  | flashPage => exact execFlashPage_seqLegal h ha (decodeCode_injective hi)
  | dispatch => exact execDispatch_seqLegal hu
  | reset => exact UnitLegal.blockReset hu.1
  | illegal c => exact hu.raise _
  | _ => rw [hi] at hf; cases hf

theorem ReadOf.seqLegal {t : State} (hr : ReadOf s t) (h : s.SeqLegal) : t.SeqLegal := by
  obtain ⟨v, l, n, rfl⟩ := hr
  exact h

theorem WriteOf.seqLegal {t : State} (hw : WriteOf s t) (h : s.SeqLegal) : t.SeqLegal := by
  obtain ⟨hp, hheld⟩ := h.unitLegal
  cases hw with
  | accepted code ha hcode =>
    obtain ⟨-, -, -, hseq⟩ := h.inactive ha
    refine UnitLegal.of_start h.unitLegal rfl rfl ?_
    rcases hseq with hseq | hseq | hseq
    · exact .inl hseq
    · exact .inr (.inl hseq)
    · exact .inr (.inr ⟨hseq, by simpa [hseq] using hcode⟩)
  | ctrl d ha =>
    rw [writeCtrl_of_inactive d ha]
    obtain ⟨hph, hc, hw, hseq⟩ := h.inactive ha
    exact UnitLegal.of_inactive h.unitLegal ha hph hc hw hseq
  | buf i b ha =>
    obtain ⟨hph, hc, hw, hseq⟩ := h.inactive ha
    exact UnitLegal.of_inactive ⟨hp, fun hv => (hheld hv).put i b⟩ ha hph hc hw hseq
  | refused => exact h
  | overrun => exact h
  | operands => exact h

theorem ResetOf.seqLegal {t : State} (hr : ResetOf s t) (h : s.SeqLegal) : t.SeqLegal := by
  obtain ⟨es, -, rfl⟩ := hr
  exact UnitLegal.blockReset h.1

/-- Every agent keeps the invariant; only the Engine's step of a command needs more than what the step can do. -/
theorem agentStep_seqLegal {a : Turn} (h : s.SeqLegal) (hstep : agentStep a s = .next u) : u.SeqLegal := by
  have hengine : a = .engine → s.active = true → u.SeqLegal := by
    rintro rfl ha
    rw [agentStep_engine_active ha] at hstep
    exact (exec_seqLegal h ha).of_eq hstep
  cases agentStep_cases hstep with
  | read w _ hr => exact hr.seqLegal h
  | write w _ hw => exact hw.seqLegal h
  | engine ha hact _ => exact hengine ha hact
  | resetCommand ha hact _ _ => exact hengine ha hact
  | idle _ _ hu => exact hu ▸ h
  | edgeCapture _ hu =>
    subst hu
    unfold edgeCaptureStep
    split <;> exact h
  | tick _ hu => subst hu; exact h
  | peer m _ hu => subst hu; exact h
  | powerUp _ hr => exact hr.seqLegal h

/-- What ends a step writes nothing the invariant looks at. -/
theorem endStep_seqLegal (h : u.SeqLegal) : (endStep s u).SeqLegal := by
  obtain ⟨es, e⟩ := endStep_eq s u
  rw [e]
  exact h

/-- Settles O57: the agent's step keeps the invariant, for the Engine by the places of the active command. -/
theorem stepKeepsTheSequencerLegal : Obligations.StepKeepsTheSequencerLegal := by
  intro s t h hstep
  obtain ⟨u, hu, rfl⟩ := step_next hstep
  have htaken : (takeTurn s).SeqLegal := h
  exact endStep_seqLegal (agentStep_seqLegal htaken hu)

end Sys2Proof.Machine
end

