-- ==== Sys2Proof/Proofs/State.lean ====
section
/-! The statements of spec/10_state.md about the state after reset, the host's accesses and the agents that run no instruction. -/

namespace Sys2Proof.Machine

open Sys2Proof

/-! ### Reset (R52, R240) -/

theorem ctrlWord_reset : ctrlWord Ctrl.reset = 0 := by decide

theorem dispOutWord_reset : dispOutWord DispOut.reset = 0 := by decide

/-- Block reset gives every element of R52 the table's value, in the order of `AtResetValues`. -/
theorem atResetValues_blockReset (s : State) : AtResetValues (blockReset s) :=
  ⟨rfl, rfl, rfl, rfl, rfl, rfl, rfl, rfl, rfl, rfl, rfl, rfl, rfl, ctrlWord_reset, rfl, rfl, rfl, rfl, rfl, rfl, rfl, rfl, rfl,
    rfl, rfl, rfl, rfl, rfl, rfl, rfl, rfl, dispOutWord_reset, rfl, rfl, rfl, rfl, ⟨s.draws, rfl⟩, fun _ => rfl, rfl⟩

/-- The state after reset is the block reset of itself before its first draw, that of TICK. -/
theorem blockReset_reset : blockReset { State.reset with draws := 0 } = State.reset := rfl

/-- Settles O4: both states are block resets, and block reset gives the table's values. -/
theorem resetLeavesTheTable : Obligations.ResetLeavesTheTable := by
  refine ⟨blockReset_reset ▸ atResetValues_blockReset _, ?_, fun a => ?_, fun s => ?_⟩
  · intro r hr
    simp only [List.mem_cons, List.not_mem_nil, or_false] at hr
    rcases hr with rfl | rfl <;> exact ⟨1, _, rfl, rfl⟩
  · rfl
  · exact ⟨blockReset s, rfl, atResetValues_blockReset s, rfl, rfl⟩

/-- Settles O58: State.reset is a block reset under well-formed parameters. -/
theorem invariantsHoldAtReset : Obligations.InvariantsHoldAtReset := by
  have hparams : Params.reference.wf = true := by decide
  refine ⟨⟨memory_wf_reset, rfl, fun _ => rfl, rfl, fun _ => rfl⟩, ?_⟩
  exact blockReset_reset ▸ UnitLegal.blockReset (s := { State.reset with draws := 0 }) hparams

/-! ### Words made of fields (R26) -/

@[simp] theorem bitAt_getElem (i k : Nat) (b : Bool) (hk : k < 32) : (bitAt i b)[k] = (decide (i = k) && b) := by
  rw [← BitVec.getLsbD_eq_getElem hk, bitAt_getLsbD, decide_eq_true hk, Bool.true_and]

@[simp] theorem fieldAt_getElem (lo k : Nat) {n : Nat} (v : BitVec n) (hk : k < 32) :
    (fieldAt lo v)[k] = (decide (lo ≤ k) && v.getLsbD (k - lo)) := by
  rw [← BitVec.getLsbD_eq_getElem hk, fieldAt_getLsbD, decide_eq_true hk, Bool.and_true]

/-- A field is read back from its own bits. -/
@[simp] theorem fieldAt_extract_same {lo n : Nat} (v : BitVec n) (h : lo + n ≤ 32) : (fieldAt lo v).extractLsb' lo n = v := by
  apply BitVec.eq_of_getLsbD_eq
  intro k hk
  simp [show lo + k < 32 by omega, hk]

/-- Bits that a field does not reach are 0. -/
@[simp] theorem fieldAt_extract_outside {lo m lo' n : Nat} (v : BitVec m) (h : lo + m ≤ lo' ∨ lo' + n ≤ lo) :
    (fieldAt lo v).extractLsb' lo' n = 0 := by
  apply BitVec.eq_of_getLsbD_eq
  intro k hk
  rw [BitVec.getLsbD_extractLsb', fieldAt_getLsbD]
  rcases h with h | h
  · simp [BitVec.getLsbD_of_ge v (lo' + k - lo) (by omega)]
  · simp [show ¬lo ≤ lo' + k by omega]

/-- Bits other than a flag's own are 0. -/
@[simp] theorem bitAt_extract_outside {i lo n : Nat} (b : Bool) (h : i < lo ∨ lo + n ≤ i) : (bitAt i b).extractLsb' lo n = 0 := by
  apply BitVec.eq_of_getLsbD_eq
  intro k hk
  rw [BitVec.getLsbD_extractLsb', bitAt_getLsbD]
  simp [show i ≠ lo + k by omega]

theorem seqCode_mem (q : SeqState) : (q, q.code) ∈ StateCodes := by cases q <;> decide

theorem outcomeCode_mem (o : DispOutcome) : (o, o.code) ∈ OutcomeCodes := by cases o <;> decide

theorem resultCode_mem (r : ResultCode) : (r, r.code) ∈ ResultCodes := by cases r <;> decide

/-! ### Reads -/

/-- Settles O6: each bit of the word a read returns is the field that is assembled there. -/
theorem rdReturnsFieldWords : Obligations.RdReturnsFieldWords := by
  intro s
  refine ⟨⟨statusWord s, rfl, ?_⟩, ⟨ctrlWord s.ctrl, rfl, ?_⟩, ⟨linesWord s, rfl, ?_⟩, ⟨dispOutWord s.dispOut, rfl, ?_⟩⟩
  · simp [statusWord, BitVec.extractLsb'_or, statusFatal, statusOwned, BitVec.getLsbD_of_ge, seqCode_mem]
  · simp [ctrlWord, BitVec.extractLsb'_or]
  · simp [linesWord, BitVec.extractLsb'_or]
  · simp [dispOutWord, BitVec.extractLsb'_or, outcomeCode_mem]

/-- Settles O7, by the register each number names. -/
theorem rdReturnsPlainRegisters : Obligations.RdReturnsPlainRegisters := fun s =>
  ⟨rfl, ⟨s.result.code, resultCode_mem s.result, rfl⟩, rfl, rfl, rfl, rfl, rfl, rfl, rfl, rfl, rfl, rfl, rfl, rfl, rfl⟩

/-- Settles O8: the word returned is the latch at bit 0. -/
theorem latchReadClears : Obligations.LatchReadClears := fun s d => by
  refine ⟨?_, rfl⟩
  have hword : bitAt 0 s.latch = if s.latch then 1 else 0 := by cases s.latch <;> rfl
  rw [← hword]
  rfl

/-- Settles O9, by the register each number names. -/
theorem rateReadsAreDraws : Obligations.RateReadsAreDraws := fun _ => ⟨rfl, rfl⟩

/-! ### Reserved numbers and BUF, by the register a number names -/

theorem exec_rd_reserved {s : State} {r : RegNum} (h : hostReg s.params r = .reserved) :
    exec (.rd r) s = .next { s with rdata := 0 } := by
  show execRd r s = _
  rw [execRd, h]
  rfl

theorem exec_wr_reserved {s : State} {r : RegNum} (d : Word) (h : hostReg s.params r = .reserved) :
    exec (.wr r d) s = .next s := by
  show execWr r d s = _
  rw [execWr, h]

theorem exec_rd_buf {s : State} {r : RegNum} {i : Nat} (h : hostReg s.params r = .buf i) : exec (.rd r) s = readBuf i s := by
  show execRd r s = _
  rw [execRd, h]

theorem exec_wr_buf {s : State} {r : RegNum} {i : Nat} (d : Word) (h : hostReg s.params r = .buf i) :
    exec (.wr r d) s = writeBuf i (d.setWidth 8) s := by
  show execWr r d s = _
  rw [execWr, h]

/-- Settles O10. -/
theorem reservedNumbersReadZero : Obligations.ReservedNumbersReadZero := fun _ _ d hr =>
  ⟨exec_rd_reserved (hostReg_reserved hr), exec_wr_reserved d (hostReg_reserved hr)⟩

/-- Settles O11: a number of the window names its byte of BUF, and a write of one byte reads back at its index alone. -/
theorem bufAccess : Obligations.BufAccess := by
  intro s i r d hi hr
  have hreg := hostReg_buf hi hr
  rw [exec_rd_buf hreg, exec_wr_buf d hreg]
  refine ⟨fun ha => ?_, fun ha => ⟨⟨Cells.put i (d.setWidth 8) s.buf, ?_, fun j => find_put i j _ _⟩, fun b hb => ?_, fun hb => ?_⟩⟩
  · simp [readBuf, writeBuf, ha]
  · simp [writeBuf, ha]
  · simp [readBuf, ha, hb, readReturns]
  · simp [readBuf, ha, hb]

/-! ### Writes -/

/-- Settles O12, by the register each number names. -/
theorem wrPlainRegisters : Obligations.WrPlainRegisters := by
  intro s d
  simp only [low_bits]
  refine ⟨rfl, rfl, rfl, ?_, fun r hr => ?_⟩
  · have hclear : (s.overrun && !d.getLsbD 6) = if d.getLsbD 6 then false else s.overrun := by
      cases d.getLsbD 6 <;> simp
    rw [← hclear]
    rfl
  · simp only [List.mem_cons, List.not_mem_nil, or_false] at hr
    rcases hr with rfl | rfl | rfl | rfl | rfl | rfl | rfl | rfl | rfl | rfl | rfl | rfl | rfl | rfl | rfl <;> rfl

theorem exec_wr_ctrl (s : State) (d : Word) : exec (.wr 0x003#12 d) s = .next (writeCtrl d s) := rfl

/-- Settles O13, field by field of the write while no command is active. -/
theorem wrCtrlSetsFields : Obligations.WrCtrlSetsFields := by
  intro s d
  rw [exec_wr_ctrl]
  refine ⟨fun ha => ?_, fun ha => ⟨writeCtrl d s, rfl, ?_⟩⟩
  · rw [writeCtrl, if_pos ha]
  · rw [writeCtrl_of_inactive d ha]
    refine ⟨rfl, ?_, ?_, rfl, rfl, rfl, fun hne => if_neg hne, fun heq => if_pos heq, fun hne => if_neg hne,
      fun heq => if_pos heq, rfl⟩
    · simp [ctrlOfWord]
    · simp [ctrlOfWord]

/-! ### The agents that run no instruction -/

theorem agentStep_engine_idle {s : State} (h : s.active = false) : agentStep .engine s = .next s := by
  rw [agentStep, if_neg (by simp [h])]

theorem step_of_turn {s u : State} {a : Turn} {rest : List Turn} (hturn : s.turns = a :: rest)
    (hu : agentStep a { s with turns := rest } = .next u) : step s = .next (endStep s u) :=
  step_of_agentStep_next (by rw [nextTurn_of_cons hturn, takeTurn_of_cons hturn, hu])

/-- Settles O48: the turn in store says which agent steps. -/
theorem otherAgentsStep : Obligations.OtherAgentsStep := by
  intro s rest m
  refine ⟨fun hturn => ?_, fun hturn => ?_, fun hturn ha => ?_, fun hturn => ?_⟩
  · exact step_of_turn hturn rfl
  · exact step_of_turn hturn rfl
  · exact step_of_turn hturn (agentStep_engine_idle ha)
  · exact ⟨blockReset { s with turns := rest }, step_of_turn hturn rfl, atResetValues_blockReset _, rfl, rfl, rfl, rfl⟩

end Sys2Proof.Machine
end

