-- ==== Sys2Proof/Proofs/Memory.lean ====
section
/-! The statements of spec/20_memory.md: the words of a page, and the one step that writes program memory. -/

namespace Sys2Proof.Machine

open Sys2Proof

/-! ### The words of a page (R65) -/

/-- The word of two bytes as a number: the two halves have no bit in common. -/
theorem littleEndianWord_eq (lo hi : Byte) :
    (lo.setWidth 16 ||| hi.setWidth 16 <<< 8 : Half) = BitVec.ofNat 16 (lo.toNat + 256 * hi.toNat) := by
  have hdisjoint : (lo.setWidth 16 &&& hi.setWidth 16 <<< 8 : Half) = 0 := by
    apply BitVec.eq_of_getLsbD_eq
    intro k _
    rcases Nat.lt_or_ge k 8 with hk | hk
    · simp [hk]
    · simp [BitVec.getLsbD_of_ge lo k hk]
  rw [← BitVec.add_eq_or_of_and_eq_zero _ _ hdisjoint]
  bv_omega

/-- Word `j` is made of the bytes `2j` and `2j + 1`. -/
theorem getElem?_wordsOfBytes {lo hi : Byte} : ∀ (bs : List Byte) (j : Nat), bs[2 * j]? = some lo → bs[2 * j + 1]? = some hi →
    (wordsOfBytes bs)[j]? = some (BitVec.ofNat 16 (lo.toNat + 256 * hi.toNat))
  | [], _, hlo, _ => by simp at hlo
  | [_], _, _, hhi => by simp at hhi
  | a :: b :: rest, 0, hlo, hhi => by
    obtain rfl : a = lo := by simpa using hlo
    obtain rfl : b = hi := by simpa using hhi
    rw [wordsOfBytes, List.getElem?_cons_zero, littleEndianWord_eq]
  | _ :: _ :: rest, j + 1, hlo, hhi => by
    rw [wordsOfBytes, List.getElem?_cons_succ]
    exact getElem?_wordsOfBytes rest j hlo hhi

theorem length_wordsOfBytes {n : Nat} {bs : List Byte} (h : bs.length = 2 * n) : (wordsOfBytes bs).length = n := by
  have hbytes := length_bytesOfWords (wordsOfBytes bs)
  rw [bytesOfWords_wordsOfBytes n bs h] at hbytes
  omega

/-- Settles O40: word by word along the payload. -/
theorem pageWordsAreLittleEndian : Obligations.PageWordsAreLittleEndian := by
  intro bs h
  refine ⟨length_wordsOfBytes (n := 64) h, fun j hj => ?_, bytesOfWords_wordsOfBytes 64 bs h⟩
  have hlo : bs[2 * j]? = some (bs[2 * j]'(by omega)) := List.getElem?_eq_getElem _
  have hhi : bs[2 * j + 1]? = some (bs[2 * j + 1]'(by omega)) := List.getElem?_eq_getElem _
  rw [getElem?_wordsOfBytes bs j hlo hhi, hlo, hhi]

/-! ### Who writes program memory (R64, R162) -/

variable {s t u : State}

@[simp] theorem edgeCaptureStep_progMem (s : State) : (edgeCaptureStep s).progMem = s.progMem := by
  unfold edgeCaptureStep; split <;> rfl
@[simp] theorem endStep_progMem (s u : State) : (endStep s u).progMem = u.progMem := by simp [endStep]

/-- Up to its commit, FLASH_PAGE is a receive: its step changes no more than a step of RX_UNIT does (R162, R169). -/
theorem execFlashPage_frame_of_not_commit (h : s.phase = .start ∨ s.seq ≠ .commit) :
    Ensures (EngineFrame .rxUnit s) (execFlashPage s) := by
  have hrefl := EngineFrame.refl .rxUnit s
  have hi : Instr.rxUnit ∈ [Instr.rxUnit, .flashPage] := by decide
  have hwaits : s.phase ≠ .start →
      EngineFrame .rxUnit s (if s.seq = .commit then commitStep s else rxUnitWaits flashPageClosed s) := by
    intro hphase
    rw [if_neg (h.resolve_left hphase)]
    exact rxUnitWaits_frame hi (deliverUnit_frame hrefl hi).moved
  simp only [execFlashPage, ensures_next]
  cases hphase : s.phase with
  | start => exact firstStep_frame fun _ => rxUnitStart_frame hrefl
  | drive => exact hwaits (by simp [hphase])
  | run => exact hwaits (by simp [hphase])

/-- Of the instructions, only the commit of FLASH_PAGE writes program memory. -/
theorem exec_writes_progMem {i : Instr} (h : exec i s = .next t) (hne : t.progMem ≠ s.progMem) :
    i = .flashPage ∧ s.phase ≠ .start ∧ s.seq = .commit := by
  rcases exec_cases h with ⟨r, -, hr⟩ | ⟨r, d, -, hw⟩ | ⟨-, es, -, rfl⟩ | ⟨-, he⟩
  · exact absurd hr.frame.progMem hne
  · exact absurd hw.frame.1.progMem hne
  · exact absurd rfl hne
  · obtain rfl : i = .flashPage := by_contra fun hi => hne (he.progMem hi)
    by_contra hcommit
    have hreceive : s.phase = .start ∨ s.seq ≠ .commit := by tauto
    exact hne (((execFlashPage_frame_of_not_commit hreceive).of_eq h).progMem (by decide))

/-- Of the agents, only the Engine writes program memory, in the commit of an active FLASH_PAGE. -/
theorem agentStep_writes_progMem {a : Turn} (h : agentStep a s = .next u) (hne : u.progMem ≠ s.progMem) :
    a = .engine ∧ s.active = true ∧ s.cur = 0x0D ∧ s.phase ≠ .start ∧ s.seq = .commit := by
  rcases agentStep_next h with ⟨w, rfl, hx⟩ | ⟨rfl, hact, hx⟩ | ⟨-, -, rfl⟩ | ⟨-, rfl⟩ | ⟨-, rfl⟩ | ⟨m, -, rfl⟩ | ⟨-, rfl⟩
  · have hformat := format_decodeHost w
    rw [(exec_writes_progMem hx hne).1] at hformat
    cases hformat
  · obtain ⟨hi, hcommit⟩ := exec_writes_progMem hx hne
    exact ⟨rfl, hact, decodeCode_injective hi, hcommit⟩
  · exact absurd rfl hne
  · exact absurd (edgeCaptureStep_progMem s) hne
  · exact absurd (tickStep_progMem s) hne
  · exact absurd (peerStep_progMem m s) hne
  · exact absurd (blockReset_progMem s) hne

/-- Settles O50: taking the turn and ending the step leave program memory, so the agent's step wrote it. -/
theorem onlyTheCommitWritesProgramMemory : Obligations.OnlyTheCommitWritesProgramMemory := by
  intro s t h hne
  obtain ⟨u, hu, rfl⟩ := step_next h
  rw [endStep_progMem] at hne
  have hwrites := agentStep_writes_progMem hu (by rwa [takeTurn_progMem])
  simpa using hwrites

end Sys2Proof.Machine
end

