-- ==== Sys2Proof/Proofs/Encoding.lean ====
section
/-! The encodings of spec/30_encoding.md: the decoders and the encoder undo each other. -/

namespace Sys2Proof

open Sys2Proof.Laws.EncodingFits (formatBits)

/-! ### Bytes (log entry 8) -/

@[simp] theorem length_bytesOfNat (n v : Nat) : (bytesOfNat n v).length = n := by
  induction n generalizing v with
  | zero => rfl
  | succ n ih => rw [bytesOfNat, List.length_cons, ih]

theorem natOfBytes_bytesOfNat {n v : Nat} (h : v < 256 ^ n) : natOfBytes (bytesOfNat n v) = v := by
  induction n generalizing v with
  | zero => simpa [bytesOfNat, natOfBytes, eq_comm] using h
  | succ n ih =>
    rw [bytesOfNat, natOfBytes, ih (Nat.div_lt_of_lt_mul (by rwa [← Nat.pow_succ'])), BitVec.toNat_ofNat]
    omega

/-- Decoding the bytes of a number that fits the format decodes the number. -/
theorem decode_bytesOfNat {p : Params} {fmt : Format} {v : Nat} {i : Instr} (rest : List Byte) (hv : v < 256 ^ fmt.bytes)
    (hi : decodeNumber p fmt v = .ok i) : decode p fmt (bytesOfNat fmt.bytes v ++ rest) = .ok (i, rest) := by
  have hlong : ¬(bytesOfNat fmt.bytes v ++ rest).length < fmt.bytes := by simp
  rw [decode, if_neg hlong, List.take_left' (length_bytesOfNat _ _), List.drop_left' (length_bytesOfNat _ _),
    natOfBytes_bytesOfNat hv, hi]

/-- Every instruction's number fits the width of its format, by the law of each. -/
theorem encodeNumber_lt (p : Params) (i : Instr) : encodeNumber p i < 2 ^ formatBits i.format :=
  open Laws.EncodingFits in
  match i with
  | .rd reg => rd reg p | .wr reg data => wr reg data p
  | .nop => nop p | .reserve => reserve p | .release => release p | .rearm => rearm p | .rxHeader => rxHeader p
  | .rxPayload => rxPayload p | .rxClose => rxClose p | .txHeader => txHeader p | .txPayload => txPayload p
  | .txClose => txClose p | .rxUnit => rxUnit p | .txUnit => txUnit p | .presession => presession p
  | .flashPage => flashPage p | .dispatch => dispatch p | .reset => reset p | .illegal code => illegal code p
  | .preSentinel => preSentinel p | .preBootReq => preBootReq p | .preOther b => preOther b p
  | .reboot => reboot p | .getlog => getlog p | .getconfig => getconfig p | .setconfig => setconfig p
  | .storageInfo => storageInfo p | .storageRead => storageRead p | .storageWrite => storageWrite p
  | .packet => packet p | .opSentinel => opSentinel p | .opUnknown b => opUnknown b p

theorem encodeNumber_lt_bytes (p : Params) (i : Instr) : encodeNumber p i < 256 ^ i.format.bytes := by
  refine (encodeNumber_lt p i).trans_le ?_
  cases i.format <;> decide

/-! ### Host transactions (R80) -/

/-- The write bit is the top bit. -/
theorem hostWrite_eq (w : HostWord) : w.getLsbD 44 = decide (2 ^ 44 ≤ w.toNat) := BitVec.msb_eq_decide w

/-- The fields of a transaction as numbers. -/
theorem decodeHost_eq (w : HostWord) : decodeHost w =
    if 2 ^ 44 ≤ w.toNat then .wr (BitVec.ofNat 12 (w.toNat / 2 ^ 32)) (BitVec.ofNat 32 w.toNat)
    else .rd (BitVec.ofNat 12 (w.toNat / 2 ^ 32)) := by
  have hreg : w.extractLsb' 32 12 = BitVec.ofNat 12 (w.toNat / 2 ^ 32) := by
    rw [BitVec.extractLsb', Nat.shiftRight_eq_div_pow]
  have hdata : w.extractLsb' 0 32 = BitVec.ofNat 32 w.toNat := rfl
  rw [decodeHost, hostWrite_eq, hreg, hdata]
  simp only [decide_eq_true_eq]

theorem decodeNumber_host {p : Params} {v : Nat} (h : v < 2 ^ 45) :
    decodeNumber p .host v = .ok (decodeHost (BitVec.ofNat 45 v)) := if_pos h

theorem decodeHost_encode_rd (p : Params) (reg : RegNum) : decodeHost (BitVec.ofNat 45 (encodeNumber p (.rd reg))) = .rd reg := by
  have hreg := reg.isLt
  have hv : (BitVec.ofNat 45 (encodeNumber p (.rd reg))).toNat = reg.toNat * 2 ^ 32 := by
    rw [encodeNumber, BitVec.toNat_ofNat]; omega
  rw [decodeHost_eq, hv, if_neg (by omega), Nat.mul_div_cancel _ (by decide), BitVec.ofNat_toNat, BitVec.setWidth_eq]

theorem decodeHost_encode_wr (p : Params) (reg : RegNum) (data : Word) :
    decodeHost (BitVec.ofNat 45 (encodeNumber p (.wr reg data))) = .wr reg data := by
  have hreg := reg.isLt
  have hdata := data.isLt
  have hv : (BitVec.ofNat 45 (encodeNumber p (.wr reg data))).toNat = 2 ^ 44 + reg.toNat * 2 ^ 32 + data.toNat := by
    rw [encodeNumber, BitVec.toNat_ofNat]; omega
  rw [decodeHost_eq, hv, if_pos (by omega)]
  congr 1 <;> apply BitVec.eq_of_toNat_eq <;> rw [BitVec.toNat_ofNat] <;> omega

/-- A transaction is encoded as its own bits, but for the DATA of a read. -/
theorem encodeNumber_decodeHost (p : Params) (w : HostWord) :
    encodeNumber p (decodeHost w) = if w.getLsbD 44 then w.toNat else w.toNat / 2 ^ 32 * 2 ^ 32 := by
  have hw := w.isLt
  simp only [decodeHost_eq, hostWrite_eq, decide_eq_true_eq]
  split
  · simp only [encodeNumber, BitVec.toNat_ofNat]; omega
  · simp only [encodeNumber, BitVec.toNat_ofNat]; omega

theorem wf_decodeHost (p : Params) (w : HostWord) : (decodeHost w).wf p = true := by
  unfold decodeHost
  split <;> rfl

/-! ### Command words (R81, R84, R85) -/

theorem decodeCode_reserved {c : Byte} (h : 0x10 ≤ c.toNat) : decodeCode c = .illegal c := by
  unfold decodeCode
  split
  case h_17 => rfl
  all_goals omega

theorem wf_decodeCode (p : Params) (c : Byte) : (decodeCode c).wf p = true := by
  rcases Nat.lt_or_ge c.toNat 0x10 with h | h
  · unfold decodeCode
    interval_cases c.toNat <;> rfl
  · rw [decodeCode_reserved h]
    exact decide_eq_true h

theorem decodeNumber_command (p : Params) (c : Byte) : decodeNumber p .command c.toNat = .ok (decodeCode c) := by
  have hcode : commandCode (BitVec.ofNat 32 c.toNat) = c := by
    have := c.isLt
    apply BitVec.eq_of_toNat_eq
    rw [commandCode, BitVec.toNat_setWidth, BitVec.toNat_ofNat]; omega
  rw [decodeNumber, decodeCommand, hcode]

/-! ### Pre-session bytes (R90) -/

theorem decodeNumber_preSession (p : Params) (b : Byte) : decodeNumber p .preSession b.toNat = .ok (decodePre p b) := by
  rw [decodeNumber, BitVec.ofNat_toNat, BitVec.setWidth_eq]

@[simp] theorem decodePre_sentinel (p : Params) : decodePre p sentinel = .preSentinel := by
  rw [decodePre, classifyPre, if_pos rfl, PreByte.toInstr]

theorem decodePre_bootReq {p : Params} (h : p.bootReq ≠ sentinel) : decodePre p p.bootReq = .preBootReq := by
  rw [decodePre, classifyPre, if_neg h, if_pos rfl, PreByte.toInstr]

theorem decodePre_other {p : Params} {b : Byte} (hs : b ≠ sentinel) (hb : b ≠ p.bootReq) : decodePre p b = .preOther b := by
  rw [decodePre, classifyPre, if_neg hs, if_neg hb, PreByte.toInstr]

/-- A pre-session byte stands for a well-formed instruction that is encoded as the byte. -/
theorem decodePre_spec (p : Params) (b : Byte) :
    (decodePre p b).wf p = true ∧ (decodePre p b).format = .preSession ∧ encodeNumber p (decodePre p b) = b.toNat := by
  by_cases hs : b = sentinel
  · rw [hs, decodePre_sentinel]
    exact ⟨rfl, rfl, rfl⟩
  · by_cases hb : b = p.bootReq
    · rw [hb, decodePre_bootReq (hb ▸ hs)]
      exact ⟨rfl, rfl, rfl⟩
    · rw [decodePre_other hs hb]
      exact ⟨by simp [Instr.wf, hs, hb], rfl, rfl⟩

/-! ### Frame opcodes (R91) -/

theorem decodeNumber_frame (p : Params) (b : Byte) : decodeNumber p .frame b.toNat = .ok (decodeOpcode p b) := by
  rw [decodeNumber, BitVec.ofNat_toNat, BitVec.setWidth_eq]

/-- The rows of the opcode table that a parameter gives a byte, in the table's order. -/
def opcodeRows (p : Params) : List (Byte × FrameOp) :=
  [(p.opReboot, .reboot), (p.opGetlog, .getlog), (p.opGetconfig, .getconfig), (p.opSetconfig, .setconfig),
    (p.opStorageInfo, .storageInfo), (p.opStorageRead, .storageRead), (p.opStorageWrite, .storageWrite)]
    ++ p.opPacket.toList.map (·, .packet)

theorem opcodeRows_keys (p : Params) : (opcodeRows p).map Prod.fst = p.opcodes := by
  simp [opcodeRows, Params.opcodes, Function.comp_def]

/-- A look-up tests the first row and goes on in the others. -/
theorem lookup_cons_getD (b c : Byte) (f d : FrameOp) (l : List (Byte × FrameOp)) :
    (((c, f) :: l).lookup b).getD d = if b = c then f else (l.lookup b).getD d := by
  rw [List.lookup_cons]
  by_cases h : b = c
  · simp [h]
  · simp [h, beq_false_of_ne h]

/-- The opcode table is a look-up of the byte in its rows. -/
theorem classifyOpcode_eq_lookup (p : Params) (b : Byte) :
    classifyOpcode p b = ((opcodeRows p).lookup b).getD (if b = sentinel then .sentinel else .unknown) := by
  unfold classifyOpcode opcodeRows
  cases p.opPacket with
  | none => simp [lookup_cons_getD]
  | some op => simp [lookup_cons_getD, eq_comm (a := op)]

/-- Where no byte has two rows, a look-up finds the byte's row. -/
theorem lookup_of_mem {l : List (Byte × FrameOp)} {b : Byte} {f : FrameOp} (hl : (l.map Prod.fst).Nodup) (h : (b, f) ∈ l) :
    l.lookup b = some f := by
  induction l with
  | nil => cases h
  | cons row l ih =>
    obtain ⟨c, g⟩ := row
    obtain ⟨hc, hl⟩ := List.nodup_cons.1 hl
    rcases List.mem_cons.1 h with heq | h
    · cases heq
      exact List.lookup_cons_self
    · have hb : b ∈ l.map Prod.fst := List.mem_map.2 ⟨(b, f), h, rfl⟩
      have hne : (b == c) = false := beq_false_of_ne fun hbc => hc (hbc ▸ hb)
      rw [List.lookup_cons, hne]
      exact ih hl h

/-- A byte without a row is the sentinel or unknown. -/
theorem lookup_of_not_mem {p : Params} {b : Byte} (h : b ∉ p.opcodes) : (opcodeRows p).lookup b = none := by
  rw [List.lookup_eq_none_iff]
  intro row hrow
  rw [← opcodeRows_keys] at h
  exact bne_iff_ne.2 fun hb => h (List.mem_map.2 ⟨row, hrow, hb.symm⟩)

theorem decodeOpcode_row {p : Params} {b : Byte} {f : FrameOp} (hp : p.opcodes.Nodup) (h : (b, f) ∈ opcodeRows p) :
    decodeOpcode p b = f.toInstr b := by
  rw [decodeOpcode, classifyOpcode_eq_lookup, lookup_of_mem (by rwa [opcodeRows_keys]) h, Option.getD_some]

theorem decodeOpcode_no_row {p : Params} {b : Byte} (h : b ∉ p.opcodes) :
    decodeOpcode p b = if b = sentinel then .opSentinel else .opUnknown b := by
  rw [decodeOpcode, classifyOpcode_eq_lookup, lookup_of_not_mem h, Option.getD_none]
  split <;> rfl

/-- The instruction of a row is well-formed and is encoded as the row's byte. -/
theorem toInstr_row_spec {p : Params} {b : Byte} {f : FrameOp} (h : (b, f) ∈ opcodeRows p) :
    (f.toInstr b).wf p = true ∧ (f.toInstr b).format = .frame ∧ encodeNumber p (f.toInstr b) = b.toNat := by
  simp only [opcodeRows, List.mem_append, List.mem_cons, List.not_mem_nil, or_false, Prod.mk.injEq] at h
  rcases h with (⟨rfl, rfl⟩ | ⟨rfl, rfl⟩ | ⟨rfl, rfl⟩ | ⟨rfl, rfl⟩ | ⟨rfl, rfl⟩ | ⟨rfl, rfl⟩ | ⟨rfl, rfl⟩) | hpacket
  case inr =>
    obtain ⟨op, hop, heq⟩ := List.mem_map.1 hpacket
    cases heq
    simp [FrameOp.toInstr, Instr.wf, Instr.format, encodeNumber, Option.mem_toList.1 hop]
  all_goals exact ⟨rfl, rfl, rfl⟩

/-- A frame opcode stands for a well-formed instruction that is encoded as the byte. -/
theorem decodeOpcode_spec {p : Params} (hp : p.opcodes.Nodup) (b : Byte) :
    (decodeOpcode p b).wf p = true ∧ (decodeOpcode p b).format = .frame ∧ encodeNumber p (decodeOpcode p b) = b.toNat := by
  by_cases hb : b ∈ p.opcodes
  · rw [← opcodeRows_keys] at hb
    obtain ⟨⟨c, f⟩, hrow, rfl⟩ := List.mem_map.1 hb
    rw [decodeOpcode_row hp hrow]
    exact toInstr_row_spec hrow
  · rw [decodeOpcode_no_row hb]
    split
    · next hs => rw [hs]; exact ⟨rfl, rfl, rfl⟩
    · next hs => exact ⟨by simp [Instr.wf, hs, hb], rfl, rfl⟩

/-! ### Well-formed parameters (R9) -/

theorem Params.bootReq_ne_sentinel {p : Params} (h : p.wf = true) : p.bootReq ≠ sentinel := by
  simp only [Params.wf, Bool.and_eq_true, bne_iff_ne] at h
  obtain ⟨⟨⟨⟨⟨⟨-, hboot⟩, -⟩, -⟩, -⟩, -⟩, -⟩ := h
  exact hboot

theorem Params.opcodes_nodup {p : Params} (h : p.wf = true) : p.opcodes.Nodup := by
  simp only [Params.wf, Bool.and_eq_true, decide_eq_true_eq] at h
  obtain ⟨⟨⟨⟨⟨-, hnodup⟩, -⟩, -⟩, -⟩, -⟩ := h
  exact hnodup

theorem Params.sentinel_not_mem_opcodes {p : Params} (h : p.wf = true) : sentinel ∉ p.opcodes := by
  simp only [Params.wf, Bool.and_eq_true, Bool.not_eq_true', ← Bool.not_eq_true, List.contains_iff_mem] at h
  obtain ⟨⟨⟨⟨-, hsentinel⟩, -⟩, -⟩, -⟩ := h
  exact hsentinel

/-! ### Every instruction -/

/-- The number of a well-formed instruction decodes to it in its own format. -/
theorem decodeNumber_encodeNumber {p : Params} {i : Instr} (hp : p.wf = true) (hi : i.wf p = true) :
    decodeNumber p i.format (encodeNumber p i) = .ok i := by
  have hnodup := Params.opcodes_nodup hp
  have hrow {b : Byte} {f : FrameOp} (h : (b, f) ∈ opcodeRows p) : decodeNumber p .frame b.toNat = .ok (f.toInstr b) := by
    rw [decodeNumber_frame, decodeOpcode_row hnodup h]
  cases i with
  | rd reg => exact (decodeNumber_host (encodeNumber_lt p (.rd reg))).trans (by rw [decodeHost_encode_rd])
  | wr reg data => exact (decodeNumber_host (encodeNumber_lt p (.wr reg data))).trans (by rw [decodeHost_encode_wr])
  | nop | reserve | release | rearm | rxHeader | rxPayload | rxClose | txHeader | txPayload | txClose | rxUnit | txUnit
  | presession | flashPage | dispatch | reset => rfl
  | illegal code => exact (decodeNumber_command p code).trans (by rw [decodeCode_reserved (of_decide_eq_true hi)])
  | preSentinel => exact (decodeNumber_preSession p sentinel).trans (by rw [decodePre_sentinel])
  | preBootReq =>
    exact (decodeNumber_preSession p p.bootReq).trans (by rw [decodePre_bootReq (Params.bootReq_ne_sentinel hp)])
  | preOther b =>
    simp only [Instr.wf, Bool.and_eq_true, bne_iff_ne] at hi
    obtain ⟨hs, hb⟩ := hi
    exact (decodeNumber_preSession p b).trans (by rw [decodePre_other hs hb])
  | reboot => exact hrow (f := .reboot) (by simp [opcodeRows])
  | getlog => exact hrow (f := .getlog) (by simp [opcodeRows])
  | getconfig => exact hrow (f := .getconfig) (by simp [opcodeRows])
  | setconfig => exact hrow (f := .setconfig) (by simp [opcodeRows])
  | storageInfo => exact hrow (f := .storageInfo) (by simp [opcodeRows])
  | storageRead => exact hrow (f := .storageRead) (by simp [opcodeRows])
  | storageWrite => exact hrow (f := .storageWrite) (by simp [opcodeRows])
  | packet =>
    obtain ⟨op, hop⟩ := Option.isSome_iff_exists.1 hi
    have hnumber : encodeNumber p .packet = op.toNat := by rw [encodeNumber, hop, Option.getD_some]
    rw [hnumber]
    exact hrow (f := .packet) (by simp [opcodeRows, hop])
  | opSentinel =>
    exact (decodeNumber_frame p sentinel).trans
      (by rw [decodeOpcode_no_row (Params.sentinel_not_mem_opcodes hp), if_pos rfl])
  | opUnknown b =>
    simp only [Instr.wf, Bool.and_eq_true, bne_iff_ne, Bool.not_eq_true', ← Bool.not_eq_true, List.contains_iff_mem] at hi
    obtain ⟨hs, hb⟩ := hi
    exact (decodeNumber_frame p b).trans (by rw [decodeOpcode_no_row hb, if_neg hs])

/-- Settles O1: an instruction's number fits its bytes and decodes to it. -/
theorem decodeEncodeRoundTrip : Obligations.DecodeEncodeRoundTrip := fun p i rest hp hi =>
  decode_bytesOfNat rest (encodeNumber_lt_bytes p i) (decodeNumber_encodeNumber hp hi)

/-- Settles O2, one format at a time. -/
theorem decodedBitsReencode : Obligations.DecodedBitsReencode := by
  intro p hp
  refine ⟨fun w => ?_, fun w => ?_, decodePre_spec p, decodeOpcode_spec (Params.opcodes_nodup hp)⟩
  · exact ⟨wf_decodeHost p w, Machine.format_decodeHost w, encodeNumber_decodeHost p w⟩
  · have hcode : (commandCode w).toNat = w.toNat % 256 := BitVec.toNat_setWidth 8 w
    exact ⟨wf_decodeCode p _, Machine.format_decodeCode _, (Machine.encodeNumber_decodeCode p _).trans hcode⟩

/-- Settles O3: each word's fields are read off it. -/
theorem specWordsDecode : Obligations.SpecWordsDecode := by
  have hsentinel (p : Params) : decodePre p 0xFF#8 = .preSentinel := decodePre_sentinel p
  refine ⟨?_, ?_, ?_, ?_, ?_, ?_, hsentinel, ?_, ?_, ?_, ?_, ?_⟩ <;> decide

end Sys2Proof
end

