-- ==== Sys2Proof/Proofs/CommandStart.lean ====
section
/-! The statements of spec/30_encoding.md about how a command starts: the write of its code, the checks of its first step, and the
pre-session byte. -/

namespace Sys2Proof.Machine

open Sys2Proof

variable {s : State}

/-! ### The write of CMD (R87) -/

theorem exec_wr_cmd (s : State) (d : Word) : exec (.wr 0x000#12 d) s = .next (writeCmd (d.extractLsb' 0 8) s) := by
  rw [low_bits]
  rfl

/-- Settles O14, by the three branches of the write. -/
theorem cmdWriteAcceptance : Obligations.CmdWriteAcceptance := by
  intro s d
  rw [exec_wr_cmd, writeCmd]
  refine ⟨fun ha => ?_, fun ha hf hd => ?_, fun ha hn => ?_⟩
  · rw [if_pos ha]
  · rw [if_neg (by simp [ha]), if_pos ⟨hf, hd⟩]
  · rw [if_neg (by simp [ha]), if_neg hn]

/-! ### The checks of the first step (R88) -/

/-- Check 2 fails. -/
theorem firstStep_of_role_ne {r : Role} (mode : Option Mode) (body : State → State) (h : r ≠ s.ctrl.role) :
    firstStep (some r) mode body s = raise .roleMismatch s := if_neg (by simpa using h)

/-- Check 3 fails. -/
theorem firstStep_of_mode_ne {r : Role} {m : Mode} (body : State → State) (hr : s.ctrl.role = r) (hm : m ≠ s.ctrl.mode) :
    firstStep (some r) (some m) body s = raise .modeMismatch s := by
  rw [firstStep, if_pos (.inr (by rw [hr])), if_neg (by simpa using hm)]

/-- A command of any mode passes in its role. -/
theorem firstStep_of_role {r : Role} (body : State → State) (hr : s.ctrl.role = r) :
    firstStep (some r) none body s = body s := by
  rw [firstStep, if_pos (.inr (by rw [hr])), if_pos (.inl rfl)]

theorem lenTooLong_bridge (hm : s.ctrl.mode = .bridge) : lenTooLong s = decide (s.params.bufSize < s.len.toNat + 1) := by
  rw [lenTooLong, hm]

theorem lenTooLong_flash (hm : s.ctrl.mode = .flash) : lenTooLong s = false := by
  rw [lenTooLong, hm]

theorem unitCount_bridge (hm : s.ctrl.mode = .bridge) : (unitCount s).toNat = s.len.toNat := by
  rw [unitCount, hm]
  exact BitVec.toNat_setWidth_of_le (by decide)

theorem unitCount_flash (hm : s.ctrl.mode = .flash) : (unitCount s).toNat = 128 := by
  rw [unitCount, hm]
  rfl

/-- Check 5 fails: a byte of the unit was never written. -/
theorem execTxUnit_fault (hp : s.phase = .start) (hr : s.ctrl.role = .initiator) (hl : lenTooLong s = false)
    (hu : ∃ i ≤ (unitCount s).toNat, bufDef s i = false) : execTxUnit s = .fault .undefRead := by
  obtain ⟨i, hi, hundef⟩ := hu
  have hunit : unitUndefined s = true :=
    List.any_eq_true.2 ⟨i, List.mem_range.2 (Nat.lt_succ_of_le hi), by rw [hundef]; rfl⟩
  rw [execTxUnit, if_pos (by simp [txUnitFaults, hp, hr, hl, hunit])]

/-- Check 4 fails in a send. -/
theorem execTxUnit_lenRange (hp : s.phase = .start) (hr : s.ctrl.role = .initiator) (hl : lenTooLong s = true) :
    execTxUnit s = .next (raise .lenRange s) := by
  rw [execTxUnit, if_neg (by simp [txUnitFaults, hl]), txUnitStep, hp]
  simp only [firstStep_of_role _ hr, hl, if_true]

/-- Check 4 fails in a receive. -/
theorem execRxUnit_lenRange (hp : s.phase = .start) (hr : s.ctrl.role = .responder) (hl : lenTooLong s = true) :
    execRxUnit s = .next (raise .lenRange s) := by
  rw [execRxUnit, hp]
  simp only [firstStep_of_role _ hr, hl, if_true]

/-- The commands of the Responder end in their first step where the role is Initiator. -/
theorem exec_responder_roleMismatch (hp : s.phase = .start) (hr : s.ctrl.role = .initiator) {i : Instr}
    (hi : i ∈ [Instr.rearm, .rxHeader, .rxPayload, .rxClose, .rxUnit, .presession, .flashPage]) :
    exec i s = .next (raise .roleMismatch s) := by
  have hne : Role.responder ≠ s.ctrl.role := by simp [hr]
  simp only [List.mem_cons, List.not_mem_nil, or_false] at hi
  rcases hi with rfl | rfl | rfl | rfl | rfl | rfl | rfl <;>
    simp only [exec, execRearm, execRxHeader, execRxPayload, execRxClose, execRxUnit, execPresession, execFlashPage, hp,
      firstStep_of_role_ne _ _ hne]

/-- The commands of the Initiator end in their first step where the role is Responder. -/
theorem exec_initiator_roleMismatch (hp : s.phase = .start) (hr : s.ctrl.role = .responder) {i : Instr}
    (hi : i ∈ [Instr.txHeader, .txPayload, .txClose, .txUnit]) : exec i s = .next (raise .roleMismatch s) := by
  have hne : Role.initiator ≠ s.ctrl.role := by simp [hr]
  have hfault : txUnitFaults s = false := by simp [txUnitFaults, hr]
  simp only [List.mem_cons, List.not_mem_nil, or_false] at hi
  rcases hi with rfl | rfl | rfl | rfl <;>
    simp [exec, execTxHeader, execTxPayload, execTxClose, execTxUnit, txUnitStep, hfault, hp, firstStep_of_role_ne _ _ hne]

/-- Settles O16: check by check, where the checks before it pass. -/
theorem firstStepChecks : Obligations.FirstStepChecks := by
  intro s hp
  refine ⟨fun c hc => ?_, fun hr _ => exec_responder_roleMismatch hp hr, fun hr _ => exec_initiator_roleMismatch hp hr,
    fun hr hm => ?_, fun hm => ?_, fun hm hlen => ?_, fun hr hm hlen hu => ?_, fun hr hm hu => ?_, fun hm hv => ?_⟩
  · rw [decodeCode_reserved hc]
    rfl
  · show execFlashPage s = _
    simp only [execFlashPage, hp, firstStep_of_mode_ne _ hr (by simp [hm] : Mode.flash ≠ s.ctrl.mode)]
  · show execDispatch s = _
    rw [execDispatch, if_neg (by simp [hm])]
  · have hl : lenTooLong s = true := by simpa [lenTooLong_bridge hm] using hlen
    exact ⟨fun hr => execRxUnit_lenRange hp hr hl, fun hr => execTxUnit_lenRange hp hr hl⟩
  · have hl : lenTooLong s = false := by simpa [lenTooLong_bridge hm] using hlen
    exact execTxUnit_fault hp hr hl (by rwa [unitCount_bridge hm])
  · exact execTxUnit_fault hp hr (lenTooLong_flash hm) (by rwa [unitCount_flash hm])
  · show execDispatch s = _
    rw [execDispatch, if_pos hm, if_neg (by simp [hv])]

/-- Settles O17: both ends are the bookkeeping alone. -/
theorem nopAndIllegalEnd : Obligations.NopAndIllegalEnd := fun _ =>
  ⟨rfl, rfl, fun _ hc => ⟨decodeCode_reserved hc, rfl⟩⟩

/-! ### The pre-session byte (R90, R174) -/

/-- The meaning of the byte on DATA is the instruction it decodes to. -/
theorem preByteMeaning_eq_exec (s : State) : preByteMeaning s = exec (decodePre s.params (wire s).data) s := by
  rw [preByteMeaning, decodePre]
  cases classifyPre s.params (wire s).data <;> rfl

/-- The table of R90 as its tests. -/
theorem decodePre_eq (p : Params) (b : Byte) :
    decodePre p b = if b = 0xFF then .preSentinel else if b = p.bootReq then .preBootReq else .preOther b := by
  rw [decodePre, classifyPre, apply_ite (PreByte.toInstr b), apply_ite (PreByte.toInstr b)]
  rfl

/-- A pre-session byte always ends the command. -/
theorem exec_decodePre_next (p : Params) (b : Byte) (s : State) : ∃ t, exec (decodePre p b) s = .next t := by
  rw [decodePre]
  cases classifyPre p b <;> exact ⟨_, rfl⟩

/-- The sample that completes the sustained SELECT runs the byte on DATA. -/
theorem execPresession_completes (hp : s.phase = .run)
    (hk : (if (wire s).select then s.stableCnt + 1 else 0) = s.params.selectStable) :
    execPresession s = exec (decodePre s.params (wire s).data) { s with stableCnt := s.params.selectStable } := by
  have hcount : countSelect s = { s with stableCnt := s.params.selectStable } := by rw [countSelect, hk]
  simp only [execPresession, hp, hcount, presessionSample]
  exact preByteMeaning_eq_exec _

/-- Settles O42: each byte's next state, and the completing sample by the table of R90. -/
theorem presessionByteDecides : Obligations.PresessionByteDecides := by
  intro s
  refine ⟨rfl, rfl, fun b => rfl, fun hp hk => ?_⟩
  obtain ⟨t, ht⟩ := exec_decodePre_next s.params (wire s).data { s with stableCnt := s.params.selectStable }
  refine ⟨t, (execPresession_completes hp hk).trans ht, ?_⟩
  rwa [← decodePre_eq]

end Sys2Proof.Machine
end

