-- ==== Sys2Proof/Proofs/CommandKept.lean ====
section
/-! What every agent but the Engine and power-up leaves of a running command (spec/40_transport.md R111). -/

namespace Sys2Proof.Machine

open Sys2Proof

/-- The running command of `s` stands in `t` where it stood, with the lines it drives and the buffer it works on. -/
structure CommandKept (s t : State) : Prop where
  active : t.active = s.active
  cur : t.cur = s.cur
  seq : t.seq = s.seq
  phase : t.phase = s.phase
  waitCnt : t.waitCnt = s.waitCnt
  pulseCnt : t.pulseCnt = s.pulseCnt
  idx : t.idx = s.idx
  unitN : t.unitN = s.unitN
  ctrl : t.ctrl = s.ctrl
  out : t.out = s.out
  dir : t.dir = s.dir
  result : t.result = s.result
  buf : t.buf = s.buf
  params : t.params = s.params

namespace CommandKept

variable {s u : State}

theorem refl (s : State) : CommandKept s s :=
  ⟨rfl, rfl, rfl, rfl, rfl, rfl, rfl, rfl, rfl, rfl, rfl, rfl, rfl, rfl⟩

/-- What the other agents write: the registers of the host, the latch and the edge capture, TICK, the Peer's levels, the record. -/
theorem observed (h : CommandKept s u) {peer : Levels} {overrun latch edgePend mon : Bool} {txdata ownerReq : Byte} {len : Half}
    {rdata tick : Word} {draws : Nat} {history : List Event} :
    CommandKept s { u with
      peer := peer, overrun := overrun, latch := latch, edgePend := edgePend, mon := mon, txdata := txdata
      ownerReq := ownerReq, len := len, rdata := rdata, tick := tick, draws := draws, history := history } :=
  { h with }

theorem endStep (h : CommandKept s u) (before : State) : CommandKept s (endStep before u) := by
  obtain ⟨es, e⟩ := endStep_eq before u
  rw [e]
  exact h.observed

end CommandKept

variable {s u : State}

theorem ReadOf.commandKept (h : ReadOf s u) : CommandKept s u := by
  obtain ⟨v, l, n, rfl⟩ := h
  exact (CommandKept.refl s).observed

/-- A host write that changes more than an operand or OVERRUN needs that no command is active. -/
theorem WriteOf.commandKept (h : WriteOf s u) (ha : s.active = true) : CommandKept s u := by
  have hactive : ¬s.active = false := by simp [ha]
  cases h with
  | refused => exact (CommandKept.refl s).observed
  | overrun v => exact (CommandKept.refl s).observed
  | operands txdata len ownerReq => exact (CommandKept.refl s).observed
  | accepted code hi => exact absurd hi hactive
  | ctrl d hi => exact absurd hi hactive
  | buf i b hi => exact absurd hi hactive

theorem edgeCaptureStep_commandKept (s : State) : CommandKept s (edgeCaptureStep s) := by
  unfold edgeCaptureStep
  split
  · exact (CommandKept.refl s).observed
  · exact CommandKept.refl s

theorem AgentOf.commandKept {a : Turn} (h : AgentOf a s u) (ha : s.active = true) (hengine : a ≠ .engine)
    (hpower : a ≠ .powerUp) : CommandKept s u := by
  cases h with
  | read w _ hr => exact hr.commandKept
  | write w _ hw => exact hw.commandKept ha
  | edgeCapture _ hu => exact hu ▸ edgeCaptureStep_commandKept s
  | tick _ hu => exact hu ▸ (CommandKept.refl s).observed
  | peer m _ hu => exact hu ▸ (CommandKept.refl s).observed
  | engine he => exact absurd he hengine
  | resetCommand he => exact absurd he hengine
  | idle he => exact absurd he hengine
  | powerUp hp => exact absurd hp hpower

/-- A step of any other agent leaves the running command. -/
theorem step_commandKept {t : State} (h : step s = .next t) (ha : s.active = true) (hengine : nextTurn s ≠ .engine)
    (hpower : nextTurn s ≠ .powerUp) : CommandKept s t := by
  obtain ⟨u, hu, rfl⟩ := step_cases h
  have hkept : CommandKept s u := { hu.commandKept ha hengine hpower with }
  exact hkept.endStep s

/-- Settles O53: the Host is an agent other than the Engine. -/
theorem hostCannotEndACommand : Obligations.HostCannotEndACommand := by
  intro s t w hturn ha hstep
  have hkept := step_commandKept hstep ha (by simp [hturn]) (by simp [hturn])
  exact ⟨hkept.active.trans ha, hkept.cur, hkept.seq, hkept.phase, hkept.waitCnt, hkept.idx, hkept.unitN, hkept.ctrl, hkept.out,
    hkept.dir, hkept.result, hkept.buf⟩

end Sys2Proof.Machine
end

