-- ==== Sys2Proof/Proofs/Samples.lean ====
section
/-! The samples of a wait as equations, and the step each command of the transport takes in its wait. -/

namespace Sys2Proof.Machine

open Sys2Proof

variable {s : State}

/-! ### A sample (R111) -/

theorem sample_of_true {cond : Bool} (leave timeout : State → State) (h : cond = true) :
    sample cond leave timeout s = leave s := by
  rw [sample, if_pos h]

theorem sample_counts {cond : Bool} (leave timeout : State → State) (h : cond = false)
    (hw : s.waitCnt + 1 ≠ s.params.waitBudget) : sample cond leave timeout s = { s with waitCnt := s.waitCnt + 1 } := by
  rw [sample, if_neg (by simp [h]), if_neg hw]

theorem sample_timesOut {cond : Bool} (leave timeout : State → State) (h : cond = false)
    (hw : s.waitCnt + 1 = s.params.waitBudget) :
    sample cond leave timeout s = timeout { s with waitCnt := s.waitCnt + 1 } := by
  rw [sample, if_neg (by simp [h]), if_pos hw]

/-! ### An acknowledgment sample (R112) -/

theorem ackSample_polling (leave timeout : State → State) (h : latchMode s = false) :
    ackSample leave timeout s = sample (ackSeen s) leave timeout s := by
  rw [ackSample, if_neg (by simp [h])]

/-- In latch mode the latch is taken, and the level confirms it. -/
theorem ackSample_latchMode (leave timeout : State → State) (h : latchMode s = true) :
    ackSample leave timeout s = sample (s.latch && ackSeen s) leave timeout { s with latch := false } := by
  rw [ackSample, if_pos h]
  cases hl : s.latch with
  | true => rw [if_pos rfl, Bool.true_and]
  | false =>
    have htaken : s = { s with latch := false } := by rw [← hl]
    rw [if_neg Bool.false_ne_true, Bool.false_and, ← htaken]

theorem latchMode_eq_false (h : s.ctrl.useLatch = false ∨ s.owner = 0) : latchMode s = false := by
  rcases h with h | h <;> simp [latchMode, h]

theorem latchMode_eq_true (hl : s.ctrl.useLatch = true) (ho : s.owner ≠ 0) : latchMode s = true := by
  rw [latchMode, hl, Bool.true_and]
  exact bne_iff_ne.2 ho

theorem ackSeen_initiator (h : s.ctrl.role = .initiator) : ackSeen s = (s.peer.ack != s.out.valid) := by
  simp only [ackSeen, wire, h]

/-! ### The receiving commands in their waits (R116, R117, R121) -/

theorem exec_rxHeader_run (hp : s.phase = .run) :
    exec .rxHeader s = .next (sample (wire s).valid rxHeaderTake timeoutByte s) := by
  simp only [exec, execRxHeader, hp]

/-- Past its first step RX_PAYLOAD takes a sample. -/
theorem exec_rxPayload_wait (hp : s.phase ≠ .start) :
    exec .rxPayload s = .next (sample ((wire s).valid == s.out.ack) rxPayloadTake timeoutByte s) := by
  cases hph : s.phase with
  | start => exact absurd hph hp
  | drive => simp only [exec, execRxPayload, hph]
  | run => simp only [exec, execRxPayload, hph]

theorem exec_rxPayload_run (hp : s.phase = .run) :
    exec .rxPayload s = .next (sample ((wire s).valid == s.out.ack) rxPayloadTake timeoutByte s) :=
  exec_rxPayload_wait (by simp [hp])

theorem exec_rxClose_run (hp : s.phase = .run) :
    exec .rxClose s = .next (sample (!(wire s).valid) (raise .ok) timeoutByte s) := by
  simp only [exec, execRxClose, hp]

theorem exec_presession_run (hp : s.phase = .run) : exec .presession s = presessionSample (countSelect s) := by
  simp only [exec, execPresession, hp]

theorem exec_rxUnit_run (hp : s.phase = .run) : exec .rxUnit s = .next (rxUnitWaits rxUnitClosed s) := by
  simp only [exec, execRxUnit, hp]

theorem exec_flashPage_commit (hp : s.phase = .run) (hseq : s.seq = .commit) : exec .flashPage s = .next (commitStep s) := by
  simp only [exec, execFlashPage, hp, hseq, if_true]

theorem exec_flashPage_wait (hp : s.phase = .run) (hseq : s.seq ≠ .commit) :
    exec .flashPage s = .next (rxUnitWaits flashPageClosed s) := by
  simp only [exec, execFlashPage, hp, if_neg hseq]

/-! ### The sending commands (R118, R119, R164) -/

/-- TX_HEADER is acknowledged. -/
def txHeaderAck (s : State) : State := raise .ok { s with pol := false }

/-- TX_PAYLOAD is acknowledged. -/
def txPayloadAck (s : State) : State := raise .ok { s with pol := !s.out.valid }

theorem exec_txHeader_drive (hp : s.phase = .drive) : exec .txHeader s = .next (enterWait .hdrWait (driveValid true s)) := by
  simp only [exec, execTxHeader, hp]

theorem exec_txHeader_run (hp : s.phase = .run) : exec .txHeader s = .next (ackSample txHeaderAck timeoutByte s) := by
  simp only [exec, execTxHeader, hp]
  rfl

theorem exec_txPayload_drive (hp : s.phase = .drive) :
    exec .txPayload s = .next (enterWait .payWait (driveValid (!s.out.valid) s)) := by
  simp only [exec, execTxPayload, hp]

theorem exec_txPayload_run (hp : s.phase = .run) : exec .txPayload s = .next (ackSample txPayloadAck timeoutByte s) := by
  simp only [exec, execTxPayload, hp]
  rfl

/-- Past its first step a send of a unit does not fault. -/
theorem exec_txUnit_eq_step (hp : s.phase ≠ .start) : exec .txUnit s = .next (txUnitStep s) :=
  if_neg (by simp [txUnitFaults, hp])

theorem exec_txUnit_drive_header (hp : s.phase = .drive) (hseq : s.seq = .hdrWait) :
    exec .txUnit s = .next (enterWait .hdrWait (driveValid true s)) := by
  rw [exec_txUnit_eq_step (by simp [hp])]
  simp only [txUnitStep, hp, hseq]

theorem exec_txUnit_drive_payload (hp : s.phase = .drive) (hseq : s.seq = .payWait) :
    exec .txUnit s = .next (enterWait .payWait (driveValid (!s.out.valid) s)) := by
  rw [exec_txUnit_eq_step (by simp [hp])]
  simp only [txUnitStep, hp, hseq]

theorem exec_txUnit_run_header (hp : s.phase = .run) (hseq : s.seq = .hdrWait) :
    exec .txUnit s = .next (ackSample txUnitHeaderAck txUnitFail s) := by
  rw [exec_txUnit_eq_step (by simp [hp])]
  simp only [txUnitStep, hp, hseq]

theorem exec_txUnit_run_payload (hp : s.phase = .run) (hseq : s.seq = .payWait) :
    exec .txUnit s = .next (ackSample txUnitPayloadAck txUnitFail s) := by
  rw [exec_txUnit_eq_step (by simp [hp])]
  simp only [txUnitStep, hp, hseq]

theorem exec_txUnit_run_elsewhere (hp : s.phase = .run) (hh : s.seq ≠ .hdrWait) (hpay : s.seq ≠ .payWait) :
    exec .txUnit s = .next s := by
  rw [exec_txUnit_eq_step (by simp [hp])]
  cases hseq : s.seq with
  | hdrWait => exact absurd hseq hh
  | payWait => exact absurd hseq hpay
  | _ => simp only [txUnitStep, hp, hseq]

end Sys2Proof.Machine
end

