-- ==== Sys2Proof/Proofs/CommandEnds.lean ====
section
/-! Every command ends (spec/40_transport.md R111, spec/70_reset_and_hazards.md R261): past its first step each Engine step ends
it or lowers `engineStepsLeft`. -/

namespace Sys2Proof.Machine

open Sys2Proof

/-! ### The bound, by the place of the command -/

variable {s u : State}

theorem engineStepsLeft_drive (hp : s.phase = .drive) :
    engineStepsLeft s = sendWaitsLeft s * (s.params.waitBudget + 1) := by
  simp only [engineStepsLeft, hp]

theorem engineStepsLeft_commit (hp : s.phase = .run) (hseq : s.seq = .commit) :
    engineStepsLeft s = s.params.readyPulse + 1 := by
  simp only [engineStepsLeft, hp, hseq]

theorem engineStepsLeft_pulse (hp : s.phase = .run) (hseq : s.seq = .pulse) :
    engineStepsLeft s = s.params.readyPulse - s.pulseCnt := by
  simp only [engineStepsLeft, hp, hseq]

/-- Neither the commit nor the pulse: in phase `run`, a wait. -/
def SeqState.IsWait (q : SeqState) : Prop := q ≠ .commit ∧ q ≠ .pulse

theorem engineStepsLeft_sendWait (hp : s.phase = .run) (hr : s.ctrl.role = .initiator) (hq : s.seq.IsWait) :
    engineStepsLeft s = sendWaitsLeft s * (s.params.waitBudget + 1) - 1 - s.waitCnt := by
  obtain ⟨hcommit, hpulse⟩ := hq
  unfold engineStepsLeft
  cases hseq : s.seq with
  | commit => exact absurd hseq hcommit
  | pulse => exact absurd hseq hpulse
  | _ => simp only [hp, hr]

theorem engineStepsLeft_receiveWait (hp : s.phase = .run) (hr : s.ctrl.role = .responder) (hq : s.seq.IsWait) :
    engineStepsLeft s = receiveWaitsLeft s * s.params.waitBudget - s.waitCnt + s.params.readyPulse + 1 := by
  obtain ⟨hcommit, hpulse⟩ := hq
  unfold engineStepsLeft
  cases hseq : s.seq with
  | commit => exact absurd hseq hcommit
  | pulse => exact absurd hseq hpulse
  | _ => simp only [hp, hr]

theorem CommandKept.engineStepsLeft_eq (h : CommandKept s u) : engineStepsLeft u = engineStepsLeft s := by
  simp only [engineStepsLeft, sendWaitsLeft, receiveWaitsLeft, h.phase, h.seq, h.cur, h.unitN, h.idx, h.params, h.pulseCnt,
    h.waitCnt, h.ctrl]

/-! ### The waits still to end -/

theorem sendWaitsLeft_header (hc : s.cur = 0x0B) (hseq : s.seq = .hdrWait) : sendWaitsLeft s = s.unitN.toNat + 1 := by
  rw [sendWaitsLeft, if_pos hc, if_neg (by simp [hseq])]

theorem sendWaitsLeft_payload (hc : s.cur = 0x0B) (hseq : s.seq = .payWait) :
    sendWaitsLeft s = s.unitN.toNat + 1 - s.idx.toNat := by
  rw [sendWaitsLeft, if_pos hc, if_pos hseq]

/-- A send always has the current wait to end. -/
theorem sendWaitsLeft_pos (h : SendPlace s) : 0 < sendWaitsLeft s := by
  rcases h with ⟨hc, -⟩ | ⟨hc, -⟩ | ⟨hc, -, -, hseq | ⟨hseq, -, hle⟩⟩
  · simp [sendWaitsLeft, hc]
  · simp [sendWaitsLeft, hc]
  · rw [sendWaitsLeft_header hc hseq]
    omega
  · rw [sendWaitsLeft_payload hc hseq]
    omega

theorem sendPlace_isWait (h : SendPlace s) : s.seq.IsWait := by
  rcases h with ⟨-, hseq⟩ | ⟨-, hseq⟩ | ⟨-, -, -, hseq | ⟨hseq, -⟩⟩ <;> simp [SeqState.IsWait, hseq]

/-- A receive of a byte, or PRESESSION, has the one wait. -/
theorem receiveWaitsLeft_single (hc : ¬(s.cur = 0x0A ∨ s.cur = 0x0D)) : receiveWaitsLeft s = 1 := by
  rw [receiveWaitsLeft, if_neg hc]

theorem receiveWaitsLeft_header (hc : s.cur = 0x0A ∨ s.cur = 0x0D) (hseq : s.seq = .hdrWait) :
    receiveWaitsLeft s = s.unitN.toNat + 2 := by
  rw [receiveWaitsLeft, if_pos hc, hseq]

theorem receiveWaitsLeft_payload (hc : s.cur = 0x0A ∨ s.cur = 0x0D) (hseq : s.seq = .payWait) :
    receiveWaitsLeft s = s.unitN.toNat + 2 - s.idx.toNat := by
  rw [receiveWaitsLeft, if_pos hc, hseq]

theorem receiveWaitsLeft_close (hc : s.cur = 0x0A ∨ s.cur = 0x0D) (hseq : s.seq = .closeWait) : receiveWaitsLeft s = 1 := by
  rw [receiveWaitsLeft, if_pos hc, hseq]

/-! ### A step that ends the command or lowers the bound -/

/-- The step from `s` to `u` ends the command, or brings it nearer to its end. -/
def EndsOrNearer (s u : State) : Prop := u.active = false ∨ engineStepsLeft u < engineStepsLeft s

/-- A failed sample of a send lowers the bound. -/
theorem countedSend_nearer (hp : s.phase = .run) (hr : s.ctrl.role = .initiator) (hs : SendPlace s)
    (hw : s.waitCnt < s.params.waitBudget) (b : Bool) :
    EndsOrNearer s { s with latch := b, waitCnt := s.waitCnt + 1 } := by
  have hq := sendPlace_isWait hs
  have hbudget : s.params.waitBudget + 1 ≤ sendWaitsLeft s * (s.params.waitBudget + 1) :=
    Nat.le_mul_of_pos_left _ (sendWaitsLeft_pos hs)
  have hcounted : engineStepsLeft { s with latch := b, waitCnt := s.waitCnt + 1 }
      = sendWaitsLeft s * (s.params.waitBudget + 1) - 1 - (s.waitCnt + 1) := engineStepsLeft_sendWait hp hr hq
  right
  rw [hcounted, engineStepsLeft_sendWait hp hr hq]
  omega

/-- A failed sample of a receive lowers the bound. -/
theorem countedReceive_nearer (hp : s.phase = .run) (hr : s.ctrl.role = .responder) (hq : s.seq.IsWait)
    (hpos : 0 < receiveWaitsLeft s) (hw : s.waitCnt < s.params.waitBudget) :
    EndsOrNearer s { s with waitCnt := s.waitCnt + 1 } := by
  have hbudget : s.params.waitBudget ≤ receiveWaitsLeft s * s.params.waitBudget := Nat.le_mul_of_pos_left _ hpos
  have hcounted : engineStepsLeft { s with waitCnt := s.waitCnt + 1 }
      = receiveWaitsLeft s * s.params.waitBudget - (s.waitCnt + 1) + s.params.readyPulse + 1 :=
    engineStepsLeft_receiveWait hp hr hq
  right
  rw [hcounted, engineStepsLeft_receiveWait hp hr hq]
  omega

/-! ### Sending -/

/-- The step that drives VALID begins the wait its place has. -/
theorem driving_enters (hp : s.phase = .drive) (hs : SendPlace s) :
    ∃ v, exec (decodeCode s.cur) s = .next (enterWait s.seq (driveValid v s)) := by
  rcases hs with ⟨hc, hseq⟩ | ⟨hc, hseq⟩ | ⟨hc, -, -, hseq | ⟨hseq, -⟩⟩ <;> rw [hc, hseq]
  · exact ⟨_, exec_txHeader_drive hp⟩
  · exact ⟨_, exec_txPayload_drive hp⟩
  · exact ⟨_, exec_txUnit_drive_header hp hseq⟩
  · exact ⟨_, exec_txUnit_drive_payload hp hseq⟩

theorem driving_nearer (hp : s.phase = .drive) (hr : s.ctrl.role = .initiator) (hs : SendPlace s) (v : Bool) :
    EndsOrNearer s (enterWait s.seq (driveValid v s)) := by
  have hbudget : 0 < sendWaitsLeft s * (s.params.waitBudget + 1) := Nat.mul_pos (sendWaitsLeft_pos hs) (Nat.succ_pos _)
  have hentered : engineStepsLeft (enterWait s.seq (driveValid v s))
      = sendWaitsLeft s * (s.params.waitBudget + 1) - 1 - 0 :=
    engineStepsLeft_sendWait (s := enterWait s.seq (driveValid v s)) rfl hr (sendPlace_isWait hs)
  right
  rw [hentered, engineStepsLeft_drive hp]
  omega

/-- A payload byte on DATA has its own wait and the waits of the bytes after it to come. -/
theorem engineStepsLeft_presentPayload (b : Byte) (hc : u.cur = 0x0B) :
    engineStepsLeft (presentData b .payWait u) = (u.unitN.toNat + 1 - u.idx.toNat) * (u.params.waitBudget + 1) := by
  have hwaits : sendWaitsLeft (presentData b .payWait u) = u.unitN.toNat + 1 - u.idx.toNat :=
    sendWaitsLeft_payload (s := presentData b .payWait u) hc rfl
  rw [engineStepsLeft_drive rfl, hwaits]
  rfl

/-- After an acknowledgment TX_UNIT has one wait less to end. -/
theorem txUnitNext_nearer {W : Nat} (hc : u.cur = 0x0B) (hw : s.waitCnt < u.params.waitBudget)
    (hs : engineStepsLeft s = W * (u.params.waitBudget + 1) - 1 - s.waitCnt)
    (hW : u.unitN.toNat + 1 - u.idx.toNat + 1 ≤ W) : EndsOrNearer s (txUnitNext u) := by
  unfold txUnitNext
  split
  · have hfewer := Nat.mul_le_mul_right (u.params.waitBudget + 1) hW
    rw [Nat.succ_mul] at hfewer
    right
    rw [engineStepsLeft_presentPayload _ hc, hs]
    omega
  · exact .inl rfl

/-- An acknowledgment wait ends the command or brings it nearer, where its acknowledgment and its timeout do. -/
theorem ackSample_endsOrNearer {leave timeout : State → State} (hp : s.phase = .run) (hr : s.ctrl.role = .initiator)
    (hs : SendPlace s) (hw : s.waitCnt < s.params.waitBudget) (hl : ∀ b, EndsOrNearer s (leave { s with latch := b }))
    (ht : ∀ v, (timeout v).active = false) : EndsOrNearer s (ackSample leave timeout s) :=
  ackSample_induct (fun b _ => hl b) (fun _ _ => .inl (ht _)) fun b _ => countedSend_nearer hp hr hs hw b

theorem sending_endsOrNearer (hp : s.phase = .run) (hr : s.ctrl.role = .initiator) (hs : SendPlace s)
    (hw : s.waitCnt < s.params.waitBudget) : Ensures (EndsOrNearer s) (exec (decodeCode s.cur) s) := by
  have hbound := engineStepsLeft_sendWait hp hr (sendPlace_isWait hs)
  rcases id hs with ⟨hc, -⟩ | ⟨hc, -⟩ | ⟨hc, hn, -, hseq | ⟨hseq, -, hle⟩⟩
  · rw [hc]
    exact (exec_txHeader_run hp).symm ▸ ackSample_endsOrNearer hp hr hs hw (fun _ => .inl rfl) fun _ => rfl
  · rw [hc]
    exact (exec_txPayload_run hp).symm ▸ ackSample_endsOrNearer hp hr hs hw (fun _ => .inl rfl) fun _ => rfl
  · have hleft := sendWaitsLeft_header hc hseq
    have hack : ∀ b, EndsOrNearer s (txUnitHeaderAck { s with latch := b }) := fun b =>
      txUnitNext_nearer (u := { s with latch := b, pol := false, idx := 1 }) hc hw hbound (by
        show s.unitN.toNat + 1 - 1 + 1 ≤ sendWaitsLeft s
        omega)
    rw [hc]
    exact (exec_txUnit_run_header hp hseq).symm ▸ ackSample_endsOrNearer hp hr hs hw hack fun _ => rfl
  · have hleft := sendWaitsLeft_payload hc hseq
    have hsucc := toNat_succ (Nat.lt_of_le_of_lt hle hn)
    have hack : ∀ b, EndsOrNearer s (txUnitPayloadAck { s with latch := b }) := fun b =>
      txUnitNext_nearer (u := { s with latch := b, pol := !s.out.valid, idx := s.idx + 1 }) hc hw hbound (by
        show s.unitN.toNat + 1 - (s.idx + 1).toNat + 1 ≤ sendWaitsLeft s
        omega)
    rw [hc]
    exact (exec_txUnit_run_payload hp hseq).symm ▸ ackSample_endsOrNearer hp hr hs hw hack fun _ => rfl

/-! ### Receiving -/

/-- A wait of a Responder ends the command or brings it nearer, where the step that leaves it and its timeout do. -/
theorem sample_endsOrNearer {cond : Bool} {leave timeout : State → State} (hp : s.phase = .run)
    (hr : s.ctrl.role = .responder) (hq : s.seq.IsWait) (hpos : 0 < receiveWaitsLeft s)
    (hw : s.waitCnt < s.params.waitBudget) (hl : EndsOrNearer s (leave s)) (ht : ∀ v, (timeout v).active = false) :
    EndsOrNearer s (sample cond leave timeout s) :=
  sample_induct (fun _ => hl) (fun _ => .inl (ht _)) fun _ => countedReceive_nearer hp hr hq hpos hw

theorem rxUnitFail_active (u : State) : (rxUnitFail u).active = false := by
  unfold rxUnitFail
  split <;> rfl

/-- After a byte a receive of a unit has one wait less to end. -/
theorem rxUnitNext_nearer {W : Nat} (hr : u.ctrl.role = .responder) (hc : u.cur = 0x0A ∨ u.cur = 0x0D)
    (hw : s.waitCnt < u.params.waitBudget)
    (hs : engineStepsLeft s = W * u.params.waitBudget - s.waitCnt + u.params.readyPulse + 1)
    (hpay : u.unitN.toNat + 2 - u.idx.toNat + 1 ≤ W) (hclose : 1 + 1 ≤ W) : EndsOrNearer s (rxUnitNext u) := by
  have hfalls : ∀ {q : SeqState} {n : Nat}, q.IsWait → receiveWaitsLeft (enterWait q u) = n → n + 1 ≤ W →
      EndsOrNearer s (enterWait q u) := by
    intro q n hq hn hle
    have hfewer := Nat.mul_le_mul_right u.params.waitBudget hle
    rw [Nat.succ_mul] at hfewer
    have hentered : engineStepsLeft (enterWait q u) = n * u.params.waitBudget - 0 + u.params.readyPulse + 1 :=
      hn ▸ engineStepsLeft_receiveWait (s := enterWait q u) rfl hr hq
    right
    rw [hentered, hs]
    omega
  unfold rxUnitNext
  split
  · exact hfalls ⟨by decide, by decide⟩ (receiveWaitsLeft_payload hc rfl) hpay
  · exact hfalls ⟨by decide, by decide⟩ (receiveWaitsLeft_close hc rfl) hclose

/-- The pulse ends the command, or has a step less to last. -/
theorem pulseStep_endsOrNearer (hp : s.phase = .run) (hseq : s.seq = .pulse) (hlt : s.pulseCnt < s.params.readyPulse) :
    EndsOrNearer s (pulseStep s) := by
  unfold pulseStep
  split
  · exact .inl rfl
  · have hcounted : engineStepsLeft { s with pulseCnt := s.pulseCnt + 1 } = s.params.readyPulse - (s.pulseCnt + 1) :=
      engineStepsLeft_pulse hp hseq
    right
    rw [hcounted, engineStepsLeft_pulse hp hseq]
    omega

/-- The waits of a receive, for what follows its close sample. -/
theorem rxUnitWaits_endsOrNearer {closed : State → State} (hp : s.phase = .run) (hr : s.ctrl.role = .responder)
    (hc : s.cur = 0x0A ∨ s.cur = 0x0D) (hw : s.waitCnt < s.params.waitBudget) (hplace : ReceivePlace s)
    (hcommit : s.seq ≠ .commit)
    (hclosed : s.seq = .closeWait → EndsOrNearer s (closed (deliverUnit s))) : EndsOrNearer s (rxUnitWaits closed s) := by
  obtain ⟨hn, -, ⟨hseq, -⟩ | ⟨hseq, -, h1, hle, -⟩ | ⟨hseq, -⟩ | ⟨hseq, -⟩ | ⟨hseq, hlt, -⟩⟩ := hplace
  · have hq : s.seq.IsWait := by simp [SeqState.IsWait, hseq]
    have hleft := receiveWaitsLeft_header hc hseq
    have htaken : EndsOrNearer s (rxUnitHeader s) :=
      rxUnitNext_nearer (u := { driveAck false s with buf := Cells.put 0 (wire s).data s.buf, pol := false, idx := 1 }) hr hc hw
        (engineStepsLeft_receiveWait hp hr hq) (by
          show s.unitN.toNat + 2 - 1 + 1 ≤ receiveWaitsLeft s
          omega) (by omega)
    rw [rxUnitWaits, hseq]
    exact sample_endsOrNearer hp hr hq (by omega) hw htaken rxUnitFail_active
  · have hq : s.seq.IsWait := by simp [SeqState.IsWait, hseq]
    have hleft := receiveWaitsLeft_payload hc hseq
    have hsucc := toNat_succ (Nat.lt_of_le_of_lt hle hn)
    have htaken : EndsOrNearer s (rxUnitPayload s) :=
      rxUnitNext_nearer (u := { driveAck (!s.out.ack) s with
        buf := Cells.put s.idx.toNat (wire s).data s.buf, pol := !s.out.ack, idx := s.idx + 1 }) hr hc hw
        (engineStepsLeft_receiveWait hp hr hq) (by
          show s.unitN.toNat + 2 - (s.idx + 1).toNat + 1 ≤ receiveWaitsLeft s
          omega) (by omega)
    rw [rxUnitWaits, hseq]
    exact sample_endsOrNearer hp hr hq (by omega) hw htaken rxUnitFail_active
  · have hq : s.seq.IsWait := by simp [SeqState.IsWait, hseq]
    have hleft := receiveWaitsLeft_close hc hseq
    rw [rxUnitWaits, hseq]
    exact sample_endsOrNearer hp hr hq (by omega) hw (hclosed hseq) rxUnitFail_active
  · exact absurd hseq hcommit
  · rw [rxUnitWaits, hseq]
    exact pulseStep_endsOrNearer hp hseq hlt

/-- The last wait of a receive leaves more steps than the commit and the pulse take. -/
theorem engineStepsLeft_close (hp : s.phase = .run) (hr : s.ctrl.role = .responder) (hc : s.cur = 0x0A ∨ s.cur = 0x0D)
    (hw : s.waitCnt < s.params.waitBudget) (hseq : s.seq = .closeWait) : s.params.readyPulse + 1 < engineStepsLeft s := by
  rw [engineStepsLeft_receiveWait hp hr (by simp [SeqState.IsWait, hseq]), receiveWaitsLeft_close hc hseq]
  omega

/-- The pulse begins with READY_PULSE steps left (R165). -/
theorem engineStepsLeft_startPulse (u : State) : engineStepsLeft (startPulse u) = u.params.readyPulse :=
  engineStepsLeft_pulse (s := startPulse u) rfl rfl

theorem rxUnit_endsOrNearer (hp : s.phase = .run) (hr : s.ctrl.role = .responder) (hc : s.cur = 0x0A)
    (hw : s.waitCnt < s.params.waitBudget) (hplace : ReceivePlace s) : EndsOrNearer s (rxUnitWaits rxUnitClosed s) := by
  have hcommit : s.seq ≠ .commit := by
    intro hseq
    simp [ReceivePlace, hseq, hc] at hplace
  refine rxUnitWaits_endsOrNearer hp hr (.inl hc) hw hplace hcommit fun hseq => ?_
  have hlast := engineStepsLeft_close hp hr (.inl hc) hw hseq
  unfold rxUnitClosed
  split
  · refine .inr ?_
    have hpulse : engineStepsLeft (startPulse (deliverUnit s)) = s.params.readyPulse := engineStepsLeft_startPulse _
    omega
  · exact .inl rfl

/-- The commit ends the command or begins the pulse. -/
theorem commitStep_endsOrNearer (hp : s.phase = .run) (hseq : s.seq = .commit) : EndsOrNearer s (commitStep s) := by
  rcases commitStep_cases s with e | ⟨m, e⟩ | ⟨m, e⟩ <;> rw [e]
  · exact .inl rfl
  · right
    rw [engineStepsLeft_startPulse, engineStepsLeft_commit hp hseq]
    exact Nat.lt_succ_self _
  · exact .inl rfl

theorem flashPage_endsOrNearer (hp : s.phase = .run) (hr : s.ctrl.role = .responder) (hc : s.cur = 0x0D)
    (hw : s.waitCnt < s.params.waitBudget) (hplace : ReceivePlace s) : Ensures (EndsOrNearer s) (exec .flashPage s) := by
  by_cases hseq : s.seq = .commit
  · exact (exec_flashPage_commit hp hseq).symm ▸ commitStep_endsOrNearer hp hseq
  · refine (exec_flashPage_wait hp hseq).symm ▸ rxUnitWaits_endsOrNearer hp hr (.inr hc) hw hplace hseq fun hclose => ?_
    have hcommit : engineStepsLeft (flashPageClosed (deliverUnit s)) = s.params.readyPulse + 1 :=
      engineStepsLeft_commit (s := flashPageClosed (deliverUnit s)) hp rfl
    exact .inr (hcommit ▸ engineStepsLeft_close hp hr (.inr hc) hw hclose)

theorem preByteMeaning_ends (u : State) : Ensures (fun t => t.active = false) (preByteMeaning u) := by
  unfold preByteMeaning
  split <;> rfl

theorem presession_endsOrNearer (hp : s.phase = .run) (hr : s.ctrl.role = .responder) (hc : s.cur = 0x0C)
    (hseq : s.seq = .preWait) (hw : s.waitCnt < s.params.waitBudget) :
    Ensures (EndsOrNearer s) (presessionSample (countSelect s)) := by
  have hq : s.seq.IsWait := by simp [SeqState.IsWait, hseq]
  have hpos : 0 < receiveWaitsLeft s := by rw [receiveWaitsLeft_single (by simp [hc])]; exact Nat.one_pos
  unfold presessionSample
  split
  · exact (preByteMeaning_ends _).imp fun _ => .inl
  · refine sample_induct (P := EndsOrNearer s) (fun hcond => by cases hcond) (fun _ => .inl rfl) fun _ => ?_
    exact countedReceive_nearer (s := countSelect s) hp hr hq hpos hw

theorem receiving_endsOrNearer (hp : s.phase = .run) (hr : s.ctrl.role = .responder) (hs : ResponderPlace s)
    (hw : s.waitCnt < s.params.waitBudget) : Ensures (EndsOrNearer s) (exec (decodeCode s.cur) s) := by
  have hbyte : ∀ {cond : Bool} {leave : State → State}, ¬(s.cur = 0x0A ∨ s.cur = 0x0D) → s.seq.IsWait →
      (leave s).active = false → EndsOrNearer s (sample cond leave timeoutByte s) := fun hc hq hl =>
    sample_endsOrNearer hp hr hq (by rw [receiveWaitsLeft_single hc]; exact Nat.one_pos) hw (.inl hl) fun _ => rfl
  rcases hs with ⟨hc, hseq⟩ | ⟨hc, hseq⟩ | ⟨hc, hseq⟩ | ⟨hc, hseq, -⟩ | ⟨hc | hc, hplace⟩ <;> rw [hc]
  · exact (exec_rxHeader_run hp).symm ▸ hbyte (by simp [hc]) (by simp [SeqState.IsWait, hseq]) rfl
  · exact (exec_rxPayload_run hp).symm ▸ hbyte (by simp [hc]) (by simp [SeqState.IsWait, hseq]) rfl
  · exact (exec_rxClose_run hp).symm ▸ hbyte (by simp [hc]) (by simp [SeqState.IsWait, hseq]) rfl
  · exact (exec_presession_run hp).symm ▸ presession_endsOrNearer hp hr hc hseq hw
  · exact (exec_rxUnit_run hp).symm ▸ rxUnit_endsOrNearer hp hr hc hw hplace
  · exact flashPage_endsOrNearer hp hr hc hw hplace

/-! ### Every step -/

/-- Past its first step a command's Engine step ends it or brings it nearer: by its place in the invariant. -/
theorem exec_endsOrNearer (h : s.SeqLegal) (ha : s.active = true) (hp : s.phase ≠ .start) :
    Ensures (EndsOrNearer s) (exec (decodeCode s.cur) s) := by
  cases hph : s.phase with
  | start => exact absurd hph hp
  | drive =>
    obtain ⟨hr, hs⟩ := h.driving ha hph
    obtain ⟨v, e⟩ := driving_enters hph hs
    exact e.symm ▸ driving_nearer hph hr hs v
  | run =>
    obtain ⟨hw, ⟨hr, hs⟩ | ⟨hr, hs⟩⟩ := h.running ha hph
    · exact sending_endsOrNearer hph hr hs hw
    · exact receiving_endsOrNearer hph hr hs hw

theorem engineStepsLeft_endStep (before u : State) : engineStepsLeft (endStep before u) = engineStepsLeft u :=
  ((CommandKept.refl u).endStep before).engineStepsLeft_eq

/-- Settles O59: the Engine's step by the places of the invariant, the other agents' because they leave the running command. -/
theorem everyCommandEnds : Obligations.EveryCommandEnds := by
  intro s t h ha hp hstep
  refine ⟨fun hturn => ?_, fun hengine hpower => ?_⟩
  · obtain ⟨u, hu, rfl⟩ := step_next hstep
    rw [hturn, agentStep_engine_active (s := takeTurn s) ha] at hu
    have hends : EndsOrNearer (takeTurn s) u := (exec_endsOrNearer (s := takeTurn s) h ha hp).of_eq hu
    rw [endStep_active, engineStepsLeft_endStep]
    exact hends
  · have hkept := step_commandKept hstep ha hengine hpower
    exact ⟨hkept.active.trans ha, hkept.engineStepsLeft_eq⟩

end Sys2Proof.Machine
end

