-- ==== Sys2Proof/Proofs/Transport.lean ====
section
/-! The statements of spec/40_transport.md about the single-byte commands, step by step, and about the acknowledgment wait in
its two modes (R112). -/

namespace Sys2Proof.Machine

open Sys2Proof

variable {s : State}

/-! ### The commands that wait for nothing (R115, R120) -/

/-- Settles O18. -/
theorem rearmArmsTheLink : Obligations.RearmArmsTheLink := by
  intro s
  refine ⟨fun hr => ?_, fun hr => ?_⟩
  · exact congrArg _ (firstStep_of_role _ hr)
  · exact congrArg _ (firstStep_of_role_ne _ _ (by simp [hr]))

/-- Settles O24. -/
theorem txCloseDropsValid : Obligations.TxCloseDropsValid := by
  intro s
  refine ⟨fun hr => ?_, fun hr => ?_⟩
  · exact congrArg _ (firstStep_of_role _ hr)
  · exact congrArg _ (firstStep_of_role_ne _ _ (by simp [hr]))

/-! ### The wait of a single-byte command (R111, R113) -/

/-- The three outcomes of a sample of a single-byte command. -/
theorem byteSample_outcomes {i : Instr} {u : State} {cond : Bool} {leave : State → State}
    (h : exec i s = .next (sample cond leave timeoutByte u)) :
    (cond = true → exec i s = .next (leave u))
      ∧ (cond = false → u.waitCnt + 1 ≠ u.params.waitBudget → exec i s = .next { u with waitCnt := u.waitCnt + 1 })
      ∧ (cond = false → u.waitCnt + 1 = u.params.waitBudget → exec i s = .next (raise .handshakeTimeout u)) := by
  refine ⟨fun hc => ?_, fun hc hw => ?_, fun hc hw => ?_⟩
  · rw [h, sample_of_true _ _ hc]
  · rw [h, sample_counts _ _ hc hw]
  · rw [h, sample_timesOut _ _ hc hw]
    rfl

/-! ### Receiving a byte (R116, R117, R121) -/

theorem exec_rxHeader_start (hp : s.phase = .start) (hr : s.ctrl.role = .responder) :
    exec .rxHeader s = .next (if s.out.ack then enterWait .hdrWait s else raise .notArmed s) := by
  simp only [exec, execRxHeader, hp, firstStep_of_role _ hr]

theorem exec_rxPayload_start (hp : s.phase = .start) (hr : s.ctrl.role = .responder) :
    exec .rxPayload s = .next (enterWait .payWait s) := by
  simp only [exec, execRxPayload, hp, firstStep_of_role _ hr]

theorem exec_rxClose_start (hp : s.phase = .start) (hr : s.ctrl.role = .responder) :
    exec .rxClose s = .next (enterWait .closeWait s) := by
  simp only [exec, execRxClose, hp, firstStep_of_role _ hr]

/-- Settles O19: the first step by whether the link is armed, the wait by its three outcomes. -/
theorem rxHeaderTakesTheByte : Obligations.RxHeaderTakesTheByte := by
  intro s
  refine ⟨fun hp hr => exec_responder_roleMismatch hp hr (by decide),
    fun hr => ⟨fun hp ha => ?_, fun hp ha => ?_, fun hp hc => ?_, fun hp hc => ?_, fun hp hc => ?_⟩⟩
  · rw [exec_rxHeader_start hp hr, if_neg (by simp [ha])]
  · rw [exec_rxHeader_start hp hr, if_pos ha]
    rfl
  all_goals obtain ⟨htakes, hcounts, htimeout⟩ := byteSample_outcomes (exec_rxHeader_run hp)
  · exact htakes hc
  · exact hcounts hc
  · exact htimeout hc

/-- Settles O20: the wait is for the pending link (R110). -/
theorem rxPayloadTogglesAck : Obligations.RxPayloadTogglesAck := by
  intro s
  refine ⟨fun hp hr => exec_responder_roleMismatch hp hr (by decide),
    fun hr => ⟨fun hp => exec_rxPayload_start hp hr, fun hp hc => ?_, fun hp hc => ?_, fun hp hc => ?_⟩⟩
  all_goals obtain ⟨htakes, hcounts, htimeout⟩ := byteSample_outcomes (exec_rxPayload_run hp)
  · exact htakes (beq_iff_eq.2 hc)
  · exact hcounts (beq_eq_false_iff_ne.2 hc)
  · exact htimeout (beq_eq_false_iff_ne.2 hc)

/-- Settles O21: the end drives nothing. -/
theorem rxCloseWaitsForLow : Obligations.RxCloseWaitsForLow := by
  intro s
  refine ⟨fun hp hr => exec_responder_roleMismatch hp hr (by decide),
    fun hr => ⟨fun hp => exec_rxClose_start hp hr, fun hp hc => ?_, fun hp hc => ?_, fun hp hc => ?_⟩⟩
  all_goals obtain ⟨hends, hcounts, htimeout⟩ := byteSample_outcomes (exec_rxClose_run hp)
  · exact hends (by rw [hc]; rfl)
  · exact hcounts (by rw [hc]; rfl)
  · exact htimeout (by rw [hc]; rfl)

/-- Settles O27: of the ways a step of RX_PAYLOAD goes on, only the one that takes the byte ends with OK. -/
theorem rxPayloadAlternatesPolarity : Obligations.RxPayloadAlternatesPolarity := by
  intro s t hr ha hexec hend hok
  have htaken : t = rxPayloadTake s := by
    by_cases hp : s.phase = .start
    · rw [exec_rxPayload_start hp hr] at hexec
      injection hexec with e
      rw [← e] at hend
      exact absurd (ha.symm.trans hend) (by decide)
    · rw [exec_rxPayload_wait hp] at hexec
      injection hexec with e
      rcases sample_cases ((wire s).valid == s.out.ack) rxPayloadTake timeoutByte s
        with ⟨-, ht⟩ | ⟨-, -, ht⟩ | ⟨-, -, ht⟩
      · exact e.symm.trans ht
      · rw [← e, ht] at hok
        cases hok
      · rw [← e, ht] at hend
        exact absurd (ha.symm.trans hend) (by decide)
  rw [htaken]
  exact ⟨rfl, rfl⟩

/-! ### Sending a byte (R118, R119) -/

theorem exec_txHeader_start (hp : s.phase = .start) (hr : s.ctrl.role = .initiator) :
    exec .txHeader s
      = .next (if s.out.valid then raise .notArmed s else presentData s.txdata .hdrWait { s with dir := true }) := by
  simp only [exec, execTxHeader, hp, firstStep_of_role _ hr]

theorem exec_txPayload_start (hp : s.phase = .start) (hr : s.ctrl.role = .initiator) :
    exec .txPayload s = .next (if s.dir then presentData s.txdata .payWait s else raise .notArmed s) := by
  simp only [exec, execTxPayload, hp, firstStep_of_role _ hr]

theorem ackSeen_eq_true (hr : s.ctrl.role = .initiator) (h : s.peer.ack ≠ s.out.valid) : ackSeen s = true := by
  rw [ackSeen_initiator hr]
  exact bne_iff_ne.2 h

theorem ackSeen_eq_false (hr : s.ctrl.role = .initiator) (h : s.peer.ack = s.out.valid) : ackSeen s = false := by
  rw [ackSeen_initiator hr, h]
  exact bne_self_eq_false _

/-- The polling wait of a send of a byte, by the level of ACK. -/
theorem pollingByte_outcomes {i : Instr} {leave : State → State} (hr : s.ctrl.role = .initiator)
    (hpoll : s.ctrl.useLatch = false ∨ s.owner = 0) (h : exec i s = .next (ackSample leave timeoutByte s)) :
    (s.peer.ack ≠ s.out.valid → exec i s = .next (leave s))
      ∧ (s.peer.ack = s.out.valid → s.waitCnt + 1 ≠ s.params.waitBudget →
        exec i s = .next { s with waitCnt := s.waitCnt + 1 })
      ∧ (s.peer.ack = s.out.valid → s.waitCnt + 1 = s.params.waitBudget →
        exec i s = .next (raise .handshakeTimeout s)) := by
  rw [ackSample_polling _ _ (latchMode_eq_false hpoll)] at h
  obtain ⟨hends, hcounts, htimeout⟩ := byteSample_outcomes h
  exact ⟨fun hc => hends (ackSeen_eq_true hr hc), fun hc => hcounts (ackSeen_eq_false hr hc),
    fun hc => htimeout (ackSeen_eq_false hr hc)⟩

/-- Settles O22: DATA in the first step, VALID in the second, then the polling wait. -/
theorem txHeaderRaisesValid : Obligations.TxHeaderRaisesValid := by
  intro s hr
  refine ⟨fun hp hv => ?_, fun hp hv => ?_, fun hp => exec_txHeader_drive hp, fun hp hpoll =>
    pollingByte_outcomes hr hpoll (exec_txHeader_run hp)⟩
  · rw [exec_txHeader_start hp hr, if_pos hv]
  · rw [exec_txHeader_start hp hr, if_neg (by simp [hv])]
    rfl

/-- Settles O23: DATA in the first step, VALID in the second, then the polling wait. -/
theorem txPayloadTogglesValid : Obligations.TxPayloadTogglesValid := by
  intro s hr
  refine ⟨fun hp hd => ?_, fun hp hd => ?_, fun hp => exec_txPayload_drive hp, fun hp hpoll =>
    pollingByte_outcomes hr hpoll (exec_txPayload_run hp)⟩
  · rw [exec_txPayload_start hp hr, if_neg (by simp [hd])]
  · rw [exec_txPayload_start hp hr, if_pos hd]
    rfl

/-! ### The acknowledgment wait in latch mode (R112) -/

theorem txUnitNext_of_le (h : s.idx ≤ s.unitN) : txUnitNext s = presentData (bufByte s s.idx.toNat) .payWait s := if_pos h

theorem txUnitNext_of_not_le (h : ¬s.idx ≤ s.unitN) :
    txUnitNext s = raise .ok { closeSend s with txBytes := s.txBytes + (s.unitN + 1).setWidth 32 } := if_neg h

/-- The next byte of a unit goes on DATA (R164). -/
theorem txUnitNext_presents {b : Byte} (hle : s.idx.toNat ≤ s.unitN.toNat) (hb : Cells.find s.idx.toNat s.buf = some b) :
    txUnitNext s = { s with out := { s.out with data := b }, seq := .payWait, phase := .drive } := by
  have hbyte : bufByte s s.idx.toNat = b := by rw [bufByte, hb, Option.getD_some]
  rw [txUnitNext_of_le (BitVec.le_def.2 hle), hbyte]
  rfl

/-- Past the last byte of a unit the send closes (R164, R166). -/
theorem txUnitNext_closes (hlt : s.unitN.toNat < s.idx.toNat) :
    txUnitNext s = raise .ok { s with
      pol := true, out := { s.out with valid := false }, dir := false
      txBytes := s.txBytes + (s.unitN + 1).setWidth 32 } := by
  rw [txUnitNext_of_not_le fun hle => absurd (BitVec.le_def.1 hle) (Nat.not_le.2 hlt)]
  rfl

/-- Settles O25: a latch-mode sample is a sample of the state with its latch taken, for the latch and the level together. -/
theorem latchModeSample : Obligations.LatchModeSample := by
  intro s hr hp hl ho
  have hlatch : ∀ leave timeout, ackSample leave timeout s
      = sample (s.latch && ackSeen s) leave timeout { s with latch := false } := fun _ _ =>
    ackSample_latchMode _ _ (latchMode_eq_true hl ho)
  obtain ⟨hheaderEnds, hheaderCounts, hheaderTimeout⟩ :=
    byteSample_outcomes ((exec_txHeader_run hp).trans (congrArg _ (hlatch _ _)))
  obtain ⟨hpayloadEnds, hpayloadCounts, hpayloadTimeout⟩ :=
    byteSample_outcomes ((exec_txPayload_run hp).trans (congrArg _ (hlatch _ _)))
  have hunit : s.seq = .hdrWait ∨ s.seq = .payWait → ∃ leave, exec .txUnit s
      = .next (sample (s.latch && ackSeen s) leave txUnitFail { s with latch := false }) := by
    rintro (hseq | hseq)
    · exact ⟨_, (exec_txUnit_run_header hp hseq).trans (congrArg _ (hlatch _ _))⟩
    · exact ⟨_, (exec_txUnit_run_payload hp hseq).trans (congrArg _ (hlatch _ _))⟩
  refine ⟨fun hset hack => ?_, fun hfail => ?_⟩
  · have hseen : (s.latch && ackSeen s) = true := by rw [hset, ackSeen_eq_true hr hack]; rfl
    refine ⟨hheaderEnds hseen, hpayloadEnds hseen, fun k pol hplace => ?_⟩
    have hnext : exec .txUnit s = .next (txUnitNext { s with latch := false, pol := pol, idx := k }) := by
      rcases hplace with ⟨hseq, rfl, rfl⟩ | ⟨hseq, rfl, rfl⟩
      · rw [exec_txUnit_run_header hp hseq, hlatch, sample_of_true _ _ hseen]
        rfl
      · rw [exec_txUnit_run_payload hp hseq, hlatch, sample_of_true _ _ hseen]
        rfl
    rw [hnext]
    exact ⟨fun hle b hb => congrArg _ (txUnitNext_presents hle hb), fun hlt => congrArg _ (txUnitNext_closes hlt)⟩
  · have hunseen : (s.latch && ackSeen s) = false := by
      rcases hfail with hclear | hlevel
      · rw [hclear, Bool.false_and]
      · rw [ackSeen_eq_false hr hlevel, Bool.and_false]
    refine ⟨fun hw => ⟨?_, fun hseq => ?_⟩, fun hw => ⟨?_, fun hseq => ?_⟩⟩
    · simpa using ⟨hheaderCounts hunseen hw, hpayloadCounts hunseen hw⟩
    · obtain ⟨leave, e⟩ := hunit hseq
      exact e.trans (congrArg _ (sample_counts _ _ hunseen hw))
    · simpa using ⟨hheaderTimeout hunseen hw, hpayloadTimeout hunseen hw⟩
    · obtain ⟨leave, e⟩ := hunit hseq
      exact e.trans (congrArg _ (sample_timesOut _ _ hunseen hw))

/-! ### Latch mode and polling (R112, R148) -/

/-- The state as it would stand with USE_LATCH and LATCH clear. -/
def unlatched (s : State) : State := { s with ctrl := { s.ctrl with useLatch := false }, latch := false }

/-- What follows the next acknowledgment of a unit does not look at the latch. -/
theorem txUnitNext_unlatched (u : State) : txUnitNext (unlatched u) = unlatched (txUnitNext u) := by
  by_cases hle : u.idx ≤ u.unitN
  · rw [txUnitNext_of_le hle, txUnitNext_of_le (s := unlatched u) hle]
    rfl
  · rw [txUnitNext_of_not_le hle, txUnitNext_of_not_le (s := unlatched u) hle]
    rfl

/-- An acknowledgment wait: what its acknowledgment does is the same for a latch that is not used, and its timeout ends the command
with HANDSHAKE_TIMEOUT. -/
structure AckWait (leave timeout : State → State) : Prop where
  leave_unlatched : ∀ u, leave (unlatched u) = unlatched (leave u)
  timeout_active : ∀ u, (timeout u).active = false
  timeout_result : ∀ u, (timeout u).result = .handshakeTimeout

theorem txHeader_ackWait : AckWait txHeaderAck timeoutByte := ⟨fun _ => rfl, fun _ => rfl, fun _ => rfl⟩

theorem txPayload_ackWait : AckWait txPayloadAck timeoutByte := ⟨fun _ => rfl, fun _ => rfl, fun _ => rfl⟩

theorem txUnitHeader_ackWait : AckWait txUnitHeaderAck txUnitFail :=
  ⟨fun u => txUnitNext_unlatched { u with pol := false, idx := 1 }, fun _ => rfl, fun _ => rfl⟩

theorem txUnitPayload_ackWait : AckWait txUnitPayloadAck txUnitFail :=
  ⟨fun u => txUnitNext_unlatched { u with pol := !u.out.valid, idx := u.idx + 1 }, fun _ => rfl, fun _ => rfl⟩

/-- A send in phase `run` takes an acknowledgment sample, or nothing in a state its command never has (log entry 13); which, its
place in the sequencer says. -/
theorem exec_send_run {i : Instr} (hi : i ∈ [Instr.txHeader, .txPayload, .txUnit]) (q : SeqState) :
    (∃ leave timeout, AckWait leave timeout ∧
        ∀ s : State, s.phase = .run → s.seq = q → exec i s = .next (ackSample leave timeout s))
      ∨ ∀ s : State, s.phase = .run → s.seq = q → exec i s = .next s := by
  simp only [List.mem_cons, List.not_mem_nil, or_false] at hi
  rcases hi with rfl | rfl | rfl
  · exact .inl ⟨_, _, txHeader_ackWait, fun s hp _ => exec_txHeader_run hp⟩
  · exact .inl ⟨_, _, txPayload_ackWait, fun s hp _ => exec_txPayload_run hp⟩
  · by_cases hheader : q = .hdrWait
    · exact .inl ⟨_, _, txUnitHeader_ackWait, fun s hp hq => exec_txUnit_run_header hp (hq.trans hheader)⟩
    · by_cases hpayload : q = .payWait
      · exact .inl ⟨_, _, txUnitPayload_ackWait, fun s hp hq => exec_txUnit_run_payload hp (hq.trans hpayload)⟩
      · exact .inr fun s hp hq => exec_txUnit_run_elsewhere hp (hq ▸ hheader) (hq ▸ hpayload)

/-- A latch-mode sample that leaves its wait by an acknowledgment saw the level a polling sample ends at. -/
theorem ackSample_unlatched {leave timeout : State → State} (hwait : AckWait leave timeout) (hp : s.phase = .run)
    (hlatch : latchMode s = true) (hleft : (ackSample leave timeout s).phase ≠ .run)
    (hend : (ackSample leave timeout s).active = true ∨ (ackSample leave timeout s).result ≠ .handshakeTimeout) :
    ackSample leave timeout (unlatched s) = unlatched (ackSample leave timeout s) := by
  rw [ackSample_latchMode _ _ hlatch] at hleft hend ⊢
  rcases sample_cases (s.latch && ackSeen s) leave timeout { s with latch := false }
    with ⟨hc, e⟩ | ⟨-, -, e⟩ | ⟨-, -, e⟩
  · obtain ⟨-, hseen⟩ := (Bool.and_eq_true_iff).1 hc
    have hpolls : latchMode (unlatched s) = false := rfl
    have hlevel : ackSeen (unlatched s) = true := hseen
    rw [e, ackSample_polling _ _ hpolls, sample_of_true _ _ hlevel]
    exact hwait.leave_unlatched { s with latch := false }
  · rw [e] at hend
    rcases hend with hactive | hresult
    · rw [hwait.timeout_active] at hactive; cases hactive
    · exact absurd (hwait.timeout_result _) hresult
  · rw [e] at hleft
    exact absurd hp hleft

/-- Settles O26: every send takes its sample of the same wait in both modes. -/
theorem latchModeEndsWherePollingWould : Obligations.LatchModeEndsWherePollingWould := by
  intro s t hp _ hl ho i hi hexec hleft hend
  show exec i (unlatched s) = .next (unlatched t)
  rcases exec_send_run hi s.seq with ⟨leave, timeout, hwait, hrun⟩ | hrun
  · rw [hrun s hp rfl] at hexec
    injection hexec with e
    subst e
    rw [hrun (unlatched s) hp rfl, ackSample_unlatched hwait hp (latchMode_eq_true hl ho) hleft hend]
  · rw [hrun s hp rfl] at hexec
    injection hexec with e
    exact absurd (e ▸ hp) hleft

end Sys2Proof.Machine
end

