-- ==== Sys2Proof/Proofs/EdgeCapture.lean ====
section
/-! The statements of spec/41_edge_capture.md: RESERVE and RELEASE, the EdgeCapture step, the edge detection that ends every step, and
what each instruction and each agent does to LATCH. -/

namespace Sys2Proof.Machine

open Sys2Proof

variable {s t u : State}

/-! ### RESERVE and RELEASE (R140, R142) -/

theorem execReserve_of_owned (hreq : s.ownerReq ≠ 0) (hown : s.owner ≠ 0) :
    execReserve s = .next (raise .reserveConflict { s with conflict := s.owner }) := by
  rw [execReserve, if_neg hreq, if_pos hown]

theorem execReserve_of_free (hreq : s.ownerReq ≠ 0) (hown : s.owner = 0) :
    execReserve s = .next (if s.params.reserveAlwaysAllocates then reserveWith true s
      else reserveWith (Config.allocOk s.draws) { s with draws := s.draws + 1 }) := by
  rw [execReserve, if_neg hreq, if_neg (not_not.2 hown)]

/-- Settles O28, by the checks in R140's order. -/
theorem reserveTakesOwnership : Obligations.ReserveTakesOwnership := by
  intro s
  refine ⟨fun hreq => ?_, execReserve_of_owned, fun hreq hown halways => ?_, fun hreq hown hdraw => ?_⟩
  · exact congrArg _ (if_pos hreq)
  · refine (execReserve_of_free hreq hown).trans ?_
    rw [if_pos halways]
    rfl
  · refine (execReserve_of_free hreq hown).trans ?_
    rw [if_neg (by simp [hdraw])]
    rfl

/-- Settles O29, by whether the requester owns the source. -/
theorem releaseFreesTheSource : Obligations.ReleaseFreesTheSource := fun _ =>
  ⟨fun hother => congrArg _ (if_pos hother),
    fun howned hsame => congrArg _ (if_neg (not_or.2 ⟨howned, not_not.2 hsame⟩))⟩

/-! ### The EdgeCapture step (R143) -/

theorem edgeCaptureStep_of_edge (h : s.edgePend = true) : edgeCaptureStep s = { s with latch := true, edgePend := false } :=
  if_pos h

theorem edgeCaptureStep_of_no_edge (h : s.edgePend = false) : edgeCaptureStep s = s :=
  if_neg (by simp [h])

/-- Settles O30. -/
theorem edgeCaptureSetsTheLatch : Obligations.EdgeCaptureSetsTheLatch := fun _ =>
  ⟨fun h => congrArg _ (edgeCaptureStep_of_edge h), fun h => congrArg _ (edgeCaptureStep_of_no_edge h)⟩

/-! ### Edge detection (R144) -/

@[simp] theorem endStep_mon (s u : State) : (endStep s u).mon = (wire u).ack := by simp [endStep]

@[simp] theorem endStep_latch (s u : State) : (endStep s u).latch = u.latch := by simp [endStep]

theorem endStep_edgePend (s u : State) :
    (endStep s u).edgePend
      = if (wire u).ack ≠ u.mon ∧ u.owner ≠ 0 ∧ u.ctrl.role = .initiator then true else u.edgePend := by
  rw [endStep, recordChanges_edgePend, detectEdge_edgePend]
  split
  · next hedge =>
    have hedge' : ((wire u).ack != u.mon && u.owner != 0 && decide (u.ctrl.role = .initiator)) = true := by
      simpa [and_assoc] using hedge
    rw [hedge', Bool.or_true]
  · next hnone =>
    have hnone' : ((wire u).ack != u.mon && u.owner != 0 && decide (u.ctrl.role = .initiator)) = false := by
      simpa [and_assoc] using hnone
    rw [hnone', Bool.or_false]

/-- Settles O31: the step ends with edge detection on what its agent left. -/
theorem edgeDetectionEndsEveryStep : Obligations.EdgeDetectionEndsEveryStep := by
  intro s t h
  obtain ⟨u, hu, rfl⟩ := step_next h
  refine ⟨u, hu, ?_, ?_, endStep_edgePend s u⟩
  · rw [endStep_mon, wire_endStep]
  · rw [wire_endStep]

/-! ### What an instruction does to LATCH (R145, R147) -/

/-- What an instruction that goes on does to LATCH: it leaves it, or clears it as one of its named readers and clearers. None sets
it. -/
inductive LatchOf (i : Instr) (s t : State) : Prop
  | kept : t.latch = s.latch → LatchOf i s t
  | read : i = .rd 0x008#12 → t.latch = false → LatchOf i s t
  | source : i ∈ [Instr.reserve, .release] → t.latch = false → LatchOf i s t
  | reset : i ∈ [Instr.reset, .reboot, .dispatch] → t.latch = false → LatchOf i s t
  | sample : i ∈ [Instr.txHeader, .txPayload, .txUnit] → s.phase = .run → latchMode s = true → t.latch = false → LatchOf i s t

/-- `t` has the latch of `s`. -/
def LatchKept (s t : State) : Prop := t.latch = s.latch

/-- An outcome that keeps the latch is in the relation for every instruction. -/
theorem LatchKept.latchOf {i : Instr} {o : Out} (h : Ensures (LatchKept s) o) : Ensures (LatchOf i s) o :=
  h.imp fun _ => .kept

theorem firstStep_latch {role : Option Role} {mode : Option Mode} {body : State → State} (hb : LatchKept s (body s)) :
    LatchKept s (firstStep role mode body s) :=
  firstStep_induct rfl rfl fun _ _ => hb

theorem sample_latch {cond : Bool} {leave timeout : State → State} (hl : LatchKept s (leave s))
    (ht : ∀ n, LatchKept s (timeout { s with waitCnt := n })) : LatchKept s (sample cond leave timeout s) :=
  sample_induct (fun _ => hl) (fun _ => ht _) fun _ => rfl

/-! ### The host's accesses -/

theorem plainReg_eq_latch {n : Nat} (h : plainReg n = .latch) : n = 8 := by
  unfold plainReg at h
  split at h <;> simp_all

/-- Only the number 0x008 names LATCH. -/
theorem hostReg_eq_latch {p : Params} {r : RegNum} (h : hostReg p r = .latch) : r = 0x008#12 := by
  unfold hostReg at h
  split at h
  · exact BitVec.eq_of_toNat_eq (plainReg_eq_latch h)
  · split at h <;> cases h

theorem readBuf_latch (k : Nat) : Ensures (LatchKept s) (readBuf k s) := by
  unfold readBuf
  split
  · trivial
  · split
    · rfl
    · trivial

theorem execRd_latch (r : RegNum) : Ensures (LatchOf (.rd r) s) (execRd r s) := by
  unfold execRd
  cases hr : hostReg s.params r with
  | latch => exact .read (by rw [hostReg_eq_latch hr]) rfl
  | buf k => exact LatchKept.latchOf (readBuf_latch k)
  | _ => exact .kept rfl

theorem WriteOf.latch (h : WriteOf s t) : LatchKept s t := by
  cases h with
  | ctrl d ha => rw [writeCtrl_of_inactive d ha]; rfl
  | _ => rfl

/-! ### The source and the dispatcher -/

theorem reserveWith_latch (ok : Bool) (h : LatchKept s u) : LatchOf .reserve s (reserveWith ok u) := by
  unfold reserveWith
  split
  · exact .source (by decide) rfl
  · exact .kept h

theorem execReserve_latch : Ensures (LatchOf .reserve s) (execReserve s) := by
  simp only [execReserve, ensures_next]
  split
  · exact .kept rfl
  · split
    · exact .kept rfl
    · split
      · exact reserveWith_latch _ rfl
      · exact reserveWith_latch _ rfl

theorem execRelease_latch : Ensures (LatchOf .release s) (execRelease s) := by
  simp only [execRelease, ensures_next]
  split
  · exact .kept rfl
  · exact .source (by decide) rfl

theorem execPacket_latch : Ensures (LatchKept s) (execPacket s) := by
  simp only [execPacket, ensures_next]
  split <;> rfl

/-- Of the handlers only REBOOT, which resets the block, writes the latch. -/
theorem execDispatch_latch : Ensures (LatchOf .dispatch s) (execDispatch s) := by
  have hframe : ∀ u, LatchKept s u → Ensures (LatchOf .dispatch s) (dispatchFrame u) := by
    intro u hu
    unfold dispatchFrame
    split
    · exact .reset (by decide) rfl
    iterate 6 exact .kept hu
    · exact execPacket_latch.imp fun _ ht => .kept (ht.trans hu)
    · exact .kept hu
    · exact .kept hu
  unfold execDispatch
  split
  · split
    · exact hframe _ rfl
    · exact .kept rfl
  · exact .kept rfl

/-! ### Receiving -/

theorem execRearm_latch : Ensures (LatchKept s) (execRearm s) := firstStep_latch rfl

theorem execRxHeader_latch : Ensures (LatchKept s) (execRxHeader s) := by
  have hsample : LatchKept s (sample (wire s).valid rxHeaderTake timeoutByte s) := sample_latch rfl fun _ => rfl
  simp only [execRxHeader, ensures_next]
  cases s.phase with
  | start =>
    refine firstStep_latch ?_
    split <;> rfl
  | drive => exact hsample
  | run => exact hsample

theorem execRxPayload_latch : Ensures (LatchKept s) (execRxPayload s) := by
  have hsample : LatchKept s (sample ((wire s).valid == s.out.ack) rxPayloadTake timeoutByte s) := sample_latch rfl fun _ => rfl
  simp only [execRxPayload, ensures_next]
  cases s.phase with
  | start => exact firstStep_latch rfl
  | drive => exact hsample
  | run => exact hsample

theorem execRxClose_latch : Ensures (LatchKept s) (execRxClose s) := by
  have hsample : LatchKept s (sample (!(wire s).valid) (raise .ok) timeoutByte s) := sample_latch rfl fun _ => rfl
  simp only [execRxClose, ensures_next]
  cases s.phase with
  | start => exact firstStep_latch rfl
  | drive => exact hsample
  | run => exact hsample

theorem rxUnitNext_latch (h : LatchKept s u) : LatchKept s (rxUnitNext u) := by
  unfold rxUnitNext
  split <;> exact h

theorem rxUnitFail_latch (h : LatchKept s u) : LatchKept s (rxUnitFail u) := by
  unfold rxUnitFail
  split <;> exact h

theorem pulseStep_latch : LatchKept s (pulseStep s) := by
  unfold pulseStep
  split <;> rfl

theorem rxUnitClosed_latch (h : LatchKept s u) : LatchKept s (rxUnitClosed u) := by
  unfold rxUnitClosed
  split <;> exact h

theorem rxUnitWaits_latch {closed : State → State} (hc : LatchKept s (closed (deliverUnit s))) :
    LatchKept s (rxUnitWaits closed s) := by
  have hfail : ∀ n, LatchKept s (rxUnitFail { s with waitCnt := n }) := fun _ => rxUnitFail_latch rfl
  unfold rxUnitWaits
  split
  · exact sample_latch (rxUnitNext_latch rfl) hfail
  · exact sample_latch (rxUnitNext_latch rfl) hfail
  · exact sample_latch hc hfail
  · exact pulseStep_latch
  all_goals rfl

theorem execRxUnit_latch : Ensures (LatchKept s) (execRxUnit s) := by
  have hwaits := rxUnitWaits_latch (s := s) (closed := rxUnitClosed) (rxUnitClosed_latch rfl)
  simp only [execRxUnit, ensures_next]
  cases s.phase with
  | start =>
    refine firstStep_latch ?_
    split <;> rfl
  | drive => exact hwaits
  | run => exact hwaits

theorem commitStep_latch : LatchKept s (commitStep s) := by
  unfold commitStep
  split
  · rfl
  · unfold commitWith
    split <;> rfl

theorem execFlashPage_latch : Ensures (LatchKept s) (execFlashPage s) := by
  have hrun : LatchKept s (if s.seq = .commit then commitStep s else rxUnitWaits flashPageClosed s) := by
    split
    · exact commitStep_latch
    · exact rxUnitWaits_latch rfl
  simp only [execFlashPage, ensures_next]
  cases s.phase with
  | start => exact firstStep_latch rfl
  | drive => exact hrun
  | run => exact hrun

theorem preByteMeaning_latch (h : LatchKept s u) : Ensures (LatchKept s) (preByteMeaning u) := by
  unfold preByteMeaning
  split <;> exact h

theorem execPresession_latch : Ensures (LatchKept s) (execPresession s) := by
  have hrun : Ensures (LatchKept s) (presessionSample (countSelect s)) := by
    unfold presessionSample
    split
    · exact preByteMeaning_latch rfl
    · exact sample_latch rfl fun _ => rfl
  unfold execPresession
  cases s.phase with
  | start => exact firstStep_latch rfl
  | drive => exact hrun
  | run => exact hrun

/-! ### Sending -/

/-- An acknowledgment sample takes the latch in latch mode, and in polling leaves it (R112). -/
theorem ackSample_latch {i : Instr} {leave timeout : State → State} (hi : i ∈ [Instr.txHeader, .txPayload, .txUnit])
    (hp : s.phase = .run) (hl : ∀ u, LatchKept u (leave u)) (ht : ∀ u, LatchKept u (timeout u)) :
    LatchOf i s (ackSample leave timeout s) := by
  have hsample : ∀ cond u, LatchKept u (sample cond leave timeout u) := fun _ u =>
    sample_latch (hl u) fun _ => ht _
  cases hmode : latchMode s with
  | false =>
    rw [ackSample_polling _ _ hmode]
    exact .kept (hsample _ s)
  | true =>
    rw [ackSample_latchMode _ _ hmode]
    exact .sample hi hp hmode (hsample _ { s with latch := false })

theorem execTxHeader_latch : Ensures (LatchOf .txHeader s) (exec .txHeader s) := by
  cases hp : s.phase with
  | start =>
    simp only [exec, execTxHeader, hp, ensures_next]
    refine .kept (firstStep_latch ?_)
    split <;> rfl
  | drive => rw [exec_txHeader_drive hp]; exact .kept rfl
  | run => rw [exec_txHeader_run hp]; exact ackSample_latch (by decide) hp (fun _ => rfl) fun _ => rfl

theorem execTxPayload_latch : Ensures (LatchOf .txPayload s) (exec .txPayload s) := by
  cases hp : s.phase with
  | start =>
    simp only [exec, execTxPayload, hp, ensures_next]
    refine .kept (firstStep_latch ?_)
    split <;> rfl
  | drive => rw [exec_txPayload_drive hp]; exact .kept rfl
  | run => rw [exec_txPayload_run hp]; exact ackSample_latch (by decide) hp (fun _ => rfl) fun _ => rfl

theorem txUnitStart_latch : LatchKept s (txUnitStart s) := by
  unfold txUnitStart
  split <;> rfl

theorem txUnitNext_latch (h : LatchKept s u) : LatchKept s (txUnitNext u) := by
  unfold txUnitNext
  split <;> exact h

theorem txUnitStep_latch : LatchOf .txUnit s (txUnitStep s) := by
  unfold txUnitStep
  split
  · refine .kept (firstStep_latch ?_)
    split
    · rfl
    · exact txUnitStart_latch
  · split <;> exact .kept rfl
  · next hp =>
    have hack {leave : State → State} (hl : ∀ u, LatchKept u (leave u)) : LatchOf .txUnit s (ackSample leave txUnitFail s) :=
      ackSample_latch (by decide) hp hl fun _ => rfl
    split
    · exact hack fun _ => txUnitNext_latch rfl
    · exact hack fun _ => txUnitNext_latch rfl
    all_goals exact .kept rfl

theorem execTxUnit_latch : Ensures (LatchOf .txUnit s) (execTxUnit s) := by
  unfold execTxUnit
  split
  · trivial
  · exact txUnitStep_latch

/-! ### Every instruction -/

theorem exec_latch (i : Instr) : Ensures (LatchOf i s) (exec i s) := by
  cases i with
  | rd r => exact execRd_latch r
  | wr r d => exact execWr_writeOf.imp fun _ hw => .kept hw.latch
  | reserve => exact execReserve_latch
  | release => exact execRelease_latch
  | rearm => exact LatchKept.latchOf execRearm_latch
  | rxHeader => exact LatchKept.latchOf execRxHeader_latch
  | rxPayload => exact LatchKept.latchOf execRxPayload_latch
  | rxClose => exact LatchKept.latchOf execRxClose_latch
  | txHeader => exact execTxHeader_latch
  | txPayload => exact execTxPayload_latch
  | txClose => exact LatchKept.latchOf (o := execTxClose s) (firstStep_latch rfl)
  | rxUnit => exact LatchKept.latchOf execRxUnit_latch
  | txUnit => exact execTxUnit_latch
  | presession => exact LatchKept.latchOf execPresession_latch
  | flashPage => exact LatchKept.latchOf execFlashPage_latch
  | dispatch => exact execDispatch_latch
  | reset => exact .reset (by decide) rfl
  | reboot => exact .reset (by decide) rfl
  | packet => exact LatchKept.latchOf execPacket_latch
  | _ => exact .kept rfl

/-! ### Who writes LATCH (R145, R147) -/

/-- Who clears the latch: power-up, a host read of LATCH, the Engine in a RESERVE, a RELEASE, a reset or a latch-mode sample. -/
def ClearsLatch (a : Turn) (s : State) : Prop :=
  a = .powerUp
    ∨ (∃ w, a = .host w ∧ decodeHost w = .rd 0x008#12)
    ∨ (a = .engine ∧ s.active = true
      ∧ (decodeCode s.cur ∈ [Instr.reserve, .release, .reset, .dispatch]
        ∨ (decodeCode s.cur ∈ [Instr.txHeader, .txPayload, .txUnit] ∧ s.phase = .run ∧ s.ctrl.useLatch = true
          ∧ s.owner ≠ 0)))

theorem latchMode_iff : latchMode s = true ↔ s.ctrl.useLatch = true ∧ s.owner ≠ 0 := by
  rw [latchMode, Bool.and_eq_true, bne_iff_ne]

/-- A host transaction that changes the latch is a read of it that clears it. -/
theorem exec_host_latch {w : HostWord} (h : exec (decodeHost w) s = .next u) :
    u.latch = s.latch ∨ (u.latch = false ∧ decodeHost w = .rd 0x008#12) := by
  have hformat := format_decodeHost w
  have hcommand : ∀ l : List Instr, (∀ i ∈ l, i.format ≠ .host) → decodeHost w ∉ l := fun l hl hmem => hl _ hmem hformat
  cases (exec_latch (decodeHost w)).of_eq h with
  | kept hu => exact .inl hu
  | read hi hu => exact .inr ⟨hu, hi⟩
  | source hi => exact absurd hi (hcommand _ (by decide))
  | reset hi => exact absurd hi (hcommand _ (by decide))
  | sample hi => exact absurd hi (hcommand _ (by decide))

/-- An Engine step that changes the latch clears it, as one of its named clearers. -/
theorem exec_engine_latch (ha : s.active = true) (h : exec (decodeCode s.cur) s = .next u) :
    u.latch = s.latch ∨ (u.latch = false ∧ ClearsLatch .engine s) := by
  have hformat := format_decodeCode s.cur
  cases (exec_latch (decodeCode s.cur)).of_eq h with
  | kept hu => exact .inl hu
  | read hi _ => rw [hi] at hformat; cases hformat
  | source hi hu =>
    have hmem : decodeCode s.cur ∈ [Instr.reserve, .release, .reset, .dispatch] := by
      simp only [List.mem_cons, List.not_mem_nil, or_false] at hi ⊢
      tauto
    exact .inr ⟨hu, .inr (.inr ⟨rfl, ha, .inl hmem⟩)⟩
  | reset hi hu =>
    have hmem : decodeCode s.cur ∈ [Instr.reserve, .release, .reset, .dispatch] := by
      rcases resetCode hi with hc | hc <;> rw [hc] <;> decide
    exact .inr ⟨hu, .inr (.inr ⟨rfl, ha, .inl hmem⟩)⟩
  | sample hi hp hmode hu => exact .inr ⟨hu, .inr (.inr ⟨rfl, ha, .inr ⟨hi, hp, latchMode_iff.1 hmode⟩⟩)⟩

/-- An agent leaves the latch, clears it as one of its named clearers, or sets it in the EdgeCapture step of an edge. -/
theorem agentStep_latch {a : Turn} (h : agentStep a s = .next u) :
    u.latch = s.latch
      ∨ (u.latch = false ∧ ClearsLatch a s)
      ∨ (u.latch = true ∧ a = .edgeCapture ∧ s.edgePend = true) := by
  rcases agentStep_next h with ⟨w, rfl, hx⟩ | ⟨rfl, hact, hx⟩ | ⟨-, -, rfl⟩ | ⟨rfl, rfl⟩ | ⟨-, rfl⟩ | ⟨m, -, rfl⟩ | ⟨rfl, rfl⟩
  · exact (exec_host_latch hx).imp_right fun ⟨hu, hi⟩ => .inl ⟨hu, .inr (.inl ⟨w, rfl, hi⟩)⟩
  · exact (exec_engine_latch hact hx).imp_right .inl
  · exact .inl rfl
  · cases he : s.edgePend with
    | true => exact .inr (.inr ⟨by rw [edgeCaptureStep_of_edge he], rfl, rfl⟩)
    | false => exact .inl (by rw [edgeCaptureStep_of_no_edge he])
  · exact .inl (tickStep_latch s)
  · exact .inl (peerStep_latch m s)
  · exact .inr (.inl ⟨blockReset_latch s, .inl rfl⟩)

/-- Settles O32: taking the turn and ending the step leave the latch, so what its agent does to it is what the step does. -/
theorem latchWriters : Obligations.LatchWriters := by
  intro s t h
  obtain ⟨u, hu, rfl⟩ := step_next h
  rw [endStep_latch]
  rcases agentStep_latch hu with hkept | ⟨hcleared, hwho⟩ | ⟨hset, hturn, hedge⟩
  · rw [takeTurn_latch] at hkept
    exact ⟨fun hs ht => (by simp [hkept, hs] at ht), fun hs ht => (by simp [hkept, hs] at ht)⟩
  · exact ⟨fun _ ht => (by simp [hcleared] at ht), fun _ _ => hwho⟩
  · exact ⟨fun _ _ => ⟨hturn, hedge⟩, fun _ ht => (by simp [hset] at ht)⟩

end Sys2Proof.Machine
end

