-- ==== Sys2Proof/Proofs/Units.lean ====
section
/-! The statements of spec/42_units_sessions.md: the receive and the send of a unit, the READY pulse, the page commit, and the
wait of the session start. -/

namespace Sys2Proof.Machine

open Sys2Proof

variable {s : State}

/-! ### Written bytes and the payload count (R47, R160) -/

theorem bufByte_of_find {i : Nat} {b : Byte} (h : Cells.find i s.buf = some b) : bufByte s i = b := by
  rw [bufByte, h, Option.getD_some]

/-- A byte that is held reads as its content. -/
theorem find_of_bytesHeld {n i : Nat} (h : BytesHeld s n) (hi : i < n) : Cells.find i s.buf = some (bufByte s i) := by
  obtain ⟨b, hb⟩ := Option.isSome_iff_exists.1 (h i hi)
  rw [bufByte_of_find hb, hb]

theorem unitUndefined_of_bytesHeld (h : BytesHeld s ((unitCount s).toNat + 1)) : unitUndefined s = false := by
  simp only [unitUndefined, List.any_eq_false, List.mem_range]
  exact fun i hi => by simp [h i hi]

theorem unitCount_eq (s : State) : unitCount s = if s.ctrl.mode = .flash then 128 else s.len.setWidth 17 := by
  cases hm : s.ctrl.mode <;> simp [unitCount, hm]

theorem unitCount_toNat (s : State) : (unitCount s).toNat = if s.ctrl.mode = .flash then 128 else s.len.toNat := by
  cases hm : s.ctrl.mode with
  | flash => rw [unitCount_flash hm, if_pos rfl]
  | bridge => rw [unitCount_bridge hm, if_neg (by decide)]

/-- Check 4 passes. -/
theorem lenTooLong_eq_false (h : s.ctrl.mode = .flash ∨ s.len.toNat + 1 ≤ s.params.bufSize) : lenTooLong s = false := by
  cases hm : s.ctrl.mode with
  | flash => exact lenTooLong_flash hm
  | bridge =>
    have hle : s.len.toNat + 1 ≤ s.params.bufSize := h.resolve_left (by simp [hm])
    rw [lenTooLong_bridge hm]
    exact decide_eq_false (Nat.not_lt.2 hle)

/-! ### The waits of a receive (R161) -/

variable {closed : State → State}

theorem rxUnitWaits_header (hseq : s.seq = .hdrWait) :
    rxUnitWaits closed s = sample (wire s).valid rxUnitHeader rxUnitFail s := by
  rw [rxUnitWaits, hseq]

theorem rxUnitWaits_payload (hseq : s.seq = .payWait) :
    rxUnitWaits closed s = sample ((wire s).valid == s.out.ack) rxUnitPayload rxUnitFail s := by
  rw [rxUnitWaits, hseq]

theorem rxUnitWaits_close (hseq : s.seq = .closeWait) :
    rxUnitWaits closed s = sample (!(wire s).valid) (fun s => closed (deliverUnit s)) rxUnitFail s := by
  rw [rxUnitWaits, hseq]

theorem rxUnitWaits_pulse (hseq : s.seq = .pulse) : rxUnitWaits closed s = pulseStep s := by
  rw [rxUnitWaits, hseq]

/-- Past its first step, and but for the commit, FLASH_PAGE is in the waits of a receive as RX_UNIT is (R169). -/
theorem exec_receive_run {i : Instr} (hi : i ∈ [Instr.rxUnit, .flashPage]) (hp : s.phase = .run) (hseq : s.seq ≠ .commit) :
    ∃ closed, exec i s = .next (rxUnitWaits closed s) := by
  simp only [List.mem_cons, List.not_mem_nil, or_false] at hi
  rcases hi with rfl | rfl
  · exact ⟨_, exec_rxUnit_run hp⟩
  · exact ⟨_, exec_flashPage_wait hp hseq⟩

/-- The wait that follows a byte, by how many have been taken. -/
theorem rxUnitNext_eq (s : State) :
    rxUnitNext s = { s with
      seq := if s.idx.toNat ≤ s.unitN.toNat then .payWait else .closeWait, waitCnt := 0, phase := .run } := by
  by_cases hle : s.idx.toNat ≤ s.unitN.toNat
  · rw [rxUnitNext, if_pos (BitVec.le_def.2 hle), if_pos hle]
    rfl
  · rw [rxUnitNext, if_neg fun h => hle (BitVec.le_def.1 h), if_neg hle]
    rfl

/-- The header byte goes to BUF[0] and is acknowledged by the low level. -/
theorem receive_takesHeader {i : Instr} (h : exec i s = .next (rxUnitWaits closed s)) (hseq : s.seq = .hdrWait)
    (hv : (wire s).valid = true) :
    ∃ m, (∀ j, Cells.find j m = if j = 0 then some (wire s).data else Cells.find j s.buf)
      ∧ exec i s = .next
        { s with
          buf := m, out := { s.out with ack := false }, pol := false, idx := 1
          seq := if 1 ≤ s.unitN.toNat then .payWait else .closeWait, waitCnt := 0, phase := .run } := by
  refine ⟨_, fun j => find_put 0 j (wire s).data s.buf, ?_⟩
  rw [h, rxUnitWaits_header hseq, sample_of_true _ _ hv, rxUnitHeader, rxUnitNext_eq]
  rfl

/-- A payload byte goes to BUF[IDX] and is acknowledged by a toggle. -/
theorem receive_takesPayload {i : Instr} (h : exec i s = .next (rxUnitWaits closed s)) (hseq : s.seq = .payWait)
    (hv : (wire s).valid = s.out.ack) :
    ∃ m, (∀ j, Cells.find j m = if j = s.idx.toNat then some (wire s).data else Cells.find j s.buf)
      ∧ exec i s = .next
        { s with
          buf := m, out := { s.out with ack := !s.out.ack }, pol := !s.out.ack, idx := s.idx + 1
          seq := if (s.idx + 1).toNat ≤ s.unitN.toNat then .payWait else .closeWait, waitCnt := 0, phase := .run } := by
  refine ⟨_, fun j => find_put s.idx.toNat j (wire s).data s.buf, ?_⟩
  rw [h, rxUnitWaits_payload hseq, sample_of_true _ _ (beq_iff_eq.2 hv), rxUnitPayload, rxUnitNext_eq]
  rfl

/-- The low level of VALID closes the unit, which is delivered. -/
theorem receive_closes {i : Instr} (h : exec i s = .next (rxUnitWaits closed s)) (hseq : s.seq = .closeWait)
    (hv : (wire s).valid = false) : exec i s = .next (closed (deliverUnit s)) := by
  rw [h, rxUnitWaits_close hseq, sample_of_true _ _ (by rw [hv]; rfl)]

/-- What a delivered unit is in Bridge mode (R166). -/
theorem deliverUnit_bridge {b : Byte} (hm : s.ctrl.mode = .bridge) (hb : Cells.find s.unitN.toNat s.buf = some b) :
    deliverUnit s = { s with
      unitValid := true, unitLen := s.unitN + 1, rxdata := b, rxBytes := s.rxBytes + (s.unitN + 1).setWidth 32 } := by
  simp only [deliverUnit, bufByte_of_find hb, hm]

/-- In Flash mode a delivered unit names its page too (R166, R169). -/
theorem deliverUnit_flash {b h : Byte} (hm : s.ctrl.mode = .flash) (hb : Cells.find s.unitN.toNat s.buf = some b)
    (hh : Cells.find 0 s.buf = some h) :
    deliverUnit s = { s with
      unitValid := true, unitLen := s.unitN + 1, rxdata := b, pageIdx := h
      rxBytes := s.rxBytes + (s.unitN + 1).setWidth 32 } := by
  simp only [deliverUnit, bufByte_of_find hb, bufByte_of_find hh, hm]

/-! ### Receiving a unit -/

theorem exec_rxUnit_start (hp : s.phase = .start) (hr : s.ctrl.role = .responder) (hl : lenTooLong s = false) :
    exec .rxUnit s = .next (rxUnitStart s) := by
  simp only [exec, execRxUnit, hp, firstStep_of_role _ hr, hl, Bool.false_eq_true, if_false]

/-- Settles O33: the checks passed, each wait's condition seen, and what the mode makes of the delivered unit. -/
theorem rxUnitReceives : Obligations.RxUnitReceives := by
  intro s
  refine ⟨fun hp hr hlen => ?_, fun hp => receive_takesHeader (exec_rxUnit_run hp),
    fun hp => receive_takesPayload (exec_rxUnit_run hp), fun hp hseq hv b h hb hh => ⟨fun hm => ?_, fun hm => ?_⟩⟩
  · rw [exec_rxUnit_start hp hr (lenTooLong_eq_false hlen), rxUnitStart, unitCount_eq]
    rfl
  · rw [receive_closes (exec_rxUnit_run hp) hseq hv, deliverUnit_bridge hm hb]
    simp only [rxUnitClosed, hm, startPulse, driveReady, hp]
  · rw [receive_closes (exec_rxUnit_run hp) hseq hv, deliverUnit_flash hm hb hh]
    simp only [rxUnitClosed, hm]

/-! ### A unit that fails (R162, R167) -/

/-- The sample of the wait the receive is in does not see its condition. -/
def ReceiveSampleFails (s : State) : Prop :=
  (s.seq = .hdrWait ∧ (wire s).valid = false) ∨ (s.seq = .payWait ∧ (wire s).valid ≠ s.out.ack)
    ∨ (s.seq = .closeWait ∧ (wire s).valid = true)

theorem ReceiveSampleFails.not_commit (h : ReceiveSampleFails s) : s.seq ≠ .commit := by
  rcases h with ⟨hseq, -⟩ | ⟨hseq, -⟩ | ⟨hseq, -⟩ <;> simp [hseq]

/-- In each of the three waits a sample that fails counts or fails the unit. -/
theorem rxUnitWaits_of_sampleFails (closed : State → State) (h : ReceiveSampleFails s) :
    ∃ leave, rxUnitWaits closed s = sample false leave rxUnitFail s := by
  rcases h with ⟨hseq, hv⟩ | ⟨hseq, hv⟩ | ⟨hseq, hv⟩
  · exact ⟨_, by rw [rxUnitWaits_header hseq, hv]⟩
  · exact ⟨_, by rw [rxUnitWaits_payload hseq, beq_eq_false_iff_ne.2 hv]⟩
  · exact ⟨_, by rw [rxUnitWaits_close hseq, hv, Bool.not_true]⟩

theorem rxUnitFail_flash (hm : s.ctrl.mode = .flash) : rxUnitFail s = raiseBlink .pageReadFail (discardUnit s) := by
  rw [rxUnitFail, rxFailCode, hm]

theorem rxUnitFail_bridge (hm : s.ctrl.mode = .bridge) : rxUnitFail s = raise .handshakeTimeout (discardUnit s) := by
  rw [rxUnitFail, rxFailCode, hm]

/-- A discard leaves no byte of the unit, and every byte past it. -/
theorem find_discardUnit (s : State) (j : Nat) :
    Cells.find j (discardUnit s).buf = if j ≤ s.unitN.toNat then none else Cells.find j s.buf := by
  simp only [discardUnit, find_dropBelow, Nat.lt_succ_iff]

/-- Settles O34: in each wait the failing sample is one of a condition that is false. -/
theorem failedUnitIsDiscarded : Obligations.FailedUnitIsDiscarded := by
  intro s hp (hfails : ReceiveSampleFails s) i hi
  obtain ⟨closed, hexec⟩ := exec_receive_run hi hp hfails.not_commit
  obtain ⟨leave, hwait⟩ := rxUnitWaits_of_sampleFails closed hfails
  rw [hexec, hwait]
  refine ⟨fun hw => congrArg _ (sample_counts _ _ rfl hw), fun hw => ?_⟩
  rw [sample_timesOut _ _ rfl hw]
  exact ⟨_, find_discardUnit s, fun hm => congrArg _ (rxUnitFail_flash hm), fun hm => congrArg _ (rxUnitFail_bridge hm)⟩

/-! ### The READY pulse (R165) -/

theorem pulseStep_counts (h : s.pulseCnt + 1 ≠ s.params.readyPulse) :
    pulseStep s = { s with pulseCnt := s.pulseCnt + 1 } := if_neg h

theorem pulseStep_ends (h : s.pulseCnt + 1 = s.params.readyPulse) :
    pulseStep s = raise .ok (driveReady false { s with pulseCnt := s.pulseCnt + 1 }) := if_pos h

/-- Settles O35: both commands take the same step of the pulse. -/
theorem readyPulseEnds : Obligations.ReadyPulseEnds := by
  intro s hp hseq i hi
  obtain ⟨closed, hexec⟩ := exec_receive_run hi hp (by simp [hseq])
  rw [hexec, rxUnitWaits_pulse hseq]
  exact ⟨fun hcount => congrArg _ (pulseStep_counts hcount), fun hlast => congrArg _ (pulseStep_ends hlast)⟩

/-! ### Sending a unit (R164) -/

/-- Past the checks of R88 a send takes its own first step. -/
theorem exec_txUnit_start (hp : s.phase = .start) (hr : s.ctrl.role = .initiator) (hl : lenTooLong s = false)
    (hb : BytesHeld s ((unitCount s).toNat + 1)) : exec .txUnit s = .next (txUnitStart s) := by
  show execTxUnit s = _
  rw [execTxUnit, if_neg (by simp [txUnitFaults, unitUndefined_of_bytesHeld hb]), txUnitStep, hp]
  simp only [firstStep_of_role _ hr, hl, Bool.false_eq_true, if_false]

/-- The acknowledgment waits of a send, with what an acknowledgment does to IDX and POL. -/
theorem exec_txUnit_ackWait (hp : s.phase = .run) {k : Count} {pol : Bool}
    (hplace : (s.seq = .hdrWait ∧ k = 1 ∧ pol = false) ∨ (s.seq = .payWait ∧ k = s.idx + 1 ∧ pol = !s.out.valid)) :
    ∃ leave, exec .txUnit s = .next (ackSample leave txUnitFail s)
      ∧ leave s = txUnitNext { s with pol := pol, idx := k } := by
  rcases hplace with ⟨hseq, rfl, rfl⟩ | ⟨hseq, rfl, rfl⟩
  · exact ⟨_, exec_txUnit_run_header hp hseq, rfl⟩
  · exact ⟨_, exec_txUnit_run_payload hp hseq, rfl⟩

/-- Settles O36: the first step past its checks, the two drives, and the polling wait of the header or of a payload byte. -/
theorem txUnitSends : Obligations.TxUnitSends := by
  intro s
  refine ⟨fun hp hr hlen hheld => ?_, fun hp hseq => ?_, fun hp hseq => ?_, fun hp hr hpoll k pol hplace => ?_⟩
  · rw [exec_txUnit_start hp hr (lenTooLong_eq_false hlen) (by rwa [unitCount_toNat]), txUnitStart]
    refine ⟨fun hv => ?_, fun hv b hb => ?_⟩
    · rw [if_pos hv]
    · rw [if_neg (by simp [hv]), bufByte_of_find hb, unitCount_eq]
      rfl
  · rw [exec_txUnit_drive_header hp hseq]
    simp only [enterWait, driveValid, hseq]
  · rw [exec_txUnit_drive_payload hp hseq]
    simp only [enterWait, driveValid, hseq]
  · obtain ⟨leave, hexec, hleave⟩ := exec_txUnit_ackWait hp hplace
    rw [hexec, ackSample_polling _ _ (latchMode_eq_false hpoll)]
    refine ⟨fun hack hle b hb => ?_, fun hack hlt => ?_, fun hack hw => ?_, fun hack hw => ?_⟩
    · rw [sample_of_true _ _ (ackSeen_eq_true hr hack), hleave]
      exact congrArg _ (txUnitNext_presents hle hb)
    · rw [sample_of_true _ _ (ackSeen_eq_true hr hack), hleave]
      exact congrArg _ (txUnitNext_closes hlt)
    · rw [sample_counts _ _ (ackSeen_eq_false hr hack) hw]
    · rw [sample_timesOut _ _ (ackSeen_eq_false hr hack) hw]
      rfl

/-! ### Receiving a page (R169) -/

/-- A command of one mode passes in its role and that mode (R88). -/
theorem firstStep_of_role_mode {r : Role} {m : Mode} (body : State → State) (hr : s.ctrl.role = r) (hm : s.ctrl.mode = m) :
    firstStep (some r) (some m) body s = body s := by
  rw [firstStep, if_pos (.inr (by rw [hr])), if_pos (.inr (by rw [hm]))]

theorem exec_flashPage_start (hp : s.phase = .start) (hr : s.ctrl.role = .responder) (hm : s.ctrl.mode = .flash) :
    exec .flashPage s = .next (rxUnitStart s) := by
  simp only [exec, execFlashPage, hp, firstStep_of_role_mode _ hr hm]

/-- Settles O38: RX_UNIT's waits with the payload count of a page. -/
theorem flashPageReceives : Obligations.FlashPageReceives := by
  intro s hm
  refine ⟨fun hp hr => ?_, fun hp hseq hv hn => ?_, fun hp hseq hv hn => ?_, fun hp hseq hv hn b h hb hh => ?_⟩
  · rw [exec_flashPage_start hp hr hm, rxUnitStart, unitCount_eq, if_pos hm]
    rfl
  all_goals have hwait := exec_flashPage_wait hp (show s.seq ≠ .commit by simp [hseq])
  · obtain ⟨m, hbuf, hexec⟩ := receive_takesHeader hwait hseq hv
    exact ⟨m, hbuf, by simpa [hp, hn] using hexec⟩
  · obtain ⟨m, hbuf, hexec⟩ := receive_takesPayload hwait hseq hv
    exact ⟨m, hbuf, by simpa [hp, hn] using hexec⟩
  · rw [receive_closes hwait hseq hv, deliverUnit_flash hm (by rwa [hn]) hh, hn]
    rfl

/-! ### The page commit (R170, R172) -/

variable {page : Byte}

theorem commitStep_protected (hpage : Cells.find 0 s.buf = some page) (hprot : page ∈ s.params.protectedPages) :
    commitStep s = raiseBlink .pageProtected s := by
  rw [commitStep, bufByte_of_find hpage, if_pos (List.contains_iff_mem.2 hprot)]

theorem commitStep_unprotected (hpage : Cells.find 0 s.buf = some page) (hprot : page ∉ s.params.protectedPages) :
    commitStep s = commitWith (Config.flashOk s.draws) { s with draws := s.draws + 1 } := by
  rw [commitStep, bufByte_of_find hpage, if_neg fun h => hprot (List.contains_iff_mem.1 h)]

/-- A commit that succeeds erases the page, writes the payload over it and begins the pulse. -/
theorem commitWith_true (hpage : Cells.find 0 s.buf = some page) (hheld : BytesHeld s 129) :
    ∃ m, (∀ a, (a < page.toNat * 128 ∨ page.toNat * 128 + 128 ≤ a) → Prog.find a m = Prog.find a s.progMem)
      ∧ (∀ k, k < 128 → some (Prog.find (page.toNat * 128 + k) m) = Cells.find (1 + k) s.buf)
      ∧ commitWith true s = startPulse { s with progMem := m, draws := s.draws + 1 } := by
  refine ⟨(flashWrite page (wordsOfBytes (pagePayloadBytes s)) (flashErase page s)).progMem,
    fun a ha => ?_, fun k hk => ?_, ?_⟩
  · exact (progFind_flashWrite_outside s _ ha).trans (progFind_flashErase_outside s ha)
  · rw [find_of_bytesHeld hheld (by omega)]
    exact congrArg some (progFind_flashWrite_inside page s _ hk)
  · rw [commitWith, if_pos rfl, bufByte_of_find hpage]
    rfl

/-- A commit that fails leaves the page erased and ends in FATAL. -/
theorem commitWith_false (hpage : Cells.find 0 s.buf = some page) :
    ∃ m, (∀ a, (a < page.toNat * 128 ∨ page.toNat * 128 + 128 ≤ a) → Prog.find a m = Prog.find a s.progMem)
      ∧ (∀ k, k < 128 → Prog.find (page.toNat * 128 + k) m = Config.erasedByte s.draws k)
      ∧ commitWith false s = raiseBlink .flashFail { s with progMem := m, draws := s.draws + 1 } := by
  refine ⟨(flashErase page s).progMem, fun a ha => progFind_flashErase_outside s ha,
    fun k hk => progFind_flashErase_inside page s hk, ?_⟩
  rw [commitWith, if_neg Bool.false_ne_true, bufByte_of_find hpage]
  rfl

/-- Settles O39, by the draw `flash_ok`: the payload over an erased page, or the erase alone. -/
theorem commitWritesThePage : Obligations.CommitWritesThePage := by
  intro s page hp hseq hpage hheld
  rw [exec_flashPage_commit hp hseq]
  refine ⟨fun hprot => congrArg _ (commitStep_protected hpage hprot), fun hprot => ?_⟩
  rw [commitStep_unprotected hpage hprot]
  cases Config.flashOk s.draws with
  | true =>
    obtain ⟨m, houtside, hpayload, hcommit⟩ := commitWith_true (s := { s with draws := s.draws + 1 }) hpage hheld
    refine ⟨m, s.draws + 2, houtside, ?_⟩
    rw [if_pos rfl, hcommit]
    exact ⟨hpayload, by simp only [startPulse, driveReady, hp]⟩
  | false =>
    obtain ⟨m, houtside, herased, hcommit⟩ := commitWith_false (s := { s with draws := s.draws + 1 }) hpage
    refine ⟨m, s.draws + 2, houtside, ?_⟩
    rw [if_neg Bool.false_ne_true, hcommit]
    exact ⟨⟨s.draws + 1, herased⟩, rfl⟩

/-! ### The wait of the session start (R173, R174) -/

/-- A sample of the pre-session wait before SELECT has been sustained does not see its condition. -/
theorem presessionSample_waits (h : s.stableCnt ≠ s.params.selectStable) :
    presessionSample s = .next (sample false id presessionTimeout s) := if_neg h

/-- Settles O41: until SELECT has been sustained each sample is one of a condition that is false. -/
theorem presessionWaitsForSelect : Obligations.PresessionWaitsForSelect := by
  intro s
  refine ⟨fun hp hr => ?_, fun hp k hk hne => ?_⟩
  · simp only [exec, execPresession, hp, firstStep_of_role _ hr]
    rfl
  · have hcount : countSelect s = { s with stableCnt := k } := by rw [countSelect, hk]
    rw [exec_presession_run hp, hcount, presessionSample_waits hne]
    exact ⟨fun hw => congrArg _ (sample_counts _ _ rfl hw), fun hw => congrArg _ (sample_timesOut _ _ rfl hw)⟩

end Sys2Proof.Machine
end

