-- ==== Sys2Proof/Proofs/Dispatcher.lean ====
section
/-! The statements of spec/43_dispatcher.md: the frame router and its handlers. -/

namespace Sys2Proof.Machine

open Sys2Proof

variable {s : State}

/-! ### The router (R190, R191) -/

/-- The router's meaning of a frame is that of the instruction `BUF[0]` decodes to. -/
theorem dispatchFrame_eq_exec (s : State) : dispatchFrame s = exec (decodeOpcode s.params (bufByte s 0)) s := by
  rw [dispatchFrame, decodeOpcode]
  cases classifyOpcode s.params (bufByte s 0) <;> rfl

/-- In Bridge mode with a valid unit DISPATCH routes the frame (R190). -/
theorem exec_dispatch_valid (hm : s.ctrl.mode = .bridge) (hv : s.unitValid = true) :
    exec .dispatch s = dispatchFrame { s with seq := .dispatch } := by
  show execDispatch s = _
  rw [execDispatch, if_pos hm, if_pos hv]

/-- The handler of the handler of its row has a next state. -/
theorem exec_frameOp_next (f : FrameOp) (b : Byte) (s : State) : ∃ t, exec (f.toInstr b) s = .next t := by
  cases f <;> exact ⟨_, rfl⟩

/-- Settles O43: the frame's first byte is `BUF[0]`, and the handler of its row has a next state. -/
theorem dispatchRunsTheHandler : Obligations.DispatchRunsTheHandler := by
  intro s op hm hv hop
  obtain ⟨t, ht⟩ := exec_frameOp_next (classifyOpcode s.params op) op { s with seq := .dispatch }
  refine ⟨t, ?_, ht⟩
  rw [exec_dispatch_valid hm hv, dispatchFrame_eq_exec,
    show bufByte { s with seq := .dispatch } 0 = op from bufByte_of_find hop]
  exact ht

/-! ### The placeholder handlers (R193) -/

/-- Settles O44: each of the six is `placeholder` with its index and its opcode. -/
theorem placeholdersReport : Obligations.PlaceholdersReport := by
  intro s h hh
  simp only [List.mem_cons, List.not_mem_nil, or_false] at hh
  rcases hh with rfl | rfl | rfl | rfl | rfl | rfl <;> rfl

/-! ### The packet router (R196) -/

theorem framePayload_length (s : State) : (framePayload s).length = s.unitLen.toNat - 1 := by
  rw [framePayload, List.length_map, List.length_range]

/-- Byte `k` of the payload of a frame that is held is `BUF[1+k]`. -/
theorem framePayload_getElem? {k : Nat} (h : BytesHeld s s.unitLen.toNat) (hk : k < s.unitLen.toNat - 1) :
    (framePayload s)[k]? = Cells.find (1 + k) s.buf := by
  rw [find_of_bytesHeld h (by omega : 1 + k < s.unitLen.toNat), framePayload, List.getElem?_map,
    List.getElem?_range hk, Option.map_some]

/-- Where OP_PACKET is configured PACKET records the event and the invocation, and ends with OK. -/
theorem exec_packet_configured {op : Byte} (h : s.params.opPacket = some op) :
    exec .packet s = .next (raise .ok (recordHandler .packet 7 op (emit (.packet (framePayload s)) s))) := by
  show execPacket s = _
  rw [execPacket, h]

/-- Settles O45: the bytes are `framePayload`. -/
theorem packetForwardsThePayload : Obligations.PacketForwardsThePayload := fun s _ hop hheld =>
  ⟨framePayload s, framePayload_length s, fun _ hk => framePayload_getElem? hheld hk, exec_packet_configured hop⟩

/-! ### The bytes without a handler (R194, R195) -/

/-- A byte that is no configured opcode ends the command with OK, whether it is the sentinel or not. -/
theorem exec_decodeOpcode_no_row {b : Byte} (h : b ∉ s.params.opcodes) :
    exec (decodeOpcode s.params b) s = .next (raise .ok s) := by
  rw [decodeOpcode_no_row h]
  split <;> rfl

/-- Settles O46: no opcode of well-formed parameters is 0xFF, so either byte has no row. -/
theorem unknownOpcodesAreSilent : Obligations.UnknownOpcodesAreSilent := by
  refine fun s b => ⟨rfl, rfl, fun hp hb => exec_decodeOpcode_no_row ?_⟩
  rcases hb with rfl | hb
  · exact Params.sentinel_not_mem_opcodes hp
  · exact hb

end Sys2Proof.Machine
end

