-- ==== Sys2Proof/Proofs/Exceptions.lean ====
section
/-! The statements of spec/60_exceptions.md: the end of a command and FATAL. -/

namespace Sys2Proof.Machine

open Sys2Proof

/-! ### The end of a command (R212) -/

/-- The table of R212 and R213: two codes end in IDLE, one in FATAL, and every other one in ABORTED. -/
theorem ResultCode.endState_eq (code : ResultCode) :
    code.endState = if code = .ok ∨ code = .notImplemented then .idle else if code = .flashFail then .fatal else .aborted := by
  cases code <;> rfl

theorem or_eq_ite_true (a b : Bool) : (a || b) = if b then true else a := by
  cases b <;> simp

/-- Settles O15, by the table of the codes and by what IE makes of IRQ. -/
theorem commandEndBookkeeping : Obligations.CommandEndBookkeeping := by
  intro code s
  rw [raise, ResultCode.endState_eq, or_eq_ite_true]

/-! ### FATAL (R213) -/

variable {s u : State}

theorem sendPlace_not_fatal (h : SendPlace s) : s.seq ≠ .fatal := by
  rcases h with ⟨-, hseq⟩ | ⟨-, hseq⟩ | ⟨-, -, -, hseq | ⟨hseq, -⟩⟩ <;> simp [hseq]

theorem receivePlace_not_fatal (h : ReceivePlace s) : s.seq ≠ .fatal := by
  obtain ⟨-, -, ⟨hseq, -⟩ | ⟨hseq, -⟩ | ⟨hseq, -⟩ | ⟨hseq, -⟩ | ⟨hseq, -⟩⟩ := h <;> simp [hseq]

theorem responderPlace_not_fatal (h : ResponderPlace s) : s.seq ≠ .fatal := by
  rcases h with ⟨-, hseq⟩ | ⟨-, hseq⟩ | ⟨-, hseq⟩ | ⟨-, hseq, -⟩ | ⟨-, hplace⟩
  · simp [hseq]
  · simp [hseq]
  · simp [hseq]
  · simp [hseq]
  · exact receivePlace_not_fatal hplace

/-- The command active in FATAL is RESET: no other one is accepted there (R87), and past its first step a command stands in a wait,
the commit or the pulse. -/
theorem State.SeqLegal.cur_of_fatal (h : s.SeqLegal) (hf : s.seq = .fatal) (ha : s.active = true) : s.cur = 0x0F := by
  cases hp : s.phase with
  | start =>
    have hstart : s.seq = .idle ∨ s.seq = .aborted ∨ (s.seq = .fatal ∧ s.cur = 0x0F) := by simpa [ha, hp] using h.2.2
    simpa [hf] using hstart
  | drive => exact absurd hf (sendPlace_not_fatal (h.driving ha hp).2)
  | run =>
    obtain ⟨-, ⟨-, hsend⟩ | ⟨-, hresp⟩⟩ := h.running ha hp
    · exact absurd hf (sendPlace_not_fatal hsend)
    · exact absurd hf (responderPlace_not_fatal hresp)

theorem WriteOf.seq (h : WriteOf s u) : u.seq = s.seq := by
  cases h with
  | ctrl d ha => rw [writeCtrl_of_inactive d ha]
  | _ => rfl

@[simp] theorem edgeCaptureStep_seq (s : State) : (edgeCaptureStep s).seq = s.seq := (edgeCaptureStep_commandKept s).seq

@[simp] theorem endStep_seq (s u : State) : (endStep s u).seq = u.seq := ((CommandKept.refl u).endStep s).seq

/-- An agent leaves STATE, or it is power-up, or the Engine at a command. -/
theorem AgentOf.seq_cases {a : Turn} (h : AgentOf a s u) :
    u.seq = s.seq ∨ a = .powerUp ∨ (a = .engine ∧ s.active = true) := by
  cases h with
  | read w _ hr =>
    obtain ⟨v, l, n, rfl⟩ := hr
    exact .inl rfl
  | write w _ hw => exact .inl hw.seq
  | engine ha hact _ => exact .inr (.inr ⟨ha, hact⟩)
  | resetCommand ha hact _ _ => exact .inr (.inr ⟨ha, hact⟩)
  | idle _ _ hu => exact .inl (by rw [hu])
  | edgeCapture _ hu => exact .inl (by rw [hu, edgeCaptureStep_seq])
  | tick _ hu => exact .inl (by rw [hu, tickStep_seq])
  | peer m _ hu => exact .inl (by rw [hu, peerStep_seq])
  | powerUp ha _ => exact .inr (.inl ha)

/-- Settles O55: where the step leaves STATE the invariant names the active command after it, and where the Engine runs a command it
names that command. -/
theorem fatalIsLeftOnlyByReset : Obligations.FatalIsLeftOnlyByReset := by
  intro s t h hf hstep
  have ht : t.SeqLegal := stepKeepsTheSequencerLegal s t h hstep
  obtain ⟨u, hu, rfl⟩ := step_cases hstep
  rcases hu.seq_cases with hseq | hpower | ⟨hengine, hact⟩
  · have htf : (endStep s u).seq = .fatal := by rw [endStep_seq, hseq, takeTurn_seq, hf]
    exact .inl ⟨htf, ht.cur_of_fatal htf⟩
  · exact .inr (.inl hpower)
  · rw [takeTurn_active] at hact
    exact .inr (.inr ⟨hengine, hact, h.cur_of_fatal hf hact⟩)

end Sys2Proof.Machine
end

