-- ==== Sys2Proof/Proofs/ResetAndHazards.lean ====
section
/-! The statements of spec/70_reset_and_hazards.md: the two instructions that reset the block, and the bound on the Engine steps a
command takes. -/

namespace Sys2Proof.Machine

open Sys2Proof

/-! ### Block reset (R240, R192, R198) -/

/-- Settles O5: RESET is a block reset, and REBOOT is one after RESTART has been recorded. -/
theorem resetAndRebootResetTheBlock : Obligations.ResetAndRebootResetTheBlock := fun s =>
  ⟨⟨blockReset s, rfl, atResetValues_blockReset s, rfl, rfl, rfl, rfl⟩,
    ⟨blockReset (emit .restart s), rfl, atResetValues_blockReset _, rfl, rfl, rfl, rfl⟩⟩

variable {s u : State}

/-! ### The commands without a wait -/

theorem reserveWith_ends (ok : Bool) (u : State) : (reserveWith ok u).active = false := by
  unfold reserveWith
  split <;> rfl

theorem execReserve_ends (s : State) : Ensures (fun t => t.active = false) (execReserve s) := by
  simp only [execReserve, ensures_next]
  split
  · rfl
  · split
    · rfl
    · split <;> exact reserveWith_ends _ _

theorem execRelease_ends (s : State) : Ensures (fun t => t.active = false) (execRelease s) := by
  simp only [execRelease, ensures_next]
  split <;> rfl

theorem dispatchFrame_ends (s : State) : Ensures (fun t => t.active = false) (dispatchFrame s) := by
  unfold dispatchFrame
  cases classifyOpcode s.params (bufByte s 0) with
  | packet =>
    simp only [execPacket, ensures_next]
    split <;> rfl
  | _ => rfl

theorem execDispatch_ends (s : State) : Ensures (fun t => t.active = false) (execDispatch s) := by
  unfold execDispatch
  split
  · split
    · exact dispatchFrame_ends _
    · rfl
  · rfl

/-- A first step that ends the command whatever its checks find. -/
theorem firstStep_ends {role : Option Role} {mode : Option Mode} {body : State → State} (hb : (body s).active = false) :
    (firstStep role mode body s).active = false :=
  firstStep_induct (P := fun t => t.active = false) rfl rfl fun _ _ => hb

/-- The commands that perform a wait (R261). -/
def waitingCommands : List Instr :=
  [.rxHeader, .rxPayload, .rxClose, .txHeader, .txPayload, .presession, .txUnit, .rxUnit, .flashPage]

/-- Every step of a command without a wait ends it. -/
theorem exec_ends_of_no_wait {i : Instr} (hf : i.format = .command) (hi : i ∉ waitingCommands) :
    Ensures (fun t => t.active = false) (exec i s) := by
  cases i with
  | nop => rfl
  | reserve => exact execReserve_ends s
  | release => exact execRelease_ends s
  | rearm => exact firstStep_ends rfl
  | txClose => exact firstStep_ends rfl
  | dispatch => exact execDispatch_ends s
  | reset => rfl
  | illegal c => rfl
  | rxHeader | rxPayload | rxClose | txHeader | txPayload | presession | txUnit | rxUnit | flashPage =>
    exact absurd (by decide) hi
  | _ => cases hf

/-! ### The bound a command begins with -/

/-- A wait for one byte, or of PRESESSION, begins with its budget; the bound of a Responder counts the pulse and the step that begins
it. -/
theorem engineStepsLeft_enterWait_single {q : SeqState} (hr : u.ctrl.role = .responder) (hc : ¬(u.cur = 0x0A ∨ u.cur = 0x0D))
    (hq : q.IsWait) : engineStepsLeft (enterWait q u) = u.params.waitBudget + u.params.readyPulse + 1 := by
  have hwaits : receiveWaitsLeft (enterWait q u) = 1 := receiveWaitsLeft_single hc
  rw [engineStepsLeft_receiveWait (s := enterWait q u) rfl hr hq, hwaits, Nat.one_mul]
  rfl

/-- A byte on DATA has the VALID drive and one wait to come. -/
theorem engineStepsLeft_presentData_single (b : Byte) (q : SeqState) (hc : u.cur ≠ 0x0B) :
    engineStepsLeft (presentData b q u) = u.params.waitBudget + 1 := by
  have hwaits : sendWaitsLeft (presentData b q u) = 1 := if_neg hc
  rw [engineStepsLeft_drive rfl, hwaits, Nat.one_mul]
  rfl

/-- The header of a unit on DATA has its own wait and those of the payload to come. -/
theorem engineStepsLeft_presentHeader (b : Byte) (hc : u.cur = 0x0B) :
    engineStepsLeft (presentData b .hdrWait u) = (u.unitN.toNat + 1) * (u.params.waitBudget + 1) := by
  have hwaits : sendWaitsLeft (presentData b .hdrWait u) = u.unitN.toNat + 1 :=
    sendWaitsLeft_header (s := presentData b .hdrWait u) hc rfl
  rw [engineStepsLeft_drive rfl, hwaits]
  rfl

/-- A receive of a unit has the waits of the header, of the payload and of the close to come. -/
theorem engineStepsLeft_rxUnitStart (hr : s.ctrl.role = .responder) (hc : s.cur = 0x0A ∨ s.cur = 0x0D) :
    engineStepsLeft (rxUnitStart s) = ((unitCount s).toNat + 2) * s.params.waitBudget + s.params.readyPulse + 1 := by
  have hwaits : receiveWaitsLeft (rxUnitStart s) = (unitCount s).toNat + 2 :=
    receiveWaitsLeft_header (s := rxUnitStart s) hc rfl
  have hq : SeqState.hdrWait.IsWait := ⟨by decide, by decide⟩
  rw [engineStepsLeft_receiveWait (s := rxUnitStart s) rfl hr hq, hwaits]
  rfl

/-! ### The first step, against the bound of R261 -/

/-- A first step of `s` that leads to `t` ends the command, or leaves it at most `W * WAIT_BUDGET + S` steps, that step
included. -/
def WithinBound (s : State) (W n : Nat) (t : State) : Prop :=
  t.active = false ∨ engineStepsLeft t + 1 ≤ W * s.params.waitBudget + (2 * (n + 1) + s.params.readyPulse + 2)

/-- A failed check ends the command, so a first step is within the bound where the command's own first step is. -/
theorem firstStep_withinBound {W n : Nat} {role : Role} {mode : Option Mode} {body : State → State}
    (hb : s.ctrl.role = role → WithinBound s W n (body s)) : WithinBound s W n (firstStep (some role) mode body s) :=
  firstStep_induct (.inl rfl) (.inl rfl) fun hr _ => hb (eq_of_check hr)

theorem enterWait_withinBound {q : SeqState} (hu : u.params = s.params) (hr : u.ctrl.role = .responder)
    (hc : ¬(u.cur = 0x0A ∨ u.cur = 0x0D)) (hq : q.IsWait) : WithinBound s 1 0 (enterWait q u) := by
  right
  rw [engineStepsLeft_enterWait_single hr hc hq, hu]
  omega

theorem presentData_withinBound (b : Byte) (q : SeqState) (hu : u.params = s.params) (hc : u.cur ≠ 0x0B) :
    WithinBound s 1 0 (presentData b q u) := by
  right
  rw [engineStepsLeft_presentData_single b q hc, hu]
  omega

theorem rxUnitStart_withinBound (hr : s.ctrl.role = .responder) (hc : s.cur = 0x0A ∨ s.cur = 0x0D) :
    WithinBound s ((unitCount s).toNat + 2) (unitCount s).toNat (rxUnitStart s) := by
  right
  rw [engineStepsLeft_rxUnitStart hr hc]
  omega

theorem txUnitStart_withinBound (hc : s.cur = 0x0B) :
    WithinBound s ((unitCount s).toNat + 1) (unitCount s).toNat (txUnitStart s) := by
  unfold txUnitStart
  split
  · exact .inl rfl
  · right
    rw [engineStepsLeft_presentHeader (u := { s with unitN := unitCount s, dir := true }) _ hc, Nat.mul_succ]
    show ((unitCount s).toNat + 1) * s.params.waitBudget + ((unitCount s).toNat + 1) + 1 ≤ _
    omega

/-- The commands of one wait (R261). -/
theorem singleWait_withinBound (hp : s.phase = .start)
    (hi : decodeCode s.cur ∈ [Instr.rxHeader, .rxPayload, .rxClose, .txHeader, .txPayload, .presession]) :
    Ensures (WithinBound s 1 0) (exec (decodeCode s.cur) s) := by
  have hreceive : ¬(s.cur = 0x0A ∨ s.cur = 0x0D) := by
    rintro (h | h) <;> rw [h] at hi <;> exact absurd hi (by decide)
  have hsend : s.cur ≠ 0x0B := by
    intro h
    rw [h] at hi
    exact absurd hi (by decide)
  simp only [List.mem_cons, List.not_mem_nil, or_false] at hi
  rcases hi with hi | hi | hi | hi | hi | hi <;> rw [hi]
  · simp only [exec, execRxHeader, hp, ensures_next]
    refine firstStep_withinBound fun hr => ?_
    split
    · exact enterWait_withinBound rfl hr hreceive ⟨by decide, by decide⟩
    · exact .inl rfl
  · simp only [exec, execRxPayload, hp, ensures_next]
    exact firstStep_withinBound fun hr => enterWait_withinBound rfl hr hreceive ⟨by decide, by decide⟩
  · simp only [exec, execRxClose, hp, ensures_next]
    exact firstStep_withinBound fun hr => enterWait_withinBound rfl hr hreceive ⟨by decide, by decide⟩
  · simp only [exec, execTxHeader, hp, ensures_next]
    refine firstStep_withinBound fun _ => ?_
    split
    · exact .inl rfl
    · exact presentData_withinBound _ _ rfl hsend
  · simp only [exec, execTxPayload, hp, ensures_next]
    refine firstStep_withinBound fun _ => ?_
    split
    · exact presentData_withinBound _ _ rfl hsend
    · exact .inl rfl
  · simp only [exec, execPresession, hp, ensures_next]
    exact firstStep_withinBound fun hr => enterWait_withinBound rfl hr hreceive ⟨by decide, by decide⟩

theorem txUnit_withinBound (hp : s.phase = .start) (hc : s.cur = 0x0B) :
    Ensures (WithinBound s ((unitCount s).toNat + 1) (unitCount s).toNat) (exec .txUnit s) := by
  simp only [exec, execTxUnit]
  split
  · trivial
  · simp only [txUnitStep, hp, ensures_next]
    refine firstStep_withinBound fun _ => ?_
    split
    · exact .inl rfl
    · exact txUnitStart_withinBound hc

theorem rxUnit_withinBound (hp : s.phase = .start) (hc : s.cur = 0x0A) :
    Ensures (WithinBound s ((unitCount s).toNat + 2) (unitCount s).toNat) (exec .rxUnit s) := by
  simp only [exec, execRxUnit, hp, ensures_next]
  refine firstStep_withinBound fun hr => ?_
  split
  · exact .inl rfl
  · exact rxUnitStart_withinBound hr (.inl hc)

theorem flashPage_withinBound (hp : s.phase = .start) (hc : s.cur = 0x0D) :
    Ensures (WithinBound s ((unitCount s).toNat + 2) (unitCount s).toNat) (exec .flashPage s) := by
  simp only [exec, execFlashPage, hp, ensures_next]
  exact firstStep_withinBound fun hr => rxUnitStart_withinBound hr (.inr hc)

/-- Settles O60: the kinds of R261 one by one; a command of no kind performs no wait. -/
theorem firstStepBoundsTheCommand : Obligations.FirstStepBoundsTheCommand := by
  intro s t _ ha hp hturn hstep
  obtain ⟨u, hu, rfl⟩ := step_next hstep
  rw [hturn, agentStep_engine_active (s := takeTurn s) ha] at hu
  rw [endStep_active, engineStepsLeft_endStep]
  refine ⟨fun W n hkind => ?_, fun hnone => ?_⟩
  · have hbound : Ensures (WithinBound (takeTurn s) W n) (exec (decodeCode s.cur) (takeTurn s)) := by
      rcases hkind with ⟨hi, rfl, rfl⟩ | ⟨hi, rfl, rfl⟩ | ⟨hi, rfl, rfl⟩
      · exact singleWait_withinBound (s := takeTurn s) hp hi
      · rw [hi]
        exact txUnit_withinBound (s := takeTurn s) hp (decodeCode_injective hi)
      · simp only [List.mem_cons, List.not_mem_nil, or_false] at hi
        rcases hi with hi | hi <;> rw [hi]
        · exact rxUnit_withinBound (s := takeTurn s) hp (decodeCode_injective hi)
        · exact flashPage_withinBound (s := takeTurn s) hp (decodeCode_injective hi)
    exact hbound.of_eq hu
  · exact (exec_ends_of_no_wait (format_decodeCode s.cur) hnone).of_eq hu

end Sys2Proof.Machine
end
